-- ==== Sys2Proof/Word.lean ====
section
/-! DEFINITION. Word.lean: the one word of the block, the byte, and the constants of the wire
format (spec/00_scope.md R11, R13, R14). -/

namespace Sys2Proof

/-- A byte, an unsigned integer 0..255 (R14); no field of the block is wider (R13, R45). -/
abbrev Byte := BitVec 8

/-- The header byte `HDR`, sent twice (R11). -/
abbrev hdr : Byte := 0xFF#8

/-- `BROADCAST_ID`, the one reserved value of the ID space (R11, R42). -/
abbrev broadcastId : Byte := 254#8

/-- `MAX_PARAMS`, the largest parameter count a built frame may have (R11). -/
abbrev maxParams : Nat := 253

end Sys2Proof
end

