-- ==== Sys2Proof/Machine/Builder.lean ====
section
/-! DEFINITION. Machine/Builder.lean: the checksum, the length byte and the layout of a frame
(spec/41_builder.md R120 to R122, spec/30_encoding.md R60). The builder's refusals are in Machine/Ops.lean. -/

namespace Sys2Proof

/-- The sum of a byte sequence, accumulated mod 256 byte by byte (R15, R124). -/
def byteSum : List Byte → Byte
  | [] => 0#8
  | b :: bs => b + byteSum bs

/-- `checksum(id, N, e, ps)` of R121: the bitwise NOT of the sum of every byte but the header's, low 8 bits. -/
def checksum (id n e : Byte) (ps : List Byte) : Byte := ~~~(id + n + e + byteSum ps)

/-- The length byte `N = len(params) + 2` (R122). -/
def lengthByte (ps : List Byte) : Byte := BitVec.ofNat 8 (ps.length + 2)

/-- The frame of R60: `FF FF id length error_or_cmd params… checksum`. -/
def frame (id c : Byte) (ps : List Byte) : List Byte :=
  [hdr, hdr, id, lengthByte ps, c] ++ ps ++ [checksum id (lengthByte ps) c ps]

end Sys2Proof
end

