-- ==== Sys2Proof/Config.lean ====
section
/-! DEFINITION. Config.lean: the parameters that the source leaves open (spec/00_scope.md R12) and the
free values of the model. The numeric default tables are in Machine/Tables.lean. -/

namespace Sys2Proof

/-- The closed enumeration of wire instructions (R64). -/
inductive Command where
  | ping | read | write | regWrite | action | reset | syncWrite
  deriving DecidableEq, Repr

/-- The seven device error flags the source names (R27). -/
inductive DeviceFlag where
  | inputVoltage | angleLimit | overheating | range | checksum | overload | instruction
  deriving DecidableEq, Repr

/-- The parameter `cmdCode : Command → Byte` (R12, R65), written out as one byte per command. -/
structure CmdCodes where
  ping : Byte
  read : Byte
  write : Byte
  regWrite : Byte
  action : Byte
  reset : Byte
  syncWrite : Byte
  deriving DecidableEq, Repr

/-- The parameter `errBit : DeviceFlag → {0..7}` (R12, R70), written out as one bit index per flag. -/
structure ErrBits where
  inputVoltage : Fin 8
  angleLimit : Fin 8
  overheating : Fin 8
  range : Fin 8
  checksum : Fin 8
  overload : Fin 8
  instruction : Fin 8
  deriving DecidableEq, Repr

/-- What the parser does with a length byte below 2 (R12, R95; 92_eei_decisions.md D5). -/
inductive ShortLenPolicy where
  | zeroParams | fail | absorb
  deriving DecidableEq, Repr

/-- The parameters of one block. Fixed while the block runs: no instruction writes them. -/
structure Config where
  codes : CmdCodes
  bits : ErrBits
  shortLen : ShortLenPolicy
  deriving DecidableEq, Repr

/-- The answer of one `read_byte` request: a byte or TIMEOUT (R16, R210). -/
inductive RxAnswer where
  | byte (b : Byte)
  | timeout
  deriving DecidableEq, Repr, Inhabited

/-- FREE VALUE (R10, 92_eei_decisions.md D17; log entry 3): the Transport's answer to the n-th request that no
queued answer of the state serves. It has no body, so nothing can be proved about which answer it is. -/
opaque Config.freeAnswer : Nat → RxAnswer

/-- `T_BYTE`, the per-byte receive deadline: a timing value no rule reads (R12, R240; log entry 12). -/
opaque Config.tByte : Nat

/-- `T_SETTLE`, the Transport's direction-switch delay: a timing value no rule reads (R12, R235; log entry 12). -/
opaque Config.tSettle : Nat

end Sys2Proof
end

