-- ==== Sys2Proof/Machine/Tables.lean ====
section
/-! DEFINITION. Machine/Tables.lean: reading the parameters `cmdCode` and `errBit`, their default tables
(spec/30_encoding.md R66, R71) and the injectivity that R65 and R70 require of them. -/

namespace Sys2Proof

/-- `cmdCode(c)` (R65). -/
def CmdCodes.code (t : CmdCodes) : Command → Byte
  | .ping => t.ping
  | .read => t.read
  | .write => t.write
  | .regWrite => t.regWrite
  | .action => t.action
  | .reset => t.reset
  | .syncWrite => t.syncWrite

/-- The command a code byte stands for, if it is one of the seven codes. -/
def CmdCodes.command? (t : CmdCodes) (c : Byte) : Option Command :=
  if c = t.ping then some .ping
  else if c = t.read then some .read
  else if c = t.write then some .write
  else if c = t.regWrite then some .regWrite
  else if c = t.action then some .action
  else if c = t.reset then some .reset
  else if c = t.syncWrite then some .syncWrite
  else none

/-- `errBit(f)` (R70). -/
def ErrBits.bit (t : ErrBits) : DeviceFlag → Fin 8
  | .inputVoltage => t.inputVoltage
  | .angleLimit => t.angleLimit
  | .overheating => t.overheating
  | .range => t.range
  | .checksum => t.checksum
  | .overload => t.overload
  | .instruction => t.instruction

/-- The seven codes in the order of R66. -/
def CmdCodes.toList (t : CmdCodes) : List Byte :=
  [t.ping, t.read, t.write, t.regWrite, t.action, t.reset, t.syncWrite]

/-- The seven bit indices in the order of R71. -/
def ErrBits.toList (t : ErrBits) : List (Fin 8) :=
  [t.inputVoltage, t.angleLimit, t.overheating, t.range, t.checksum, t.overload, t.instruction]

/-- The parameters are lawful: `cmdCode` and `errBit` are injective (R65, R70). -/
abbrev Config.Lawful (c : Config) : Prop := c.codes.toList.Nodup ∧ c.bits.toList.Nodup

/-- The default `cmdCode` (R66). PRESUMED by the spec itself ("from general knowledge, not in source"); log entry 1. -/
def CmdCodes.default : CmdCodes :=
  { ping := 0x01#8, read := 0x02#8, write := 0x03#8, regWrite := 0x04#8,
    action := 0x05#8, reset := 0x06#8, syncWrite := 0x83#8 }

/-- The default `errBit` (R71). PRESUMED by the spec itself ("from general knowledge, not in source"); log entry 1. -/
def ErrBits.default : ErrBits :=
  { inputVoltage := 0, angleLimit := 1, overheating := 2, range := 3,
    checksum := 4, overload := 5, instruction := 6 }

/-- The parameters of the reset state: the default tables, and `shortLenPolicy = zeroParams`, the policy of the
spec's vectors (95_test_vectors.md, conventions). DESIGN CHOICE; log entry 2. -/
def Config.default : Config :=
  { codes := CmdCodes.default, bits := ErrBits.default, shortLen := .zeroParams }

end Sys2Proof
end

