-- ==== Sys2Proof/Syntax.lean ====
section
/-! DEFINITION. Syntax.lean: the instructions of the block as one inductive type, one constructor per row of
spec/opcode_table.json: seven wire instructions (R64, R67) and twenty-one host operations (R73). -/

namespace Sys2Proof

/-- The builder's command operand: "a Command code (or raw instruction byte)" (R69, R120). -/
inductive CommandArg where
  | cmd (c : Command)
  | raw (b : Byte)
  deriving DecidableEq, Repr

/-- One device's part of a SYNC_WRITE parameter block: its ID byte and its data (R67). -/
structure DeviceBlock where
  id : Byte
  values : List Byte
  deriving DecidableEq, Repr

/-- One constructor per row of the opcode table. The constructors `wire…` are the rows of format
`instruction_frame` (their operands as R67 lays them out); the others are the host operations of R73, with the
arguments of that table. `scan` has no callback arguments: its callbacks are output events (R175). -/
inductive Instr where
  | wirePing (id : Byte)
  | wireRead (id offset length : Byte)
  | wireWrite (id offset : Byte) (data : List Byte)
  | wireRegWrite (id offset : Byte) (data : List Byte)
  | wireAction
  | wireReset (id : Byte)
  | wireSyncWrite (offset : Byte) (blocks : List DeviceBlock)
  | processByte (b : Byte)
  | devId
  | paramLen
  | paramByte (i : Nat)
  | params
  | errorCode
  | errorCodeStr
  | build (id : Byte) (command : CommandArg) (params : List Byte)
  | fillAndWritePacket (id : Byte) (command : CommandArg) (data : List Byte)
  | readStatusPacket
  | ping (id : Byte)
  | read (id offset length : Byte)
  | write (id offset : Byte) (data : List Byte) (deferred : Bool)
  | reset (id : Byte)
  | action
  | syncWrite (ids : List Byte) (offset : Byte) (values : List (List Byte))
  | sendPing (id : Byte)
  | sendRead (id offset length : Byte)
  | sendWrite (id offset : Byte) (data : List Byte) (deferred : Bool)
  | sendReset (id : Byte)
  | scan (startId numIds : Nat)
  deriving DecidableEq, Repr

end Sys2Proof
end

