-- ==== Sys2Proof/Machine/Operands.lean ====
section
/-! DEFINITION. Machine/Operands.lean: operand assembly (spec/30_encoding.md R67, R68) and the checks the spec makes on
operands: ID ranges (R123, R146) and the pre-flight check of `sync_write` (R171, R203). -/

namespace Sys2Proof

/-- The builder's ID range 0..254 (R120, R123). -/
def builderId (id : Byte) : Bool := decide (id.toNat ≤ 254)

/-- The ID range 0..253 of the operations that must get an answer (R146, R150, R153). -/
def deviceId (id : Byte) : Bool := decide (id.toNat ≤ 253)

/-- All elements have the length of the first (R171). -/
def sameLengths (values : List (List Byte)) : Bool :=
  values.all fun v => v.length == (values.headD []).length

/-- The pre-flight check of `sync_write`: as many value lists as IDs, all of one length (R171, R203). -/
def lengthsAgree (ids : List Byte) (values : List (List Byte)) : Bool :=
  values.length == ids.length && sameLengths values

/-- How many parameter bytes a SYNC_WRITE of these value lists has: `[offset, L]` and, for each device, its ID and
its values (R67, R173). -/
def syncParamCount (values : List (List Byte)) : Nat :=
  2 + (values.map fun v => v.length + 1).sum

/-- READ's parameters `[offset, length]` (R67, R153). -/
def readParams (offset length : Byte) : List Byte := [offset, length]

/-- WRITE's and REG_WRITE's parameters `[offset] ++ data` (R67, R156). -/
def writeParams (offset : Byte) (data : List Byte) : List Byte := offset :: data

/-- `if deferred then REG_WRITE else WRITE` (R156, R182). -/
def writeCommand (deferred : Bool) : Command := if deferred then .regWrite else .write

/-- The device parts `ids[0] ++ values[0] ++ … ++ ids[n-1] ++ values[n-1]` (R171). -/
def syncBody : List Byte → List (List Byte) → List Byte
  | id :: ids, v :: values => id :: (v ++ syncBody ids values)
  | _, _ => []

/-- SYNC_WRITE's parameters `[offset, L] ++ …`, L the length of `values[0]` (R67, R171, R172). -/
def syncParams (ids : List Byte) (offset : Byte) (values : List (List Byte)) : List Byte :=
  [offset, BitVec.ofNat 8 (values.headD []).length] ++ syncBody ids values

end Sys2Proof
end

