-- ==== Sys2Proof/WellFormed.lean ====
section
/-! DEFINITION. WellFormed.lean: which operands the spec gives a meaning. The cases it leaves out are the refused
cases of spec/93_implementation_defined.md I33 to I36 that depend on the arguments alone. -/

namespace Sys2Proof

/-- The operands to which the spec gives a meaning. A `sync_write` whose lengths do not agree is well formed: it
raises the ValidationError (R171), which is a meaning. -/
def Instr.wellFormed : Instr → Bool
  | .wirePing id => deviceId id
  | .wireRead id _ _ => deviceId id
  | .wireWrite id _ data => builderId id && decide (data.length ≤ 252)
  | .wireRegWrite id _ data => builderId id && decide (data.length ≤ 252)
  | .wireAction => true
  | .wireReset id => builderId id
  | .wireSyncWrite _ blocks =>
      !blocks.isEmpty && sameLengths (blocks.map (·.values)) &&
        decide (syncParamCount (blocks.map (·.values)) ≤ maxParams)
  | .processByte _ => true
  | .devId => true
  | .paramLen => true
  | .paramByte _ => true
  | .params => true
  | .errorCode => true
  | .errorCodeStr => true
  | .build id _ ps => builderId id && decide (ps.length ≤ maxParams)
  | .fillAndWritePacket id _ data => builderId id && decide (data.length ≤ maxParams)
  | .readStatusPacket => true
  | .ping id => deviceId id
  | .read id _ _ => deviceId id
  | .write id _ data _ => builderId id && decide (data.length ≤ 252)
  | .reset id => builderId id
  | .action => true
  | .syncWrite ids _ values =>
      !lengthsAgree ids values || (!ids.isEmpty && decide (syncParamCount values ≤ maxParams))
  | .sendPing id => builderId id
  | .sendRead id _ _ => builderId id
  | .sendWrite id _ data _ => builderId id && decide (data.length ≤ 252)
  | .sendReset id => builderId id
  | .scan startId numIds => decide (startId + numIds ≤ 254)

end Sys2Proof
end

