-- ==== Sys2Proof/Decode.lean ====
section
/-! DEFINITION. Decode.lean: reading a wire instruction from the bytes of an instruction frame (spec/30_encoding.md
R60, R61, R65, R67), rejecting by name, and the encoder. The host operations have no bit encoding (R73), so no bytes
decode to one. -/

namespace Sys2Proof

/-- Why a byte sequence is no instruction frame of the seven wire instructions. -/
inductive DecodeError where
  /-- The bytes end before the frame does (R61). -/
  | truncated
  /-- The first two bytes are not `FF FF` (R60). -/
  | badHeader
  /-- The length byte is below 2: no frame the builder makes (R61). -/
  | shortLength
  /-- The checksum byte does not match (R60, R63). -/
  | badChecksum
  /-- The byte 4 is none of the seven instruction codes (R64, R65). -/
  | unknownCommand
  /-- The ID byte is 255, or not 254 in a broadcast instruction (R67, R123). -/
  | badId
  /-- The parameters do not have the layout of R67 for this instruction. -/
  | badParams
  /-- Bytes follow the frame where one frame alone is asked for. -/
  | trailingBytes
  deriving DecidableEq, Repr

/-- The variable fields of a frame (R60). -/
structure RawFrame where
  id : Byte
  code : Byte
  params : List Byte
  deriving DecidableEq, Repr

/-- Cut one frame off the front of a byte sequence, by its length byte (R61), checking header and checksum. -/
def splitFrame : List Byte → Except DecodeError (RawFrame × List Byte)
  | h1 :: h2 :: id :: n :: c :: rest =>
    if h1 = hdr ∧ h2 = hdr then
      if n.toNat < 2 then .error .shortLength
      else
        match rest.drop (n.toNat - 2) with
        | [] => .error .truncated
        | chk :: tail =>
          let ps := rest.take (n.toNat - 2)
          if chk = checksum id n c ps then .ok (⟨id, c, ps⟩, tail) else .error .badChecksum
    else .error .badHeader
  | _ => .error .truncated

/-- Cut the device blocks of a SYNC_WRITE, each an ID byte and `len` data bytes (R67). The first argument bounds
the number of blocks. -/
def splitBlocks (len : Nat) : Nat → List Byte → Option (List DeviceBlock)
  | _, [] => some []
  | 0, _ :: _ => none
  | fuel + 1, id :: rest =>
    if rest.length < len then none
    else (splitBlocks len fuel (rest.drop len)).map (⟨id, rest.take len⟩ :: ·)

/-- An ID the builder accepts, else `badId` (R123). -/
def checkId (id : Byte) (i : Instr) : Except DecodeError Instr :=
  if id = 255#8 then .error .badId else .ok i

/-- A broadcast instruction carries the ID 254 (R67). -/
def checkBroadcast (id : Byte) (i : Instr) : Except DecodeError Instr :=
  if id = broadcastId then .ok i else .error .badId

/-- The instruction of a frame whose command is known, by the parameter layout of R67. -/
def decodeCommand (id : Byte) (ps : List Byte) : Command → Except DecodeError Instr
  | .ping => match ps with
    | [] => checkId id (.wirePing id)
    | _ => .error .badParams
  | .read => match ps with
    | [offset, length] => checkId id (.wireRead id offset length)
    | _ => .error .badParams
  | .write => match ps with
    | offset :: data => checkId id (.wireWrite id offset data)
    | [] => .error .badParams
  | .regWrite => match ps with
    | offset :: data => checkId id (.wireRegWrite id offset data)
    | [] => .error .badParams
  | .action => match ps with
    | [] => checkBroadcast id .wireAction
    | _ => .error .badParams
  | .reset => match ps with
    | [] => checkId id (.wireReset id)
    | _ => .error .badParams
  | .syncWrite => match ps with
    | offset :: len :: body =>
      match splitBlocks len.toNat body.length body with
      | some (b :: bs) => checkBroadcast id (.wireSyncWrite offset (b :: bs))
      | _ => .error .badParams
    | _ => .error .badParams

/-- The instruction at the front of a byte sequence and the bytes after its frame. -/
def decode (cfg : Config) (bytes : List Byte) : Except DecodeError (Instr × List Byte) :=
  match splitFrame bytes with
  | .error e => .error e
  | .ok (f, rest) =>
    match cfg.codes.command? f.code with
    | none => .error .unknownCommand
    | some c =>
      match decodeCommand f.id f.params c with
      | .error e => .error e
      | .ok i => .ok (i, rest)

/-- The instruction of a byte sequence that is one frame and nothing after it. -/
def decodeWhole (cfg : Config) (bytes : List Byte) : Except DecodeError Instr :=
  match decode cfg bytes with
  | .error e => .error e
  | .ok (i, []) => .ok i
  | .ok (_, _ :: _) => .error .trailingBytes

/-- The parameters of a SYNC_WRITE frame: `[offset, L] ++ id_1 ++ values_1 ++ …` (R67), L the common length. -/
def encodeBlocks (offset : Byte) (blocks : List DeviceBlock) : List Byte :=
  [offset, BitVec.ofNat 8 ((blocks.map fun b => b.values.length).headD 0)] ++
    blocks.flatMap fun b => b.id :: b.values

/-- The bytes of a wire instruction (R60, R65, R67); `none` for a host operation, which is a call and has no bit
encoding (R73). -/
def encode (cfg : Config) : Instr → Option (List Byte)
  | .wirePing id => some (frame id cfg.codes.ping [])
  | .wireRead id offset length => some (frame id cfg.codes.read [offset, length])
  | .wireWrite id offset data => some (frame id cfg.codes.write (offset :: data))
  | .wireRegWrite id offset data => some (frame id cfg.codes.regWrite (offset :: data))
  | .wireAction => some (frame broadcastId cfg.codes.action [])
  | .wireReset id => some (frame id cfg.codes.reset [])
  | .wireSyncWrite offset blocks => some (frame broadcastId cfg.codes.syncWrite (encodeBlocks offset blocks))
  | .processByte _ => none
  | .devId => none
  | .paramLen => none
  | .paramByte _ => none
  | .params => none
  | .errorCode => none
  | .errorCodeStr => none
  | .build _ _ _ => none
  | .fillAndWritePacket _ _ _ => none
  | .readStatusPacket => none
  | .ping _ => none
  | .read _ _ _ => none
  | .write _ _ _ _ => none
  | .reset _ => none
  | .action => none
  | .syncWrite _ _ _ => none
  | .sendPing _ => none
  | .sendRead _ _ _ => none
  | .sendWrite _ _ _ _ => none
  | .sendReset _ => none
  | .scan _ _ => none

/-- The frame in which the opcode table's one matched byte (byte 4) stands, with every operand byte zero: the
shortest parameters R67 allows the instruction, ID 254 where R67 fixes it, and the header, length and checksum bytes
as R60 computes them. DESIGN CHOICE; log entry 6. -/
def tableFrame (code : Byte) : List Byte :=
  match CmdCodes.default.command? code with
  | some .ping => frame 0#8 code []
  | some .read => frame 0#8 code [0#8, 0#8]
  | some .write => frame 0#8 code [0#8]
  | some .regWrite => frame 0#8 code [0#8]
  | some .action => frame broadcastId code []
  | some .reset => frame 0#8 code []
  | some .syncWrite => frame broadcastId code [0#8, 0#8, 0#8]
  | none => frame 0#8 code []

/-- The bytes of a table word: the table gives each wire instruction one byte, its byte 4. -/
def tableBytes (nbits w : Nat) : List Byte :=
  if nbits ≤ 8 ∧ w < 256 then tableFrame (BitVec.ofNat 8 w) else []

/-- The instruction this decoder reads from a table word, under the default `cmdCode`, which is the table's. -/
def decodeTableWord (nbits w : Nat) : Option Instr :=
  match decodeWhole Config.default (tableBytes nbits w) with
  | .ok i => some i
  | .error _ => none

end Sys2Proof
end

