-- ==== Sys2Proof/Machine/State.lean ====
section
/-! DEFINITION. Machine/State.lean: the architectural state (spec/10_state.md), the results and errors of operations
(spec/60_exceptions.md R200 to R205), the events of a run (spec/20_memory.md R52), the reasons a step can stop, and
the state after reset (R35, R36). The block has no addressable memory (R40). -/

namespace Sys2Proof.Machine

open Sys2Proof

/-- `P.state` (R21). `WAIT_PARAM[i]` is `waitParam` with a buffer of i bytes (R22). -/
inductive ParserState where
  | waitStart1 | waitStart2 | waitId | waitLength | waitError | waitParam | waitChecksum | done | failed
  deriving DecidableEq, Repr

/-- The parser registers (R20). `buf` holds at most 253 bytes (R23), which `Safety.lean` states as an invariant. -/
structure Parser where
  state : ParserState
  id : Byte
  len : Byte
  err : Byte
  buf : List Byte
  chk : Byte
  deriving DecidableEq, Repr

/-- The results of `process_byte` (R26). They are symbols, not bytes. -/
inductive ParseResult where
  | notDone | none | checksum
  deriving DecidableEq, Repr

/-- A decoded status packet (R24). -/
structure Packet where
  id : Byte
  length : Byte
  error : Byte
  params : List Byte
  checksum : Byte
  deriving DecidableEq, Repr

/-- `C.phase` (R29). -/
inductive Phase where
  | idle | tx | rx
  deriving DecidableEq, Repr

/-- The kind of a BusError (R200). -/
inductive ErrorKind where
  | timeout | checksum | device
  deriving DecidableEq, Repr

/-- The code a BusError carries (R200): the symbol TIMEOUT, the parser's symbol CHECKSUM, or a device's mask. -/
inductive ErrorCode where
  | timeout
  | checksum
  | mask (m : Byte)
  deriving DecidableEq, Repr

/-- A BusError: the pair (kind, code) and nothing else (R200, R206). -/
structure BusError where
  kind : ErrorKind
  code : ErrorCode
  deriving DecidableEq, Repr

/-- What an operation can raise: a BusError, or the ValidationError, which is no BusError (R200, R203). -/
inductive OpError where
  | bus (e : BusError)
  | validation
  deriving DecidableEq, Repr

/-- What an operation can return (the column "result" of R73). -/
inductive Value where
  | unit
  | parse (r : ParseResult)
  | byte (b : Byte)
  | count (n : Nat)
  | bytes (l : List Byte)
  | text (t : String)
  | frame (f : List Byte)
  | packet (p : Packet)
  | bool (b : Bool)
  deriving DecidableEq, Repr

/-- How an operation ends: it returns or it raises (R17). -/
inductive OpResult where
  | returned (v : Value)
  | raised (e : OpError)
  deriving DecidableEq, Repr

/-- One event of the observable history (R52). -/
inductive Event where
  /-- `write_packet(frame)`. -/
  | tx (frame : List Byte)
  /-- `read_byte()` with its answer. -/
  | rx (answer : RxAnswer)
  /-- `emit found(id)` (R175). -/
  | found (id : Byte)
  /-- `emit missing(id)` (R175). -/
  | missing (id : Byte)
  /-- An operation's result. -/
  | result (r : OpResult)
  deriving DecidableEq, Repr

/-- One entry of the host's sequence of operations (R55): an operation issued as a call (R73), or a wire instruction
given by the bytes of its frame (R60); or the reset of the host's own parser before a new decode attempt, which R90 gives and
R73 lists as no operation. DESIGN CHOICE; log entry 5. -/
inductive Request where
  | call (i : Instr)
  | frame (bytes : List Byte)
  | newParser
  deriving DecidableEq, Repr

/-- The state of the block and of its two inputs. -/
structure State where
  /-- The parameters of R12. Fixed: no instruction writes them. -/
  cfg : Config
  /-- `C.phase` (R29). -/
  phase : Phase
  /-- `C.op`: the host operation being run with its arguments, or none in IDLE (R29). -/
  op : Option Instr
  /-- `P`: the registers of the PacketParser that the host feeds with `process_byte` (R20, R37). -/
  parser : Parser
  /-- `C.P`: the controller's own parser register set, in use only in phase RX (R29). -/
  rxParser : Parser
  /-- The Packet that `read_status_packet` returned to the host (R24), until it is discarded; log entry 4. -/
  packet : Option Packet
  /-- `C.cur`, the next ID to ping (R29). -/
  cur : Nat
  /-- `C.end`, `start_id + num_ids` (R29). -/
  stop : Nat
  /-- `C.found` (R29). -/
  found : Bool
  /-- INPUT: the host's operations still to be issued, the next one first (R51, R55). -/
  program : List Request
  /-- INPUT: the Transport's next answers to `read_byte`, the next one first (R10, R210). -/
  rx : List RxAnswer
  /-- The model's own counter of the free answers drawn (log entry 3). -/
  draws : Nat
  /-- The observable history, oldest event first (R52). -/
  history : List Event
  deriving DecidableEq, Repr

/-- Why the machine stops with a fault. -/
inductive Fault where
  /-- Raised by `step` and by a receive event when `C.phase` and `C.op` do not fit together (an operation held outside
  phase RX, a phase other than IDLE with no operation, an operation held that awaits no status packet). R29 and R140
  give no such state and no run from reset reaches one. Safe: the model stops. -/
  | controllerStuck
  deriving DecidableEq, Repr

/-- Why the model gives an operation no meaning (R17: "Refused"). Each is safe: the model stops. -/
inductive Refusal where
  /-- Raised by an arm of `exec` whose instruction has no meaning yet. Safe. -/
  | notModelled (mnemonic : String)
  /-- Raised by every operation issued while another runs (R216; I37). Safe. -/
  | busy
  /-- Raised by the builder for an ID outside 0..254 (R123; I33). Safe. -/
  | buildIdOutOfRange
  /-- Raised by the builder for more than 253 parameters (R123; I33). Safe. -/
  | buildTooManyParams
  /-- Raised by `ping` to ID 254 (R146; I34). Safe. -/
  | pingToBroadcast
  /-- Raised by `read` to ID 254 (R146; I34). Safe. -/
  | readFromBroadcast
  /-- Raised by `sync_write` with no devices (R173; I35). Safe. -/
  | syncWriteNoDevices
  /-- Raised by `scan` when its range leaves 0..253 (R176; I36). Safe. -/
  | scanRange
  /-- Raised by `process_byte` in DONE or FAILED (R99; I30). Safe. -/
  | processByteTerminal
  /-- Raised by a Packet accessor in any state but DONE (R106; I31). Safe. -/
  | accessorNotDone
  /-- Raised by `param_byte(i)` with `i ≥ param_len()` (R109; I32). Safe. -/
  | paramByteRange
  /-- Raised by the fetch of a frame request whose bytes are no instruction frame (log entry 5). Safe. -/
  | undecodable (e : DecodeError)
  deriving DecidableEq, Repr

/-- The outcome of a step of this machine. -/
abbrev Result := Host.Outcome State Fault Refusal

/-- The parser before its first byte: "Initial state `WAIT_START1`" (R21), `P.buf` empty (R35). `P.id`, `P.len`,
`P.err`, `P.chk` are unspecified (R35) and are zero here, DESIGN CHOICE, unsafe; log entry 2. -/
def Parser.initial : Parser :=
  { state := .waitStart1, id := 0#8, len := 0#8, err := 0#8, buf := [], chk := 0#8 }

/-- Block reset (R36): `C.phase` IDLE, `C.op` none. The other registers are unspecified and hold the values of log
entry 2; the host holds no Packet; the inputs and the history are empty. -/
def State.reset : State :=
  { cfg := Config.default
    phase := .idle
    op := none
    parser := Parser.initial
    rxParser := Parser.initial
    packet := none
    cur := 0
    stop := 0
    found := false
    program := []
    rx := []
    draws := 0
    history := [] }

end Sys2Proof.Machine
end

