-- ==== Sys2Proof/Machine/Flags.lean ====
section
/-! DEFINITION. Machine/Flags.lean: the device error mask (spec/10_state.md R27, spec/30_encoding.md R70 to R72) and its
text (spec/40_parser.md R113). -/

namespace Sys2Proof.Machine

open Sys2Proof

/-- "Any non-zero error byte is a device error, whichever bits are set" (R27, R72, R202). -/
def isDeviceError (mask : Byte) : Bool := mask != 0#8

/-- The seven flags (R27). -/
def allFlags : List DeviceFlag :=
  [.inputVoltage, .angleLimit, .overheating, .range, .checksum, .overload, .instruction]

/-- The flag whose bit is k, if any (R70). -/
def flagAt (bits : ErrBits) (k : Fin 8) : Option DeviceFlag :=
  allFlags.find? fun f => bits.bit f == k

/-- The source's name of a flag (R27, R113). -/
def flagName : DeviceFlag → String
  | .inputVoltage => "INPUT_VOLTAGE"
  | .angleLimit => "ANGLE_LIMIT"
  | .overheating => "OVERHEATING"
  | .range => "RANGE"
  | .checksum => "CHECKSUM"
  | .overload => "OVERLOAD"
  | .instruction => "INSTRUCTION"

/-- "BIT<k>" for a bit no flag names (R113). -/
def bitName (k : Fin 8) : String :=
  "BIT" ++ ["0", "1", "2", "3", "4", "5", "6", "7"].getD k.val ""

/-- The name of bit k of the mask (R113). -/
def maskBitName (bits : ErrBits) (k : Fin 8) : String :=
  match flagAt bits k with
  | some f => flagName f
  | none => bitName k

/-- The set bits of a mask in ascending order (R113). -/
def setBits (mask : Byte) : List (Fin 8) :=
  ([0, 1, 2, 3, 4, 5, 6, 7] : List (Fin 8)).filter fun k => mask.getLsbD k.val

/-- Names joined by "," with no space (R113). -/
def joinComma : List String → String
  | [] => ""
  | [a] => a
  | a :: b :: l => a ++ "," ++ joinComma (b :: l)

/-- `error_code_str()` of a mask (R113). -/
def errorText (bits : ErrBits) (mask : Byte) : String :=
  if mask = 0#8 then "NONE" else joinComma ((setBits mask).map (maskBitName bits))

end Sys2Proof.Machine
end

