-- ==== Sys2Proof/Machine/Parser.lean ====
section
/-! DEFINITION. Machine/Parser.lean: the PacketParser's reset and `process_byte` (spec/40_parser.md R90 to R99) and the
decoded packet (spec/10_state.md R24). -/

namespace Sys2Proof.Machine

open Sys2Proof

/-- Parser reset (R90, R35): `P.state <- WAIT_START1; P.buf <- []`. The other registers become unspecified and are
left unwritten, as R35 allows. -/
def Parser.reset (p : Parser) : Parser := { p with state := .waitStart1, buf := [] }

/-- `P.state` is DONE or FAILED (R21). -/
def Parser.terminal (p : Parser) : Bool :=
  match p.state with
  | .done => true
  | .failed => true
  | _ => false

/-- The expected checksum `checksum(P.id, P.len, P.err, P.buf)` (R98, R121). -/
def Parser.expected (p : Parser) : Byte := checksum p.id p.len p.err p.buf

/-- WAIT_START1 (R92). -/
def stepStart1 (p : Parser) (b : Byte) : Parser × ParseResult :=
  if b = hdr then ({ p with state := .waitStart2 }, .notDone) else (p, .notDone)

/-- WAIT_START2 (R93). -/
def stepStart2 (p : Parser) (b : Byte) : Parser × ParseResult :=
  if b = hdr then ({ p with state := .waitId }, .notDone) else ({ p with state := .waitStart1 }, .notDone)

/-- WAIT_ID (R94). -/
def stepId (p : Parser) (b : Byte) : Parser × ParseResult :=
  ({ p with id := b, state := .waitLength }, .notDone)

/-- WAIT_LENGTH (R95). -/
def stepLength (p : Parser) (b : Byte) : Parser × ParseResult :=
  ({ p with len := b, state := .waitError }, .notDone)

/-- WAIT_ERROR (R96), with `shortLenPolicy` for a length byte below 2 (R95). -/
def stepError (pol : ShortLenPolicy) (p : Parser) (b : Byte) : Parser × ParseResult :=
  if 2 < p.len.toNat then ({ p with err := b, buf := [], state := .waitParam }, .notDone)
  else if p.len.toNat = 2 then ({ p with err := b, buf := [], state := .waitChecksum }, .notDone)
  else
    match pol with
    | .zeroParams => ({ p with err := b, buf := [], state := .waitChecksum }, .notDone)
    | .fail => ({ p with err := b, buf := [], state := .failed }, .checksum)
    | .absorb => ({ p with err := b, buf := [], state := .waitParam }, .notDone)

/-- WAIT_PARAM (R97); under the policy `absorb` with a short length the byte is discarded. -/
def stepParam (p : Parser) (b : Byte) : Parser × ParseResult :=
  if 3 ≤ p.len.toNat then
    if (p.buf ++ [b]).length = p.len.toNat - 2 then
      ({ p with buf := p.buf ++ [b], state := .waitChecksum }, .notDone)
    else ({ p with buf := p.buf ++ [b] }, .notDone)
  else (p, .notDone)

/-- WAIT_CHECKSUM (R98). -/
def stepChecksum (p : Parser) (b : Byte) : Parser × ParseResult :=
  if b = p.expected then ({ p with chk := b, state := .done }, .none)
  else ({ p with chk := b, state := .failed }, .checksum)

/-- `process_byte(b)` (R91); `none` in a terminal state, where the model refuses (R99). -/
def processByte (pol : ShortLenPolicy) (p : Parser) (b : Byte) : Option (Parser × ParseResult) :=
  match p.state with
  | .waitStart1 => some (stepStart1 p b)
  | .waitStart2 => some (stepStart2 p b)
  | .waitId => some (stepId p b)
  | .waitLength => some (stepLength p b)
  | .waitError => some (stepError pol p b)
  | .waitParam => some (stepParam p b)
  | .waitChecksum => some (stepChecksum p b)
  | .done => none
  | .failed => none

/-- `Packet(P)`: the decoded packet, read off the registers (R24). -/
def Parser.packet (p : Parser) : Packet :=
  { id := p.id, length := p.len, error := p.err, params := p.buf, checksum := p.chk }

/-- Feed bytes one at a time until the first terminal result (how 95_test_vectors.md reads a parser vector); the bytes
left over come last. `none` where a byte meets a parser that was terminal from the start (R99). -/
def feed (pol : ShortLenPolicy) : Parser → List Byte → Option (Parser × ParseResult × List Byte)
  | p, [] => some (p, .notDone, [])
  | p, b :: bs =>
    match processByte pol p b with
    | none => none
    | some (p', .notDone) => feed pol p' bs
    | some (p', r) => some (p', r, bs)

end Sys2Proof.Machine
end

