-- ==== Sys2Proof/Machine/Ops.lean ====
section
/-! DEFINITION. Machine/Ops.lean: the operations the meanings share: the frame of a host operation (spec/42_bus_primitives.md
R140), returning and raising (spec/60_exceptions.md R208), the transmit event (R141), the receive event and the receive
loop (R142), the verdict on a reply (R143, R150, R153, R156, R159, R174) and the scan loop (R174). -/

namespace Sys2Proof.Machine

open Sys2Proof

/-- Go on from a next state; a fault or a refusal ends the run (R17). -/
def andThen (o : Result) (f : State → Result) : Result :=
  match o with
  | .next s => f s
  | .fault r => .fault r
  | .refused r => .refused r

/-- One more event of the observable history (R52). -/
def State.record (s : State) (e : Event) : State := { s with history := s.history ++ [e] }

/-- The controller is idle: `C.phase = IDLE` and `C.op = none` (R140). -/
abbrev State.Idle (s : State) : Prop := s.phase = .idle ∧ s.op = none

/-- The frame of every host operation (R140): it starts idle and holds itself in `C.op`; issued while another runs it
gets no step (R216). -/
def issue (i : Instr) (s : State) (body : State → Result) : Result :=
  if s.Idle then body { s with op := some i } else .refused .busy

/-- `return v`: back to IDLE, no operation (R140), the result goes to the host. -/
def complete (v : Value) (s : State) : Result :=
  .next { s with phase := .idle, op := none, history := s.history ++ [.result (.returned v)] }

/-- `raise e` (R208), the block's only trap entry: the operation ends, back to IDLE, no operation, nothing saved; the
error goes to the host. There is no return-from-error operation (R209): the next operation starts from IDLE. -/
def raiseError (e : OpError) (s : State) : Result :=
  .next { s with phase := .idle, op := none, history := s.history ++ [.result (.raised e)] }

/-- BusError(Timeout, TIMEOUT) (R200, R201). -/
def timeoutError : OpError := .bus { kind := .timeout, code := .timeout }

/-- BusError(Checksum, CHECKSUM) (R200, R204). -/
def checksumError : OpError := .bus { kind := .checksum, code := .checksum }

/-- BusError(Device, mask) (R200, R202). -/
def deviceError (mask : Byte) : OpError := .bus { kind := .device, code := .mask mask }

/-- `c <- if command is a Command then cmdCode(command) else command` (R120). -/
def commandByte (codes : CmdCodes) : CommandArg → Byte
  | .cmd c => codes.code c
  | .raw b => b

/-- `build(dev_id, command, params)` with its two refusals (R120, R123). -/
def buildFrame (codes : CmdCodes) (id : Byte) (c : CommandArg) (ps : List Byte) : Except Refusal (List Byte) :=
  if builderId id then
    if ps.length ≤ maxParams then .ok (frame id (commandByte codes c) ps)
    else .error .buildTooManyParams
  else .error .buildIdOutOfRange

/-- `fill_and_write_packet(id, command, data)` (R141): build the frame, `C.phase <- TX`, one transmit event. -/
def transmit (id : Byte) (c : CommandArg) (ps : List Byte) (s : State) : Result :=
  match buildFrame s.cfg.codes id c ps with
  | .ok f => .next { s with phase := .tx, history := s.history ++ [.tx f] }
  | .error r => .refused r

/-- The start of `read_status_packet` (R142): `C.phase <- RX; reset C.P`. No packet "survives across resets" (R57): one the
host still holds from an earlier receive phase is discarded (log entry 4). -/
def startReceive (s : State) : State := { s with phase := .rx, rxParser := s.rxParser.reset, packet := none }

/-- The reset of the host's own parser (R90), before a new decode attempt. No packet "survives across resets" (R57). -/
def resetParser (s : State) : State := { s with parser := s.parser.reset, packet := none }

/-- How a receive phase ends (R142): a good packet, a checksum mismatch or a timeout. -/
inductive Verdict where
  | good | checksum | timeout
  deriving DecidableEq, Repr

/-- What an operation makes of its status packet: the Packet itself (R142), presence (R150), data (R153), an
acknowledgement (R156, R159), the next step of a scan (R174). -/
inductive Reply where
  | packet | presence | data | ack | scan
  deriving DecidableEq, Repr

/-- Which operations await a status packet, and what for (R142, R150, R153, R156, R159, R174); the others never run a
receive phase (R170, R171, R180 to R183). -/
def replyOf : Instr → Option Reply
  | .wirePing _ => some .presence
  | .wireRead _ _ _ => some .data
  | .wireWrite _ _ _ => some .ack
  | .wireRegWrite _ _ _ => some .ack
  | .wireAction => none
  | .wireReset _ => some .ack
  | .wireSyncWrite _ _ => none
  | .processByte _ => none
  | .devId => none
  | .paramLen => none
  | .paramByte _ => none
  | .params => none
  | .errorCode => none
  | .errorCodeStr => none
  | .build _ _ _ => none
  | .fillAndWritePacket _ _ _ => none
  | .readStatusPacket => some .packet
  | .ping _ => some .presence
  | .read _ _ _ => some .data
  | .write _ _ _ _ => some .ack
  | .reset _ => some .ack
  | .action => none
  | .syncWrite _ _ _ => none
  | .sendPing _ => none
  | .sendRead _ _ _ => none
  | .sendWrite _ _ _ _ => none
  | .sendReset _ => none
  | .scan _ _ => some .scan

/-- The head of scan's loop (R174): ping `C.cur` while it is below `C.end`, else return `C.found`. The ping's transmit
half ends in phase RX with a fresh parser. IDs beyond 253 are refused (R146, R176). -/
def scanNext (s : State) : Result :=
  if s.cur < s.stop then
    if 253 < s.cur then .refused .scanRange
    else andThen (transmit (BitVec.ofNat 8 s.cur) (.cmd .ping) [] s) fun t => .next (startReceive t)
  else complete (.bool s.found) s

/-- scan's ping of `C.cur` returned true (R174): emit found, set `C.found`, go on with the next ID. -/
def scanFound (s : State) : Result :=
  scanNext { s with
    phase := .idle
    found := true
    cur := s.cur + 1
    history := s.history ++ [.found (BitVec.ofNat 8 s.cur)] }

/-- scan's ping of `C.cur` returned false (R174): emit missing, go on with the next ID. -/
def scanMissing (s : State) : Result :=
  scanNext { s with
    phase := .idle
    cur := s.cur + 1
    history := s.history ++ [.missing (BitVec.ofNat 8 s.cur)] }

/-- The operation's end after a packet that passed its checksum, `p` being the registers of `C.P` in DONE. `read_status_packet`
alone does not check the mask (R142) and gives the Packet to the host (log entry 4); every command raises Device on a
non-zero mask (R143) and else returns as its own rule says. -/
def settleGood (k : Reply) (p : Parser) (s : State) : Result :=
  match k with
  | .packet => complete (.packet p.packet) { s with packet := some p.packet }
  | .presence =>
    if isDeviceError p.err then raiseError (deviceError p.err) s else complete (.bool true) s
  | .data =>
    if isDeviceError p.err then raiseError (deviceError p.err) s else complete (.bytes p.buf) s
  | .ack =>
    if isDeviceError p.err then raiseError (deviceError p.err) s else complete .unit s
  | .scan =>
    if isDeviceError p.err then raiseError (deviceError p.err) s else scanFound s

/-- The operation's end after a timeout: `ping` returns false (R150), `scan` goes on (R174), every other operation
raises Timeout (R201). -/
def settleTimeout (k : Reply) (s : State) : Result :=
  match k with
  | .packet => raiseError timeoutError s
  | .presence => complete (.bool false) s
  | .data => raiseError timeoutError s
  | .ack => raiseError timeoutError s
  | .scan => scanMissing s

/-- What the end of a receive phase makes of the operation, `p` being what `C.P` held: Checksum raises in every operation
(R204). -/
def settle (k : Reply) (v : Verdict) (p : Parser) (s : State) : Result :=
  match v with
  | .good => settleGood k p s
  | .checksum => raiseError checksumError s
  | .timeout => settleTimeout k s

/-- The end of a receive phase of the operation held in `C.op`. `C.P` is discarded, whatever the end was (R90, R142, R206): no
register of it is carried over to a later operation (R230). -/
def endReceive (v : Verdict) (s : State) : Result :=
  match s.op with
  | none => .fault .controllerStuck
  | some i =>
    match replyOf i with
    | none => .fault .controllerStuck
    | some k => settle k v s.rxParser { s with rxParser := s.rxParser.reset }

/-- One receive event (R142): the Transport's answer to one `read_byte`, fed to `C.P`; the loop goes on at
NOT_DONE. -/
def receive (a : RxAnswer) (s : State) : Result :=
  match a with
  | .timeout => endReceive .timeout (s.record (.rx .timeout))
  | .byte b =>
    match processByte s.cfg.shortLen s.rxParser b with
    | none => .refused .processByteTerminal
    | some (p, .notDone) => .next { s.record (.rx (.byte b)) with rxParser := p }
    | some (p, .none) => endReceive .good { s.record (.rx (.byte b)) with rxParser := p }
    | some (p, .checksum) => endReceive .checksum { s.record (.rx (.byte b)) with rxParser := p }

/-- Receive events on a queue of answers, until the operation ends or the queue is empty; answers left over stay with
the Transport (R184). -/
def drainQueue : List RxAnswer → State → Result
  | [], s => .next { s with rx := [] }
  | a :: q, s => if s.op = none then .next { s with rx := a :: q } else andThen (receive a s) (drainQueue q)

/-- The receive loop on the answers the Transport has queued (R142, R210). An operation they do not end stays in phase RX,
held in `C.op` (R232). -/
def drain (s : State) : Result := drainQueue s.rx s

/-- The transmit half and the receive half of a synchronous command (R50, R142). -/
def exchange (id : Byte) (c : CommandArg) (ps : List Byte) (s : State) : Result :=
  andThen (transmit id c ps s) fun t => drain (startReceive t)

/-- The transmit half alone (R74, R170, R180): it returns with no receive event. -/
def sendOnly (id : Byte) (c : CommandArg) (ps : List Byte) (s : State) : Result :=
  andThen (transmit id c ps s) fun t => complete .unit t

/-- A command that is answered unless it is broadcast (R146, R156, R159). -/
def exchangeUnlessBroadcast (id : Byte) (c : CommandArg) (ps : List Byte) (s : State) : Result :=
  if id = broadcastId then sendOnly id c ps s else exchange id c ps s

/-- The next step of an operation that is running (R32, R142): the receive loop on the queued answers, or one receive
event whose answer is a free value when none is queued (R10; log entry 3). -/
def resume (s : State) : Result :=
  if s.phase = .rx then
    match s.rx with
    | [] => receive (Config.freeAnswer s.draws) { s with draws := s.draws + 1 }
    | _ :: _ => drain s
  else .fault .controllerStuck

/-- The decoded packet an accessor reads: the one `read_status_packet` gave to the host (Program 5 of 95_test_vectors.md; log
entry 4), else the host parser's registers in DONE (R24, R106). -/
def State.readable (s : State) : Option Packet :=
  match s.packet with
  | some k => some k
  | none => if s.parser.state = .done then some s.parser.packet else none

/-- A Packet accessor: valid only after DONE (R106), it writes no register. -/
def accessor (s : State) (v : Packet → State → Result) : Result :=
  match s.readable with
  | some k => v k s
  | none => .refused .accessorNotDone

/-- `sync_write(ids, offset, values)` (R171): the pre-flight check first, then the refusal of no devices (R173), then one
broadcast frame and no receive phase. -/
def syncWriteBody (ids : List Byte) (offset : Byte) (values : List (List Byte)) (s : State) : Result :=
  if lengthsAgree ids values then
    if ids = [] then .refused .syncWriteNoDevices
    else sendOnly broadcastId (.cmd .syncWrite) (syncParams ids offset values) s
  else raiseError .validation s

/-- `ping(id)` (R150): 254 is refused before any transmit event. -/
def pingBody (id : Byte) (s : State) : Result :=
  if id = broadcastId then .refused .pingToBroadcast else exchange id (.cmd .ping) [] s

/-- `read(id, offset, length)` (R153): 254 is refused before any transmit event. -/
def readBody (id offset length : Byte) (s : State) : Result :=
  if id = broadcastId then .refused .readFromBroadcast
  else exchange id (.cmd .read) (readParams offset length) s

/-- `write(id, offset, data, deferred)` (R156); the deferred form waits for its status packet too (90_conflicts.md C1). -/
def writeBody (id offset : Byte) (data : List Byte) (deferred : Bool) (s : State) : Result :=
  exchangeUnlessBroadcast id (.cmd (writeCommand deferred)) (writeParams offset data) s

/-- `reset(id)` (R159). -/
def resetBody (id : Byte) (s : State) : Result := exchangeUnlessBroadcast id (.cmd .reset) [] s

/-- `scan(start_id, num_ids)` (R174): a range that leaves 0..253 is refused before any transmit event (R176). -/
def scanBody (startId numIds : Nat) (s : State) : Result :=
  if 254 < startId + numIds then .refused .scanRange
  else andThen (scanNext { s with cur := startId, stop := startId + numIds, found := false }) drain

end Sys2Proof.Machine
end

