-- ==== Sys2Proof/Machine/BroadcastOps.lean ====
section
/-! DEFINITION. Machine/BroadcastOps.lean: the meanings of the broadcast and fire-and-forget operations and of `scan`
(spec/43_bus_broadcast_scan.md R170 to R185). -/

namespace Sys2Proof.Machine

open Sys2Proof

/-- `action()` (R170). -/
def execAction (s : State) : Result :=
  issue .action s fun t => sendOnly broadcastId (.cmd .action) [] t

/-- `sync_write(ids, offset, values)` (R171). -/
def execSyncWrite (ids : List Byte) (offset : Byte) (values : List (List Byte)) (s : State) : Result :=
  issue (.syncWrite ids offset values) s fun t => syncWriteBody ids offset values t

/-- `send_ping(id)` (R180). -/
def execSendPing (id : Byte) (s : State) : Result :=
  issue (.sendPing id) s fun t => sendOnly id (.cmd .ping) [] t

/-- `send_read(id, offset, length)` (R181). -/
def execSendRead (id offset length : Byte) (s : State) : Result :=
  issue (.sendRead id offset length) s fun t => sendOnly id (.cmd .read) (readParams offset length) t

/-- `send_write(id, offset, data, deferred)` (R182). -/
def execSendWrite (id offset : Byte) (data : List Byte) (deferred : Bool) (s : State) : Result :=
  issue (.sendWrite id offset data deferred) s fun t =>
    sendOnly id (.cmd (writeCommand deferred)) (writeParams offset data) t

/-- `send_reset(id)` (R183). -/
def execSendReset (id : Byte) (s : State) : Result :=
  issue (.sendReset id) s fun t => sendOnly id (.cmd .reset) [] t

/-- `scan(start_id, num_ids, on_found, on_missing)` (R174); the callbacks are events (R175). -/
def execScan (startId numIds : Nat) (s : State) : Result :=
  issue (.scan startId numIds) s fun t => scanBody startId numIds t

end Sys2Proof.Machine
end

