-- ==== Sys2Proof/Machine/BuilderOps.lean ====
section
/-! DEFINITION. Machine/BuilderOps.lean: the meaning of `build` (spec/41_builder.md R120, R123). -/

namespace Sys2Proof.Machine

open Sys2Proof

/-- `build(dev_id, command, params)` (R120): returns the frame; no I/O and no register of its own (R37). -/
def execBuild (id : Byte) (c : CommandArg) (ps : List Byte) (s : State) : Result :=
  issue (.build id c ps) s fun t =>
    match buildFrame t.cfg.codes id c ps with
    | .ok f => complete (.frame f) t
    | .error r => .refused r

end Sys2Proof.Machine
end

