-- ==== Sys2Proof/Machine/BusOps.lean ====
section
/-! DEFINITION. Machine/BusOps.lean: the meanings of the controller's primitives and synchronous commands
(spec/42_bus_primitives.md R141 to R159). -/

namespace Sys2Proof.Machine

open Sys2Proof

/-- `fill_and_write_packet(id, command, data)` (R141). -/
def execFillAndWritePacket (id : Byte) (c : CommandArg) (data : List Byte) (s : State) : Result :=
  issue (.fillAndWritePacket id c data) s fun t => sendOnly id c data t

/-- `read_status_packet()` (R142), called alone: no transmit event, and the mask is not checked. -/
def execReadStatusPacket (s : State) : Result :=
  issue .readStatusPacket s fun t => drain (startReceive t)

/-- `ping(id)` (R150). -/
def execPing (id : Byte) (s : State) : Result :=
  issue (.ping id) s fun t => pingBody id t

/-- `read(id, offset, length)` (R153). -/
def execRead (id offset length : Byte) (s : State) : Result :=
  issue (.read id offset length) s fun t => readBody id offset length t

/-- `write(id, offset, data, deferred)` (R156). -/
def execWrite (id offset : Byte) (data : List Byte) (deferred : Bool) (s : State) : Result :=
  issue (.write id offset data deferred) s fun t => writeBody id offset data deferred t

/-- `reset(id)` (R159). -/
def execReset (id : Byte) (s : State) : Result :=
  issue (.reset id) s fun t => resetBody id t

end Sys2Proof.Machine
end

