-- ==== Sys2Proof/Machine/ParserOps.lean ====
section
/-! DEFINITION. Machine/ParserOps.lean: the meanings of `process_byte` and of the Packet accessors
(spec/40_parser.md R91, R106 to R113). -/

namespace Sys2Proof.Machine

open Sys2Proof

/-- `process_byte(b)` (R91): one byte to the host's parser `P`; refused in DONE or FAILED (R99). It never raises. The accessors
read `P` from then on (log entry 4). -/
def execProcessByte (b : Byte) (s : State) : Result :=
  issue (.processByte b) s fun t =>
    match processByte t.cfg.shortLen t.parser b with
    | none => .refused .processByteTerminal
    | some (p, r) => complete (.parse r) { t with parser := p, packet := none }

/-- `dev_id()`: `return P.id`, the packet's ID (R107). -/
def execDevId (s : State) : Result :=
  issue .devId s fun t => accessor t fun k t => complete (.byte k.id) t

/-- `param_len()`: `return len(P.buf)` (R108, R25). -/
def execParamLen (s : State) : Result :=
  issue .paramLen s fun t => accessor t fun k t => complete (.count k.params.length) t

/-- `param_byte(i)` (R109): refused out of range. -/
def execParamByte (i : Nat) (s : State) : Result :=
  issue (.paramByte i) s fun t => accessor t fun k t =>
    match k.params[i]? with
    | some b => complete (.byte b) t
    | none => .refused .paramByteRange

/-- `params()`: `return copy(P.buf)` (R110). -/
def execParams (s : State) : Result :=
  issue .params s fun t => accessor t fun k t => complete (.bytes k.params) t

/-- `error_code()`: `return P.err` (R111). -/
def execErrorCode (s : State) : Result :=
  issue .errorCode s fun t => accessor t fun k t => complete (.byte k.error) t

/-- `error_code_str()` (R113). -/
def execErrorCodeStr (s : State) : Result :=
  issue .errorCodeStr s fun t => accessor t fun k t => complete (.text (errorText t.cfg.bits k.error)) t

end Sys2Proof.Machine
end

