-- ==== Sys2Proof/Machine/WireOps.lean ====
section
/-! DEFINITION. Machine/WireOps.lean: the meanings of the seven wire instructions (spec/30_encoding.md R64, R67). A wire
instruction is the bus command whose rule the opcode table cites for it: the whole strictly ordered sequence of R50,
transmitting the instruction's frame and reading its status packet where one is awaited. DEDUCED; log entry 7. -/

namespace Sys2Proof.Machine

open Sys2Proof

/-- PING (R64, R67): the exchange of R150. -/
def execWirePing (id : Byte) (s : State) : Result :=
  issue (.wirePing id) s fun t => pingBody id t

/-- READ (R64, R67): the exchange of R153. -/
def execWireRead (id offset length : Byte) (s : State) : Result :=
  issue (.wireRead id offset length) s fun t => readBody id offset length t

/-- WRITE (R64, R67): the exchange of R156, not deferred. -/
def execWireWrite (id offset : Byte) (data : List Byte) (s : State) : Result :=
  issue (.wireWrite id offset data) s fun t => writeBody id offset data false t

/-- REG_WRITE (R64, R67): the exchange of R156, deferred. -/
def execWireRegWrite (id offset : Byte) (data : List Byte) (s : State) : Result :=
  issue (.wireRegWrite id offset data) s fun t => writeBody id offset data true t

/-- ACTION (R64, R67): the broadcast of R170. -/
def execWireAction (s : State) : Result :=
  issue .wireAction s fun t => sendOnly broadcastId (.cmd .action) [] t

/-- RESET (R64, R67): the exchange of R159. -/
def execWireReset (id : Byte) (s : State) : Result :=
  issue (.wireReset id) s fun t => resetBody id t

/-- SYNC_WRITE (R64, R67): the broadcast of R171 with one value list per block. -/
def execWireSyncWrite (offset : Byte) (blocks : List DeviceBlock) (s : State) : Result :=
  issue (.wireSyncWrite offset blocks) s fun t =>
    syncWriteBody (blocks.map (·.id)) offset (blocks.map (·.values)) t

end Sys2Proof.Machine
end

