-- ==== Sys2Proof/Machine/Dispatch.lean ====
section
/-! DEFINITION. Machine/Dispatch.lean: which meaning each instruction has. -/

namespace Sys2Proof.Machine

open Sys2Proof

def exec (i : Instr) (s : State) : Host.Outcome State Fault Refusal :=
  match i with
  | .wirePing id => Sys2Proof.Machine.execWirePing id s
  | .wireRead id offset length => Sys2Proof.Machine.execWireRead id offset length s
  | .wireWrite id offset data => Sys2Proof.Machine.execWireWrite id offset data s
  | .wireRegWrite id offset data => Sys2Proof.Machine.execWireRegWrite id offset data s
  | .wireAction => Sys2Proof.Machine.execWireAction s
  | .wireReset id => Sys2Proof.Machine.execWireReset id s
  | .wireSyncWrite offset blocks => Sys2Proof.Machine.execWireSyncWrite offset blocks s
  | .processByte b => Sys2Proof.Machine.execProcessByte b s
  | .devId => Sys2Proof.Machine.execDevId s
  | .paramLen => Sys2Proof.Machine.execParamLen s
  | .paramByte k => Sys2Proof.Machine.execParamByte k s
  | .params => Sys2Proof.Machine.execParams s
  | .errorCode => Sys2Proof.Machine.execErrorCode s
  | .errorCodeStr => Sys2Proof.Machine.execErrorCodeStr s
  | .build id command ps => Sys2Proof.Machine.execBuild id command ps s
  | .fillAndWritePacket id command data => Sys2Proof.Machine.execFillAndWritePacket id command data s
  | .readStatusPacket => Sys2Proof.Machine.execReadStatusPacket s
  | .ping id => Sys2Proof.Machine.execPing id s
  | .read id offset length => Sys2Proof.Machine.execRead id offset length s
  | .write id offset data deferred => Sys2Proof.Machine.execWrite id offset data deferred s
  | .reset id => Sys2Proof.Machine.execReset id s
  | .action => Sys2Proof.Machine.execAction s
  | .syncWrite ids offset values => Sys2Proof.Machine.execSyncWrite ids offset values s
  | .sendPing id => Sys2Proof.Machine.execSendPing id s
  | .sendRead id offset length => Sys2Proof.Machine.execSendRead id offset length s
  | .sendWrite id offset data deferred => Sys2Proof.Machine.execSendWrite id offset data deferred s
  | .sendReset id => Sys2Proof.Machine.execSendReset id s
  | .scan startId numIds => Sys2Proof.Machine.execScan startId numIds s

end Sys2Proof.Machine
end

