-- ==== Sys2Proof/Machine/Fetch.lean ====
section
/-! DEFINITION. Machine/Fetch.lean: taking the host's next operation. The block fetches no instructions from memory: "the
'program' of a run is the host's sequence of operations" (spec/20_memory.md R55). -/

namespace Sys2Proof.Machine

open Sys2Proof

/-- The state whose next step issues this frame: the controller idle, the frame the host's next request, and the
instruction codes the ones that number the opcode table. -/
def placeFrame (bytes : List Byte) (s : State) : State :=
  { s with
    cfg := { s.cfg with codes := CmdCodes.default }
    phase := .idle
    op := none
    program := .frame bytes :: s.program }

end Sys2Proof.Machine
end

