-- ==== Sys2Proof/Machine/Step.lean ====
section
/-! DEFINITION. Machine/Step.lean: one step of the block. An idle block waits for the host's next operation and issues it
(spec/70_reset_and_hazards.md R231); a running operation goes on (spec/10_state.md R32). -/

namespace Sys2Proof.Machine

open Sys2Proof

/-- One step: the running operation's next receive events, or the host's next request: a call, a frame under the block's own
`cmdCode`, a fresh parser; or, with none, waiting (R231). -/
def step (s : State) : Host.Outcome State Fault Refusal :=
  match s.op with
  | some _ => resume s
  | none =>
    if s.phase = .idle then
      match s.program with
      | [] => .next s
      | .call i :: rest => exec i { s with program := rest }
      | .frame bytes :: rest =>
        match decodeWhole s.cfg bytes with
        | .ok i => exec i { s with program := rest }
        | .error e => .refused (.undecodable e)
      | .newParser :: rest => .next (resetParser { s with program := rest })
    else .fault .controllerStuck

/-- The state `s` with a table word's instruction as the host's next request (log entry 6). -/
def State.withFetchWord (s : State) (nbits w : Nat) : State := placeFrame (tableBytes nbits w) s

end Sys2Proof.Machine
end

