-- ==== Sys2Proof/Safety.lean ====
section
/-! DEFINITION. Safety.lean: what a good state and a safe run are, and the vocabulary in which the statements of
Certificates/ are written. -/

namespace Sys2Proof.Machine

open Sys2Proof

/-! ### The invariant -/

/-- The parser registers fit their state (R20 to R23): an empty buffer before the parameters, a proper part of the
`P.len − 2` parameters in WAIT_PARAM (none under the policy `absorb`), all of them from WAIT_CHECKSUM on, and in DONE a
checksum register that equals the expected value (R112). -/
def Parser.ok (p : Parser) : Bool :=
  match p.state with
  | .waitStart1 => p.buf.isEmpty
  | .waitStart2 => p.buf.isEmpty
  | .waitId => p.buf.isEmpty
  | .waitLength => p.buf.isEmpty
  | .waitError => p.buf.isEmpty
  | .waitParam => if 3 ≤ p.len.toNat then decide (p.buf.length < p.len.toNat - 2) else decide (p.len.toNat < 2) && p.buf.isEmpty
  | .waitChecksum => decide (p.buf.length = p.len.toNat - 2)
  | .done => decide (p.buf.length = p.len.toNat - 2) && p.chk == checksum p.id p.len p.err p.buf
  | .failed => decide (p.buf.length = p.len.toNat - 2)

/-- The parser holds nothing of a frame: it waits for a first header byte with an empty buffer (R35, R90). -/
def Parser.fresh (p : Parser) : Bool := p.state == .waitStart1 && p.buf.isEmpty

/-- A Packet as R24 has it: the length byte counts the parameters (none for a short one, R95), and the checksum is the expected
value. -/
def Packet.ok (k : Packet) : Bool :=
  decide (k.params.length = k.length.toNat - 2) && k.checksum == Sys2Proof.checksum k.id k.length k.error k.params

/-- The controller registers fit together (R29, R140). Idle: no operation is held, and `C.P` holds nothing of an earlier
operation (R230). Running: an operation that awaits a status packet is held, in phase RX, `C.P` has not ended, and the host
holds no Packet (R57); a running scan pings an ID below its end, and its end is at most 254 (R174, R176). -/
def State.controllerOk (s : State) : Bool :=
  match s.op with
  | none => s.phase == .idle && s.rxParser.fresh
  | some i =>
    s.phase == .rx && !s.rxParser.terminal && s.packet.isNone && (replyOf i).isSome &&
      (replyOf i != some .scan || (decide (s.cur < s.stop) && decide (s.stop ≤ 254)))

/-- The invariant every step keeps: lawful parameters (R65, R70), parser registers that fit their states, a Packet that is one,
a controller that fits together. -/
def State.inv (s : State) : Bool :=
  decide s.cfg.Lawful && s.parser.ok && s.rxParser.ok && s.packet.all Packet.ok && s.controllerOk

/-- A byte sequence that, read by R60 and R61, is exactly one frame with a matching checksum, for an ID of 0..254 (R123). -/
def wholeFrame (f : List Byte) : Bool :=
  match splitFrame f with
  | .ok (r, []) => builderId r.id
  | _ => false

/-- Every transmit event of the history carries one whole frame (R48, R60). -/
def State.sentOk (s : State) : Bool :=
  s.history.all fun e =>
    match e with
    | .tx f => wholeFrame f
    | .rx _ => true
    | .found _ => true
    | .missing _ => true
    | .result _ => true

/-- A run of n steps is safe when it meets no fault and no refusal. -/
def SafeRun (n : Nat) (s : State) : Prop := ∃ t, Host.Core.run Sys2Proof.core n s = .next t

/-! ### The vocabulary of the statements -/

/-- Answers that are all bytes. -/
def answerBytes (l : List Byte) : List RxAnswer := l.map .byte

/-- The receive events of these answers. -/
def received (l : List RxAnswer) : List Event := l.map .rx

/-- The Packet that a result gives to the host. -/
def OpResult.packet : OpResult → Option Packet
  | .returned (.packet k) => some k
  | .returned _ => none
  | .raised _ => none

/-- The state in which an operation issued in the idle state `s` has ended its receive phase: its events and its result are in
the history, `C.P`, which held `p`, is discarded, the host holds the Packet the result gives it, if any, and the answers `q`
are left. Everything else, the host's own parser among it, is as in `s`. -/
def State.ended (s : State) (evs : List Event) (r : OpResult) (p : Parser) (q : List RxAnswer) : State :=
  { s with rxParser := p.reset, packet := r.packet, rx := q, history := s.history ++ evs ++ [.result r] }

/-- The state in which the operation `i` issued in the idle state `s` is still running: phase RX, `C.op` holding it, `C.P`
holding `p`, its events in the history, no Packet with the host and no answer left in the queue. -/
def State.waiting (s : State) (i : Instr) (evs : List Event) (p : Parser) : State :=
  { s with phase := .rx, op := some i, rxParser := p, packet := none, rx := [], history := s.history ++ evs }

/-- What the operation `i`, issued in `s`, makes of EVERY stream of answers after its transmit events `sent`. The bytes `l`
are what `read_byte` answers before the receive phase ends. If `C.P` ends on them in DONE with registers `p`, the operation
ends with `good p`. If it ends in FAILED, the operation raises Checksum. If TIMEOUT follows bytes that end nothing, the
operation ends with `late`. If nothing follows them, it is still running. -/
def AnswersGive (i : Instr) (s : State) (sent : List Event) (good : Parser → OpResult) (late : OpResult) : Prop :=
  (∀ l p q, feed s.cfg.shortLen s.rxParser.reset l = some (p, .none, []) → s.rx = answerBytes l ++ q →
    exec i s = .next (s.ended (sent ++ received (answerBytes l)) (good p) p q)) ∧
  (∀ l p q, feed s.cfg.shortLen s.rxParser.reset l = some (p, .checksum, []) → s.rx = answerBytes l ++ q →
    exec i s = .next (s.ended (sent ++ received (answerBytes l)) (.raised checksumError) p q)) ∧
  (∀ l p q, feed s.cfg.shortLen s.rxParser.reset l = some (p, .notDone, []) → s.rx = answerBytes l ++ .timeout :: q →
    exec i s = .next (s.ended (sent ++ received (answerBytes l ++ [.timeout])) late p q)) ∧
  (∀ l p, feed s.cfg.shortLen s.rxParser.reset l = some (p, .notDone, []) → s.rx = answerBytes l →
    exec i s = .next (s.waiting i (sent ++ received (answerBytes l)) p))

/-- The verdict of a command on a good packet (R143): Device on a non-zero mask, else the command's value. -/
def checkStatus (p : Parser) (v : Value) : OpResult :=
  if p.err = 0#8 then .returned v else .raised (deviceError p.err)

/-- A run of bytes that contains no two consecutive 0xFF: the words of R101. -/
def noise : List Byte → Bool
  | [] => true
  | [_] => true
  | a :: b :: l => !(a == hdr && b == hdr) && noise (b :: l)

/-- A reply to one ping of a scan after which the scan goes on (R174): bytes on which the parser ends in DONE with mask 0, or
bytes that end nothing (perhaps none at all), then TIMEOUT. -/
inductive PingReply where
  | status (l : List Byte)
  | cut (l : List Byte)
  deriving DecidableEq, Repr

/-- The reply's answers to `read_byte`. -/
def PingReply.answers : PingReply → List RxAnswer
  | .status l => answerBytes l
  | .cut l => answerBytes l ++ [.timeout]

/-- The reply makes `ping` return true. -/
def PingReply.present : PingReply → Bool
  | .status _ => true
  | .cut _ => false

/-- The bytes do to a fresh parser what the reply says of them. -/
def PingReply.lawful (pol : ShortLenPolicy) : PingReply → Bool
  | .status l =>
    match feed pol Parser.initial l with
    | some (p, .none, []) => p.err == 0#8
    | _ => false
  | .cut l =>
    match feed pol Parser.initial l with
    | some (_, .notDone, []) => true
    | _ => false

/-- The events of a scan from ID `cur` on, given its replies, in the order of R174 and R177. -/
def scanEvents (codes : CmdCodes) : Nat → List PingReply → List Event
  | _, [] => []
  | cur, r :: rs =>
    .tx (frame (BitVec.ofNat 8 cur) codes.ping []) :: received r.answers ++
      (if r.present then .found (BitVec.ofNat 8 cur) else .missing (BitVec.ofNat 8 cur)) :: scanEvents codes (cur + 1) rs

/-- The instructions that act on the parser registers from outside a receive phase: `process_byte` and the accessors. -/
def onParser : Instr → Bool
  | .wirePing _ => false
  | .wireRead _ _ _ => false
  | .wireWrite _ _ _ => false
  | .wireRegWrite _ _ _ => false
  | .wireAction => false
  | .wireReset _ => false
  | .wireSyncWrite _ _ => false
  | .processByte _ => true
  | .devId => true
  | .paramLen => true
  | .paramByte _ => true
  | .params => true
  | .errorCode => true
  | .errorCodeStr => true
  | .build _ _ _ => false
  | .fillAndWritePacket _ _ _ => false
  | .readStatusPacket => false
  | .ping _ => false
  | .read _ _ _ => false
  | .write _ _ _ _ => false
  | .reset _ => false
  | .action => false
  | .syncWrite _ _ _ => false
  | .sendPing _ => false
  | .sendRead _ _ _ => false
  | .sendWrite _ _ _ _ => false
  | .sendReset _ => false
  | .scan _ _ => false

/-- The rows of format `instruction_frame`. -/
def isWire : Instr → Bool
  | .wirePing _ => true
  | .wireRead _ _ _ => true
  | .wireWrite _ _ _ => true
  | .wireRegWrite _ _ _ => true
  | .wireAction => true
  | .wireReset _ => true
  | .wireSyncWrite _ _ => true
  | .processByte _ => false
  | .devId => false
  | .paramLen => false
  | .paramByte _ => false
  | .params => false
  | .errorCode => false
  | .errorCodeStr => false
  | .build _ _ _ => false
  | .fillAndWritePacket _ _ _ => false
  | .readStatusPacket => false
  | .ping _ => false
  | .read _ _ _ => false
  | .write _ _ _ _ => false
  | .reset _ => false
  | .action => false
  | .syncWrite _ _ _ => false
  | .sendPing _ => false
  | .sendRead _ _ _ => false
  | .sendWrite _ _ _ _ => false
  | .sendReset _ => false
  | .scan _ _ => false

/-- The errors a receive phase can end in (R200). -/
def isTimeout : OpError → Bool
  | .bus e => decide (e = { kind := .timeout, code := .timeout })
  | .validation => false

/-- BusError(Checksum, CHECKSUM) (R204). -/
def isChecksum : OpError → Bool
  | .bus e => decide (e = { kind := .checksum, code := .checksum })
  | .validation => false

/-- BusError(Device, mask) with a non-zero mask (R202). -/
def isDevice : OpError → Bool
  | .bus { kind := .device, code := .mask m } => m != 0#8
  | _ => false

/-- The kinds of values an operation may return (the column "result" of R73). -/
inductive ValueKind where
  | unit | parse | byte | count | bytes | text | frame | packet | bool
  deriving DecidableEq, Repr

/-- The kind of a value. -/
def kindOf : Value → ValueKind
  | .unit => .unit
  | .parse _ => .parse
  | .byte _ => .byte
  | .count _ => .count
  | .bytes _ => .bytes
  | .text _ => .text
  | .frame _ => .frame
  | .packet _ => .packet
  | .bool _ => .bool

/-- What each operation returns (R73, R205). The wire instructions have the rows of their operations (log entry 7). -/
def returnKind : Instr → ValueKind
  | .wirePing _ => .bool
  | .wireRead _ _ _ => .bytes
  | .wireWrite _ _ _ => .unit
  | .wireRegWrite _ _ _ => .unit
  | .wireAction => .unit
  | .wireReset _ => .unit
  | .wireSyncWrite _ _ => .unit
  | .processByte _ => .parse
  | .devId => .byte
  | .paramLen => .count
  | .paramByte _ => .byte
  | .params => .bytes
  | .errorCode => .byte
  | .errorCodeStr => .text
  | .build _ _ _ => .frame
  | .fillAndWritePacket _ _ _ => .unit
  | .readStatusPacket => .packet
  | .ping _ => .bool
  | .read _ _ _ => .bytes
  | .write _ _ _ _ => .unit
  | .reset _ => .unit
  | .action => .unit
  | .syncWrite _ _ _ => .unit
  | .sendPing _ => .unit
  | .sendRead _ _ _ => .unit
  | .sendWrite _ _ _ _ => .unit
  | .sendReset _ => .unit
  | .scan _ _ => .bool

/-- What each operation may raise (R205). -/
def mayRaise (e : OpError) : Instr → Bool
  | .wirePing _ => isChecksum e || isDevice e
  | .wireRead _ _ _ => isTimeout e || isChecksum e || isDevice e
  | .wireWrite id _ _ => id != broadcastId && (isTimeout e || isChecksum e || isDevice e)
  | .wireRegWrite id _ _ => id != broadcastId && (isTimeout e || isChecksum e || isDevice e)
  | .wireAction => false
  | .wireReset id => id != broadcastId && (isTimeout e || isChecksum e || isDevice e)
  | .wireSyncWrite _ _ => decide (e = .validation)
  | .processByte _ => false
  | .devId => false
  | .paramLen => false
  | .paramByte _ => false
  | .params => false
  | .errorCode => false
  | .errorCodeStr => false
  | .build _ _ _ => false
  | .fillAndWritePacket _ _ _ => false
  | .readStatusPacket => isTimeout e || isChecksum e
  | .ping _ => isChecksum e || isDevice e
  | .read _ _ _ => isTimeout e || isChecksum e || isDevice e
  | .write id _ _ _ => id != broadcastId && (isTimeout e || isChecksum e || isDevice e)
  | .reset id => id != broadcastId && (isTimeout e || isChecksum e || isDevice e)
  | .action => false
  | .syncWrite _ _ _ => decide (e = .validation)
  | .sendPing _ => false
  | .sendRead _ _ _ => false
  | .sendWrite _ _ _ _ => false
  | .sendReset _ => false
  | .scan _ _ => isChecksum e || isDevice e

/-- The table of R205. -/
def allowedResult (i : Instr) : OpResult → Bool
  | .returned v => decide (kindOf v = returnKind i)
  | .raised e => mayRaise e i

/-- Two outcomes that the host and the Transport cannot tell apart, from states `s₁` and `s₂`: the same new events, the same
answers consumed, the same phase and operation; or the same stop. -/
def sameOutcome (s₁ s₂ : State) (o₁ o₂ : Result) : Prop :=
  match o₁, o₂ with
  | .next t₁, .next t₂ =>
    (∃ evs, t₁.history = s₁.history ++ evs ∧ t₂.history = s₂.history ++ evs) ∧
      t₁.rx = t₂.rx ∧ t₁.phase = t₂.phase ∧ t₁.op = t₂.op
  | .fault a, .fault b => a = b
  | .refused a, .refused b => a = b
  | _, _ => False

end Sys2Proof.Machine
end

