-- ==== Sys2Proof/Certificates/Slice0/Obligations.lean ====
section
/-! DEFINITION. Certificates/Slice0/Obligations.lean: the statements about this model that the provers are asked for. Rule
numbers R<n> and decision numbers D<n> are those of spec/. Where a statement rests on a decision the spec marks as its own
(92_eei_decisions.md) or on an entry of the assumption log, its docstring says so. -/

open Sys2Proof Sys2Proof.Machine

/-! ### PacketParser: process_byte, one statement per state (each is also the completion of `process_byte` there) -/

/-- A Packet the host still holds from `read_status_packet` plays no part in `process_byte` and is discarded by it: the byte gives
what it gives with none held. The model's own, log entry 4 (DEDUCED). -/
def Obligations.ProcessByteDiscardsAReturnedPacket : Prop :=
  ∀ (s : State) (b : Byte),
    exec (.processByte b) s = exec (.processByte b) { s with packet := none } ∧
      ∀ t, exec (.processByte b) s = .next t → t.packet = none

/-- R92, the WAIT_START1 arm: 0xFF goes on to WAIT_START2, any other byte is discarded; only `P.state` is written. -/
def Obligations.FirstHeaderByteIsHunted : Prop :=
  ∀ (s : State) (b : Byte), s.Idle → s.packet = none → s.parser.state = .waitStart1 →
    exec (.processByte b) s = .next { s with
      parser := { s.parser with state := if b = 0xFF#8 then .waitStart2 else .waitStart1 }
      history := s.history ++ [.result (.returned (.parse .notDone))] }

/-- R93, the WAIT_START2 arm, and its corner case `FF 00 FF FF`. -/
def Obligations.SecondHeaderByteOrHuntAgain : Prop :=
  (∀ (s : State) (b : Byte), s.Idle → s.packet = none → s.parser.state = .waitStart2 →
    exec (.processByte b) s = .next { s with
      parser := { s.parser with state := if b = 0xFF#8 then .waitId else .waitStart1 }
      history := s.history ++ [.result (.returned (.parse .notDone))] }) ∧
  (∀ (pol : ShortLenPolicy) (p : Parser), p.state = .waitStart1 →
    feed pol p [0xFF#8, 0x00#8, 0xFF#8, 0xFF#8] = some ({ p with state := .waitId }, .notDone, []))

/-- R94, the WAIT_ID arm: every byte is an ID, a third 0xFF too (`FF FF FF 02 00 FE` parses as ID 0xFF). -/
def Obligations.EveryByteIsAnId : Prop :=
  (∀ (s : State) (b : Byte), s.Idle → s.packet = none → s.parser.state = .waitId →
    exec (.processByte b) s = .next { s with
      parser := { s.parser with id := b, state := .waitLength }
      history := s.history ++ [.result (.returned (.parse .notDone))] }) ∧
  (∀ (pol : ShortLenPolicy) (p : Parser), ∃ q,
    feed pol p.reset [0xFF#8, 0xFF#8, 0xFF#8, 0x02#8, 0x00#8, 0xFE#8] = some (q, .none, []) ∧
      q.state = .done ∧ q.id = 0xFF#8)

/-- R95 and R96, the WAIT_LENGTH and WAIT_ERROR arms. The three outcomes of a length byte below 2 are the spec's own
parameter `shortLenPolicy` (D5); the statement holds for all three. (`packet := none`, here and in the next statement: log
entry 4.) -/
def Obligations.LengthByteDecidesWhatFollows : Prop :=
  (∀ (s : State) (b : Byte), s.Idle → s.parser.state = .waitLength →
    exec (.processByte b) s = .next { s with
      parser := { s.parser with len := b, state := .waitError }
      packet := none
      history := s.history ++ [.result (.returned (.parse .notDone))] }) ∧
  (∀ (s : State) (b : Byte), s.Idle → s.parser.state = .waitError → 2 ≤ s.parser.len.toNat →
    exec (.processByte b) s = .next { s with
      parser := { s.parser with
        err := b, buf := [], state := if s.parser.len.toNat = 2 then .waitChecksum else .waitParam }
      packet := none
      history := s.history ++ [.result (.returned (.parse .notDone))] }) ∧
  (∀ (s : State) (b : Byte), s.Idle → s.parser.state = .waitError → s.parser.len.toNat < 2 →
    exec (.processByte b) s = .next { s with
      parser := { s.parser with
        err := b, buf := [], state :=
          match s.cfg.shortLen with
          | .zeroParams => .waitChecksum
          | .fail => .failed
          | .absorb => .waitParam }
      packet := none
      history := s.history ++ [.result (.returned (.parse
        (match s.cfg.shortLen with
          | .zeroParams => .notDone
          | .fail => .checksum
          | .absorb => .notDone)))] })

/-- The WAIT_PARAM arm (40_parser.md section 2): exactly `N − 2` bytes are accumulated in order. That with a length byte below 2
every byte is discarded, for ever, is the spec's decision D5 for the policy `absorb`; the statement says it of every policy
(log entry 17, DEDUCED). That the registers keep fitting the state, the buffer at most 253 bytes, is the spec's own inference
(10_state.md section 1), with the model's predicate `Parser.ok`. -/
def Obligations.ParametersAreAccumulatedInOrder : Prop :=
  (∀ (s : State) (b : Byte), s.Idle → s.parser.state = .waitParam → 3 ≤ s.parser.len.toNat →
    exec (.processByte b) s = .next { s with
      parser := { s.parser with
        buf := s.parser.buf ++ [b]
        state := if s.parser.buf.length + 1 = s.parser.len.toNat - 2 then .waitChecksum else .waitParam }
      packet := none
      history := s.history ++ [.result (.returned (.parse .notDone))] }) ∧
  (∀ (s : State) (b : Byte), s.Idle → s.parser.state = .waitParam → s.parser.len.toNat < 2 →
    exec (.processByte b) s = .next { s with
      packet := none
      history := s.history ++ [.result (.returned (.parse .notDone))] }) ∧
  (∀ (pol : ShortLenPolicy) (p : Parser) (l : List Byte), p.state = .waitParam → p.len.toNat < 2 →
    feed pol p l = some (p, .notDone, [])) ∧
  (∀ (pol : ShortLenPolicy) (p q : Parser) (b : Byte) (r : ParseResult), p.ok = true →
    processByte pol p b = some (q, r) → q.ok = true ∧ q.buf.length ≤ 253)

/-- R98, the WAIT_CHECKSUM arm: DONE and NONE exactly when the byte is the expected checksum, else FAILED and CHECKSUM,
whatever the error byte holds. -/
def Obligations.ChecksumByteEndsTheParse : Prop :=
  ∀ (s : State) (b : Byte), s.Idle → s.packet = none → s.parser.state = .waitChecksum →
    (b = checksum s.parser.id s.parser.len s.parser.err s.parser.buf →
      exec (.processByte b) s = .next { s with
        parser := { s.parser with chk := b, state := .done }
        history := s.history ++ [.result (.returned (.parse .none))] }) ∧
    (b ≠ checksum s.parser.id s.parser.len s.parser.err s.parser.buf →
      exec (.processByte b) s = .next { s with
        parser := { s.parser with chk := b, state := .failed }
        history := s.history ++ [.result (.returned (.parse .checksum))] })

/-- R99 (the spec's decision D11): a terminal parser takes no byte, and the controller never offers it one. -/
def Obligations.TerminalParserTakesNoByte : Prop :=
  (∀ (s : State) (b : Byte), s.Idle → s.parser.terminal = true →
    exec (.processByte b) s = .refused .processByteTerminal) ∧
  (∀ (s : State) (a : RxAnswer) (r : Refusal), s.inv = true → s.op ≠ none → receive a s ≠ .refused r)

/-- R100: a terminal state is reached only from WAIT_CHECKSUM, or from WAIT_ERROR under the policy `fail`; every proper
part of a frame, from no bytes on, leaves the parse at NOT_DONE. -/
def Obligations.ParseEndsOnlyAtTheChecksum : Prop :=
  (∀ (pol : ShortLenPolicy) (p q : Parser) (b : Byte) (r : ParseResult), processByte pol p b = some (q, r) →
    (q.terminal = true ↔ r ≠ .notDone) ∧
    (q.terminal = true → p.state = .waitChecksum ∨ (p.state = .waitError ∧ pol = .fail ∧ p.len.toNat < 2))) ∧
  (∀ (pol : ShortLenPolicy) (p : Parser) (id c : Byte) (ps : List Byte) (k : Nat), ps.length ≤ 253 → k < ps.length + 6 →
    ∃ q, feed pol p.reset ((frame id c ps).take k) = some (q, .notDone, []) ∧ q.terminal = false)

/-- R101 over every run of bytes it speaks of (no two consecutive 0xFF), as R92 to R98, from which it is derived, decide it. Where
the run does not end in 0xFF, the frame ends the parse on its own last byte. Where it does, that byte and the frame's first
byte are the header (R93) and the frame's second byte is the ID ("a third consecutive 0xFF after the header is taken as the
ID 0xFF", R94): the parse goes on in WAIT_LENGTH with the bytes after it, and R101's own words do not hold, as the frame
`FF FF 05 02 00 F8` shows, which leaves the parse unfinished (log entry 20). -/
def Obligations.FrameAfterNoiseEndsOnItsLastByte : Prop :=
  ∀ (pol : ShortLenPolicy) (p : Parser) (before : List Byte), noise before = true →
    (∀ (id c : Byte) (ps rest : List Byte), ps.length ≤ 253 → before.getLast? ≠ some 0xFF#8 →
      ∃ q, feed pol p.reset (before ++ frame id c ps ++ rest) = some (q, .none, rest) ∧ q.state = .done ∧
        q.packet = { id := id, length := BitVec.ofNat 8 (ps.length + 2), error := c, params := ps,
                     checksum := checksum id (BitVec.ofNat 8 (ps.length + 2)) c ps }) ∧
    (∀ (id c : Byte) (ps rest : List Byte), before.getLast? = some 0xFF#8 →
      feed pol p.reset (before ++ frame id c ps ++ rest) =
        feed pol { p.reset with state := .waitLength, id := 0xFF#8 } ((frame id c ps).drop 2 ++ rest)) ∧
    (before.getLast? = some 0xFF#8 →
      ∃ q, feed pol p.reset (before ++ frame 5#8 0#8 []) = some (q, .notDone, []) ∧
        q.state = .waitParam ∧ q.id = 0xFF#8 ∧ q.len = 5#8)

/-- R102, as a run of the machine: the frame that `build` makes, given back byte by byte through `process_byte` to a reset
parser, answers NOT_DONE for every byte but the last and NONE on the last, and leaves `P.id = id`, `P.err = c`,
`P.buf = params`. -/
def Obligations.BuiltFrameParsesBack : Prop :=
  ∀ (s : State) (id c : Byte) (ps f : List Byte) (rest : List Request), s.Idle → s.parser.state = .waitStart1 →
    buildFrame s.cfg.codes id (.raw c) ps = .ok f →
    s.program = f.map (fun b => .call (.processByte b)) ++ rest →
    ∃ q : Parser, q.state = .done ∧ q.id = id ∧ q.err = c ∧ q.buf = ps ∧
      Host.Core.run Sys2Proof.core f.length s = .next { s with
        parser := q
        packet := none
        program := rest
        history := s.history ++
          List.replicate (f.length - 1) (.result (.returned (.parse .notDone))) ++
          [.result (.returned (.parse .none))] }

/-- R103 (the source's wider claim is corrected by 90_conflicts.md C2): one flipped bit of the ID, the error_or_cmd byte, a
parameter or the checksum always ends in FAILED with CHECKSUM. A flipped length bit may give a false success: the
counterexample of C2. -/
def Obligations.SingleBitErrorIsCaught : Prop :=
  (∀ (pol : ShortLenPolicy) (p : Parser) (id c : Byte) (ps : List Byte) (j k : Nat), ps.length ≤ 253 →
    (j = 2 ∨ (4 ≤ j ∧ j < ps.length + 6)) → k < 8 →
    ∃ q, feed pol p.reset ((frame id c ps).modify j (fun b => b ^^^ BitVec.twoPow 8 k)) = some (q, .checksum, []) ∧
      q.state = .failed) ∧
  (∀ (pol : ShortLenPolicy) (p : Parser), ∃ q,
    feed pol p.reset [0xFF#8, 0xFF#8, 0x01#8, 0x04#8, 0x03#8, 0x1E#8, 0x00#8, 0xD9#8, 0xFF#8] =
      some (q, .none, [0xFF#8]) ∧ q.buf = [0x1E#8, 0x00#8])

/-! ### PacketParser: the accessors -/

/-- R110 and R111: in DONE, `params()` returns the whole parameter sequence and `error_code()` all 8 bits of the mask;
nothing is written. -/
def Obligations.ParamsAndErrorCodeAreReturned : Prop :=
  ∀ s : State, s.Idle → s.packet = none → s.parser.state = .done →
    exec .params s = .next { s with history := s.history ++ [.result (.returned (.bytes s.parser.buf))] } ∧
    exec .errorCode s = .next { s with history := s.history ++ [.result (.returned (.byte s.parser.err))] }

/-- R107 to R109: `dev_id()` (the name is the spec's, D22), `param_len()` (the count, D4) and `param_byte(i)`, refused out
of range (D10). -/
def Obligations.IdCountAndParameterAreReturned : Prop :=
  ∀ s : State, s.Idle → s.packet = none → s.parser.state = .done →
    exec .devId s = .next { s with history := s.history ++ [.result (.returned (.byte s.parser.id))] } ∧
    exec .paramLen s = .next { s with history := s.history ++ [.result (.returned (.count s.parser.buf.length))] } ∧
    (∀ (i : Nat) (h : i < s.parser.buf.length),
      exec (.paramByte i) s = .next { s with history := s.history ++ [.result (.returned (.byte s.parser.buf[i]))] }) ∧
    (∀ i : Nat, s.parser.buf.length ≤ i → exec (.paramByte i) s = .refused .paramByteRange)

/-- The accessors read the Packet that `read_status_packet` gave to the host, while the host holds it, whatever its own parser
is doing: `param_byte(0)` in Program 5 of 95_test_vectors.md. DEDUCED, log entry 4. -/
def Obligations.AccessorsReadTheReturnedPacket : Prop :=
  ∀ (s : State) (k : Packet), s.Idle → s.packet = some k →
    exec .devId s = .next { s with history := s.history ++ [.result (.returned (.byte k.id))] } ∧
    exec .paramLen s = .next { s with history := s.history ++ [.result (.returned (.count k.params.length))] } ∧
    (∀ (i : Nat) (h : i < k.params.length),
      exec (.paramByte i) s = .next { s with history := s.history ++ [.result (.returned (.byte k.params[i]))] }) ∧
    (∀ i : Nat, k.params.length ≤ i → exec (.paramByte i) s = .refused .paramByteRange) ∧
    exec .params s = .next { s with history := s.history ++ [.result (.returned (.bytes k.params))] } ∧
    exec .errorCode s = .next { s with history := s.history ++ [.result (.returned (.byte k.error))] } ∧
    exec .errorCodeStr s = .next { s with
      history := s.history ++ [.result (.returned (.text (errorText s.cfg.bits k.error)))] }

/-- R106 (the spec's decision D10): outside DONE, with no Packet held, every accessor is refused; none ever writes a register,
and asking again gives the same answer. -/
def Obligations.AccessorsNeedDoneAndWriteNothing : Prop :=
  ∀ (s : State) (i : Instr), s.Idle → onParser i = true → (∀ b, i ≠ .processByte b) →
    (s.packet = none → s.parser.state ≠ .done → exec i s = .refused .accessorNotDone) ∧
    (∀ t, exec i s = .next t → ∃ r,
      t = { s with history := s.history ++ [.result r] } ∧
      exec i t = .next { t with history := t.history ++ [.result r] })

/-- R113 (the spec's decision D15): "NONE" for the empty mask; otherwise the names of the set bits in ascending order,
joined by ","; a bit that no flag names is "BIT<k>". For every lawful `errBit`. -/
def Obligations.ErrorTextNamesTheSetBits : Prop :=
  ∀ s : State, s.Idle → s.packet = none → s.parser.state = .done → s.cfg.bits.toList.Nodup →
    ∃ name : Fin 8 → String,
      (∀ f, name (s.cfg.bits.bit f) = flagName f) ∧
      (∀ k, (∀ f, s.cfg.bits.bit f ≠ k) → name k = "BIT" ++ toString k.val) ∧
      (s.parser.err = 0#8 →
        exec .errorCodeStr s = .next { s with history := s.history ++ [.result (.returned (.text "NONE"))] }) ∧
      (s.parser.err ≠ 0#8 →
        exec .errorCodeStr s = .next { s with history := s.history ++ [.result (.returned (.text (joinComma
          (((List.finRange 8).filter fun k => s.parser.err.getLsbD k.val).map name))))] })

/-! ### PacketBuilder -/

/-- R120, R122 and R123 (the refusals are the spec's decision D13): `build` returns `FF FF id N c params… checksum`, with
`N = len(params) + 2` unwrapped, and changes nothing else; ID 255 and more than 253 parameters are refused. -/
def Obligations.BuildReturnsTheFrame : Prop :=
  ∀ (s : State) (id : Byte) (cmd : CommandArg) (ps : List Byte), s.Idle →
    (id.toNat ≤ 254 → ps.length ≤ 253 → ∃ n c : Byte, n.toNat = ps.length + 2 ∧
      (match cmd with
        | .cmd k => c = s.cfg.codes.code k
        | .raw b => c = b) ∧
      exec (.build id cmd ps) s = .next { s with
        history := s.history ++ [.result (.returned (.frame
          ([0xFF#8, 0xFF#8, id, n, c] ++ ps ++ [checksum id n c ps])))] }) ∧
    (id = 255#8 → exec (.build id cmd ps) s = .refused .buildIdOutOfRange) ∧
    (id.toNat ≤ 254 → 253 < ps.length → exec (.build id cmd ps) s = .refused .buildTooManyParams)

/-- R121: the checksum is the low 8 bits of the bitwise NOT of the integer sum of ID, length, error_or_cmd and parameters,
and the parser expects the builder's function of its registers. -/
def Obligations.ChecksumIsTheInvertedSum : Prop :=
  (∀ (id n e : Byte) (ps : List Byte),
    checksum id n e ps = ~~~ (BitVec.ofNat 8 (id.toNat + n.toNat + e.toNat + (ps.map BitVec.toNat).sum))) ∧
  (∀ p : Parser, p.expected = checksum p.id p.len p.err p.buf)

/-- R124 and R125: the modular form of the checksum, its bound, and the laws (a), (b), (c). -/
def Obligations.ChecksumLawsHold : Prop :=
  (∀ (id n e : Byte) (ps : List Byte),
    (checksum id n e ps).toNat = 255 - (id.toNat + n.toNat + e.toNat + (ps.map BitVec.toNat).sum) % 256) ∧
  (∀ (id n e : Byte) (ps : List Byte), id.toNat ≤ 254 → ps.length ≤ 253 →
    id.toNat + n.toNat + e.toNat + (ps.map BitVec.toNat).sum ≤ 65279) ∧
  (∀ (id n e : Byte) (ps qs : List Byte), ps.Perm qs → checksum id n e ps = checksum id n e qs) ∧
  (∀ (id n e b : Byte) (ps : List Byte),
    (b ≠ id → checksum b n e ps ≠ checksum id n e ps) ∧
    (b ≠ n → checksum id b e ps ≠ checksum id n e ps) ∧
    (b ≠ e → checksum id n b ps ≠ checksum id n e ps) ∧
    (∀ (k : Nat) (h : k < ps.length), b ≠ ps[k] → checksum id n e (ps.set k b) ≠ checksum id n e ps)) ∧
  (∀ (id n e chk : Byte) (ps : List Byte),
    (id.toNat + n.toNat + e.toNat + (ps.map BitVec.toNat).sum + chk.toNat) % 256 = 255 ↔ chk = checksum id n e ps)

/-! ### BusController: primitives and synchronous commands -/

/-- R141: one transmit event carries the whole frame and `C.phase` is TX then; the operation itself returns to IDLE
(R140). The builder's refusals apply (D13). -/
def Obligations.FillAndWriteTransmitsOneFrame : Prop :=
  ∀ (s : State) (id : Byte) (cmd : CommandArg) (data : List Byte), s.Idle →
    (id.toNat ≤ 254 → data.length ≤ 253 →
      transmit id cmd data s = .next { s with
        phase := .tx, history := s.history ++ [.tx (frame id (commandByte s.cfg.codes cmd) data)] } ∧
      exec (.fillAndWritePacket id cmd data) s = .next { s with
        history := s.history ++
          [.tx (frame id (commandByte s.cfg.codes cmd) data), .result (.returned .unit)] }) ∧
    (id = 255#8 → exec (.fillAndWritePacket id cmd data) s = .refused .buildIdOutOfRange) ∧
    (id.toNat ≤ 254 → 253 < data.length → exec (.fillAndWritePacket id cmd data) s = .refused .buildTooManyParams)

/-- R142: `read_status_packet` on every stream of answers: the Packet, Checksum, Timeout, or still running in phase RX. It
transmits nothing. That a Packet with a non-zero mask is returned unchecked is the spec's decision D20 (R143; log entry 13,
DESIGN CHOICE); the pair form of the errors is D19. That the returned Packet stays with the host, and that one held before is
discarded, is log entry 4; that `C.P` holds nothing afterwards is R90: here and in the statements on streams below. -/
def Obligations.ReadStatusPacketOnEveryStream : Prop :=
  ∀ s : State, s.Idle →
    AnswersGive .readStatusPacket s []
      (fun p => .returned (.packet { id := p.id, length := p.len, error := p.err, params := p.buf, checksum := p.chk }))
      (.raised (.bus { kind := .timeout, code := .timeout }))

/-- R232 (the spec's decision D23): a stream of bytes that never completes a frame keeps the receive loop running, for any
number of bytes: 0x00 for ever, and, under the policy `absorb`, anything after a length byte below 2. -/
def Obligations.ReceiveLoopHasNoByteLimit : Prop :=
  (∀ (s : State) (n : Nat), s.Idle → s.rx = answerBytes (List.replicate n 0x00#8) →
    exec .readStatusPacket s =
      .next (s.waiting .readStatusPacket (received (answerBytes (List.replicate n 0x00#8))) s.rxParser.reset)) ∧
  (∀ (s : State) (id n e : Byte) (l : List Byte), s.Idle → s.cfg.shortLen = .absorb → n.toNat < 2 →
    s.rx = answerBytes ([0xFF#8, 0xFF#8, id, n, e] ++ l) →
    exec .readStatusPacket s =
      .next (s.waiting .readStatusPacket (received (answerBytes ([0xFF#8, 0xFF#8, id, n, e] ++ l)))
        { s.rxParser with state := .waitParam, id := id, len := n, err := e, buf := [] }))

/-- R150 and R151: `ping` of an ID of 0..253 on every stream of answers: true on a good packet with mask 0, from any device
(D6); BusError(Device, mask) on a good packet with another mask; BusError(Checksum) on a mismatch; false on a TIMEOUT
at any byte. ID 254 is refused (D12). -/
def Obligations.PingOnEveryStream : Prop :=
  (∀ (s : State) (id : Byte), s.Idle → id.toNat ≤ 253 →
    AnswersGive (.ping id) s [.tx (frame id s.cfg.codes.ping [])]
      (fun p => if p.err = 0#8 then .returned (.bool true)
        else .raised (.bus { kind := .device, code := .mask p.err }))
      (.returned (.bool false))) ∧
  (∀ s : State, s.Idle → exec (.ping 254#8) s = .refused .pingToBroadcast)

/-- R153 and R154: `read` on every stream of answers: the parameters received, however many (D7), or Device, Checksum or
Timeout. ID 254 is refused (D12). -/
def Obligations.ReadOnEveryStream : Prop :=
  (∀ (s : State) (id offset length : Byte), s.Idle → id.toNat ≤ 253 →
    AnswersGive (.read id offset length) s [.tx (frame id s.cfg.codes.read [offset, length])]
      (fun p => if p.err = 0#8 then .returned (.bytes p.buf)
        else .raised (.bus { kind := .device, code := .mask p.err }))
      (.raised (.bus { kind := .timeout, code := .timeout }))) ∧
  (∀ (s : State) (offset length : Byte), s.Idle → exec (.read 254#8 offset length) s = .refused .readFromBroadcast)

/-- R156 and R157: `write`, deferred or not, to an ID of 0..253 on every stream of answers (the deferred form waits too,
90_conflicts.md C1); it returns no value (D26). More than 252 data bytes are refused (D13). -/
def Obligations.WriteOnEveryStream : Prop :=
  (∀ (s : State) (id offset : Byte) (data : List Byte) (deferred : Bool), s.Idle → id.toNat ≤ 253 → data.length ≤ 252 →
    AnswersGive (.write id offset data deferred) s
      [.tx (frame id (if deferred then s.cfg.codes.regWrite else s.cfg.codes.write) (offset :: data))]
      (fun p => if p.err = 0#8 then .returned .unit
        else .raised (.bus { kind := .device, code := .mask p.err }))
      (.raised (.bus { kind := .timeout, code := .timeout }))) ∧
  (∀ (s : State) (id offset : Byte) (data : List Byte) (deferred : Bool), s.Idle → id.toNat ≤ 254 → 252 < data.length →
    exec (.write id offset data deferred) s = .refused .buildTooManyParams)

/-- R159: `reset` of an ID of 0..253 on every stream of answers; it returns no value (D26). -/
def Obligations.ResetOnEveryStream : Prop :=
  ∀ (s : State) (id : Byte), s.Idle → id.toNat ≤ 253 →
    AnswersGive (.reset id) s [.tx (frame id s.cfg.codes.reset [])]
      (fun p => if p.err = 0#8 then .returned .unit
        else .raised (.bus { kind := .device, code := .mask p.err }))
      (.raised (.bus { kind := .timeout, code := .timeout }))

/-- R146 (the spec's decision D12): `write` and `reset` to 254 transmit their frame and return at once; no answer is
taken. The wire instructions WRITE, REG_WRITE and RESET the same (log entry 7). -/
def Obligations.BroadcastWriteAndResetReturnAtOnce : Prop :=
  ∀ (s : State) (offset : Byte) (data : List Byte) (deferred : Bool), s.Idle → data.length ≤ 252 →
    exec (.write 254#8 offset data deferred) s = .next { s with
      history := s.history ++
        [.tx (frame 254#8 (if deferred then s.cfg.codes.regWrite else s.cfg.codes.write) (offset :: data)),
         .result (.returned .unit)] } ∧
    exec (.reset 254#8) s = .next { s with
      history := s.history ++ [.tx (frame 254#8 s.cfg.codes.reset []), .result (.returned .unit)] } ∧
    exec (.wireWrite 254#8 offset data) s = .next { s with
      history := s.history ++ [.tx (frame 254#8 s.cfg.codes.write (offset :: data)), .result (.returned .unit)] } ∧
    exec (.wireRegWrite 254#8 offset data) s = .next { s with
      history := s.history ++ [.tx (frame 254#8 s.cfg.codes.regWrite (offset :: data)), .result (.returned .unit)] } ∧
    exec (.wireReset 254#8) s = .next { s with
      history := s.history ++ [.tx (frame 254#8 s.cfg.codes.reset []), .result (.returned .unit)] }

/-! ### Broadcast and fire-and-forget operations, scan -/

/-- R170: `action` broadcasts ACTION and returns, whatever came before; no answer is taken. -/
def Obligations.ActionBroadcastsAndReturns : Prop :=
  ∀ s : State, s.Idle →
    exec .action s = .next { s with
      history := s.history ++ [.tx (frame 254#8 s.cfg.codes.action []), .result (.returned .unit)] }

/-- R180 to R183: the `send_…` operations transmit the frame of their synchronous counterpart, ID 254 like any other, and
return with no receive event. -/
def Obligations.SendOperationsTransmitAndReturn : Prop :=
  ∀ (s : State) (id : Byte), s.Idle → id.toNat ≤ 254 →
    exec (.sendPing id) s = .next { s with
      history := s.history ++ [.tx (frame id s.cfg.codes.ping []), .result (.returned .unit)] } ∧
    (∀ offset length : Byte, exec (.sendRead id offset length) s = .next { s with
      history := s.history ++ [.tx (frame id s.cfg.codes.read [offset, length]), .result (.returned .unit)] }) ∧
    (∀ (offset : Byte) (data : List Byte) (deferred : Bool), data.length ≤ 252 →
      exec (.sendWrite id offset data deferred) s = .next { s with
        history := s.history ++
          [.tx (frame id (if deferred then s.cfg.codes.regWrite else s.cfg.codes.write) (offset :: data)),
           .result (.returned .unit)] }) ∧
    exec (.sendReset id) s = .next { s with
      history := s.history ++ [.tx (frame id s.cfg.codes.reset []), .result (.returned .unit)] }

/-- R171, R173 and R203: a mismatched `sync_write` raises ValidationError before anything else (its form is D19); otherwise
no devices are refused (D9), a parameter block over 253 bytes is refused (D13), and the rest is one broadcast frame,
`block_length` being the common data length (D8), with no receive phase. -/
def Obligations.SyncWriteValidatesThenBroadcastsOnce : Prop :=
  ∀ (s : State) (ids : List Byte) (offset : Byte) (values : List (List Byte)), s.Idle →
    ((values.length ≠ ids.length ∨ ∃ v ∈ values, ∃ w ∈ values, v.length ≠ w.length) →
      exec (.syncWrite ids offset values) s = .next { s with
        history := s.history ++ [.result (.raised .validation)] }) ∧
    (∀ L : Nat, values.length = ids.length → (∀ v ∈ values, v.length = L) →
      (ids = [] → exec (.syncWrite ids offset values) s = .refused .syncWriteNoDevices) ∧
      (ids ≠ [] → 253 < 2 + ids.length * (L + 1) →
        exec (.syncWrite ids offset values) s = .refused .buildTooManyParams) ∧
      (ids ≠ [] → 2 + ids.length * (L + 1) ≤ 253 →
        exec (.syncWrite ids offset values) s = .next { s with
          history := s.history ++
            [.tx (frame 254#8 s.cfg.codes.syncWrite
              ([offset, BitVec.ofNat 8 L] ++ (ids.zip values).flatMap fun x => x.1 :: x.2)),
             .result (.returned .unit)] }))

/-- R174 and R177: a scan whose pings all get a good reply or a timeout, on every such stream of answers: for each ID in
ascending order one PING frame, its answers and one `found` or `missing` event (the callbacks as events: the spec's decision
D18; log entry 10, DESIGN CHOICE); it returns whether any device answered. If the answers end before the reply to a ping does, the
scan is still running, that ID's ping being its last event but for the bytes so far. -/
def Obligations.ScanVisitsEveryIdInOrder : Prop :=
  ∀ (s : State) (startId num : Nat) (rs : List PingReply), s.Idle → startId + num ≤ 254 →
    (∀ r ∈ rs, r.lawful s.cfg.shortLen = true) →
    (∀ q, rs.length = num → s.rx = rs.flatMap PingReply.answers ++ q →
      ∃ p : Parser, (rs = [] → p = s.rxParser) ∧ (rs ≠ [] → p.state = .waitStart1 ∧ p.buf = []) ∧
      exec (.scan startId num) s = .next { s with
        rxParser := p
        packet := if rs = [] then s.packet else none
        cur := startId + num
        stop := startId + num
        found := rs.any PingReply.present
        rx := q
        history := s.history ++ scanEvents s.cfg.codes startId rs ++
          [.result (.returned (.bool (rs.any PingReply.present)))] }) ∧
    (∀ l p, rs.length < num → feed s.cfg.shortLen Parser.initial l = some (p, .notDone, []) →
      s.rx = rs.flatMap PingReply.answers ++ answerBytes l →
      ∃ p' : Parser, p'.state = p.state ∧ p'.buf = p.buf ∧
      exec (.scan startId num) s = .next { s with
        phase := .rx
        op := some (.scan startId num)
        rxParser := p'
        packet := none
        cur := startId + rs.length
        stop := startId + num
        found := rs.any PingReply.present
        rx := []
        history := s.history ++ scanEvents s.cfg.codes startId rs ++
          .tx (frame (BitVec.ofNat 8 (startId + rs.length)) s.cfg.codes.ping []) :: received (answerBytes l) })

/-- R174 and R176: a BusError at ID k ends the scan after the events of the IDs before k (D18; log entry 10), on every stream of
answers that brings one; there is no event for k, no later ID is pinged, and the error is raised even if an earlier ID was
found. A good packet with a non-zero mask raises Device, a checksum mismatch raises Checksum. -/
def Obligations.ScanEndsAtTheFirstBusError : Prop :=
  ∀ (s : State) (startId num : Nat) (rs : List PingReply) (l : List Byte) (p : Parser) (q : List RxAnswer),
    s.Idle → startId + num ≤ 254 → rs.length < num → (∀ r ∈ rs, r.lawful s.cfg.shortLen = true) →
    s.rx = rs.flatMap PingReply.answers ++ answerBytes l ++ q →
    ∃ p' : Parser, p'.state = .waitStart1 ∧ p'.buf = [] ∧ ∀ e : BusError,
      ((feed s.cfg.shortLen Parser.initial l = some (p, .none, []) ∧ p.err ≠ 0#8 ∧
          e = { kind := .device, code := .mask p.err }) ∨
        (feed s.cfg.shortLen Parser.initial l = some (p, .checksum, []) ∧
          e = { kind := .checksum, code := .checksum })) →
      exec (.scan startId num) s = .next { s with
        rxParser := p'
        packet := none
        cur := startId + rs.length
        stop := startId + num
        found := rs.any PingReply.present
        rx := q
        history := s.history ++ scanEvents s.cfg.codes startId rs ++
          .tx (frame (BitVec.ofNat 8 (startId + rs.length)) s.cfg.codes.ping []) ::
          received (answerBytes l) ++ [.result (.raised (.bus e))] }

/-- R176 (the spec's decision D14): an empty scan pings nothing and returns false; a range that leaves 0..253 is refused as
a whole. -/
def Obligations.ScanOfNothingAndScanBeyondTheIds : Prop :=
  ∀ (s : State) (startId num : Nat), s.Idle →
    (startId ≤ 254 → exec (.scan startId 0) s = .next { s with
      cur := startId
      stop := startId
      found := false
      history := s.history ++ [.result (.returned (.bool false))] }) ∧
    (254 < startId + num → exec (.scan startId num) s = .refused .scanRange)

/-! ### The wire instructions (R64, R67). That a wire instruction is the whole bus command of its rule is DEDUCED, log entry 7 -/

/-- PING and READ on every stream of answers, as R150 and R153 give them; to 254 they are refused (D12). -/
def Obligations.WirePingAndReadOnEveryStream : Prop :=
  (∀ (s : State) (id : Byte), s.Idle → id.toNat ≤ 253 →
    AnswersGive (.wirePing id) s [.tx (frame id s.cfg.codes.ping [])]
      (fun p => checkStatus p (.bool true)) (.returned (.bool false))) ∧
  (∀ (s : State) (id offset length : Byte), s.Idle → id.toNat ≤ 253 →
    AnswersGive (.wireRead id offset length) s [.tx (frame id s.cfg.codes.read [offset, length])]
      (fun p => checkStatus p (.bytes p.buf)) (.raised timeoutError)) ∧
  (∀ (s : State) (offset length : Byte), s.Idle →
    exec (.wirePing 254#8) s = .refused .pingToBroadcast ∧
    exec (.wireRead 254#8 offset length) s = .refused .readFromBroadcast)

/-- WRITE, REG_WRITE and RESET to one device on every stream of answers, as R156 and R159 give them. -/
def Obligations.WireWriteAndResetOnEveryStream : Prop :=
  ∀ (s : State) (id offset : Byte) (data : List Byte), s.Idle → id.toNat ≤ 253 → data.length ≤ 252 →
    AnswersGive (.wireWrite id offset data) s [.tx (frame id s.cfg.codes.write (offset :: data))]
      (fun p => checkStatus p .unit) (.raised timeoutError) ∧
    AnswersGive (.wireRegWrite id offset data) s [.tx (frame id s.cfg.codes.regWrite (offset :: data))]
      (fun p => checkStatus p .unit) (.raised timeoutError) ∧
    AnswersGive (.wireReset id) s [.tx (frame id s.cfg.codes.reset [])]
      (fun p => checkStatus p .unit) (.raised timeoutError)

/-- ACTION and SYNC_WRITE broadcast their frame and return, as R170 and R171 give them. -/
def Obligations.WireActionAndSyncWriteBroadcast : Prop :=
  (∀ s : State, s.Idle →
    exec .wireAction s = .next { s with
      history := s.history ++ [.tx (frame 254#8 s.cfg.codes.action []), .result (.returned .unit)] }) ∧
  (∀ (s : State) (offset : Byte) (blocks : List DeviceBlock) (L : Nat), s.Idle → blocks ≠ [] →
    (∀ b ∈ blocks, b.values.length = L) → 2 + blocks.length * (L + 1) ≤ 253 →
    exec (.wireSyncWrite offset blocks) s = .next { s with
      history := s.history ++
        [.tx (frame 254#8 s.cfg.codes.syncWrite
          ([offset, BitVec.ofNat 8 L] ++ blocks.flatMap fun b => b.id :: b.values)),
         .result (.returned .unit)] })

/-- R67: the one frame a wire instruction transmits is its own encoding, and it is the instruction's first event. -/
def Obligations.WireInstructionTransmitsItsEncoding : Prop :=
  ∀ (s t : State) (i : Instr) (f : List Byte), i.wellFormed = true → encode s.cfg i = some f → exec i s = .next t →
    ∃ evs, t.history = s.history ++ .tx f :: evs ∧ ∀ g, .tx g ∉ evs

/-! ### All operations -/

/-- R216 (the spec's decision D21): an operation issued while another runs gets no step. -/
def Obligations.BusyControllerRefusesEveryOperation : Prop :=
  ∀ (s : State) (i : Instr), (s.phase ≠ .idle ∨ s.op ≠ none) → exec i s = .refused .busy

/-- Which operations run. Issued in an idle state, an operation other than `process_byte` and the accessors answers a next
state exactly when the spec gives its arguments a meaning, whatever the answers of the Transport are; the refusals of
arguments come before any event (R207; the refused cases are the decisions D9, D12, D13, D14). The ill-formed SYNC_WRITE,
which no frame encodes, is left out of the second half. -/
def Obligations.CommandsRunExactlyOnMeaningfulArguments : Prop :=
  ∀ (s : State) (i : Instr), s.Idle → onParser i = false →
    (i.wellFormed = true → ∃ t, exec i s = .next t) ∧
    (i.wellFormed = false → (∀ offset blocks, i ≠ .wireSyncWrite offset blocks) → ∃ r, exec i s = .refused r)

/-- R205: what each operation may return and raise; and an operation has ended exactly when its last event is its result. That
`write` and `reset` to 254 raise nothing is the spec's decision D12 (log entry 16, DESIGN CHOICE); that a wire instruction has the
row of its operation is log entry 7, DEDUCED. -/
def Obligations.OutcomesFollowTheTable : Prop :=
  ∀ (s t : State) (i : Instr), exec i s = .next t →
    ∃ evs, t.history = s.history ++ evs ∧
      (∀ r, .result r ∈ evs → allowedResult i r = true) ∧
      (t.op = none ↔ ∃ r, evs.getLast? = some (.result r))

/-- R50 and R147: the events of any operation but `scan` are at most one transmit event, then the receive events in the order
the Transport answers them, then at most one result; the answers not taken are left. -/
def Obligations.EventsAreTransmitReceiveResult : Prop :=
  ∀ (s t : State) (i : Instr), (∀ a n, i ≠ .scan a n) → exec i s = .next t →
    ∃ sent answers result, t.history = s.history ++ sent ++ received answers ++ result ∧
      s.rx = answers ++ t.rx ∧
      (sent = [] ∨ ∃ f, sent = [.tx f]) ∧
      ((result = [] ∧ t.op = some i ∧ t.phase = .rx ∧ t.rx = []) ∨
        ∃ r, result = [.result r] ∧ t.op = none ∧ t.phase = .idle)

/-- The frame of every instruction (R37, R206, R208): parameters, program and the free-answer counter are unchanged, the
history only grows, answers are only taken; only `scan` writes its three registers; only `process_byte` writes `P`; only the
operations that await a packet write `C.P`; `process_byte` and the operations that await none take no answer. Either the operation
has ended in IDLE with nothing held, or it is still running in RX. An operation that has ended leaves nothing in `C.P` (R90),
a raised BusError among them; the Packet the host holds is as before, or discarded, or the one `read_status_packet` just
returned (log entry 4). -/
def Obligations.InstructionsLeaveTheRestAlone : Prop :=
  ∀ (s t : State) (i : Instr), exec i s = .next t →
    t.cfg = s.cfg ∧ t.program = s.program ∧ t.draws = s.draws ∧ s.history <+: t.history ∧ t.rx <:+ s.rx ∧
    ((∀ a n, i ≠ .scan a n) → t.cur = s.cur ∧ t.stop = s.stop ∧ t.found = s.found) ∧
    ((∀ b, i ≠ .processByte b) → t.parser = s.parser) ∧
    (replyOf i = none → t.rx = s.rx ∧ t.rxParser = s.rxParser) ∧
    (t.op = none → t.rxParser = s.rxParser ∨ (t.rxParser.state = .waitStart1 ∧ t.rxParser.buf = [])) ∧
    (replyOf i = none → (∀ b, i ≠ .processByte b) → t.packet = s.packet) ∧
    (t.packet = s.packet ∨ t.packet = none ∨ (i = .readStatusPacket ∧
      ∃ k, t.packet = some k ∧ t.history.getLast? = some (.result (.returned (.packet k))))) ∧
    ((t.phase = .idle ∧ t.op = none) ∨ (t.phase = .rx ∧ t.op = some i ∧ t.rx = [])) ∧
    (∀ e, t.history.getLast? = some (.result (.raised (.bus e))) → t.history ≠ s.history →
      t.rxParser.state = .waitStart1 ∧ t.rxParser.buf = [])

/-- R34 and R230: nothing of an exchange is visible after it. When a command or a scan has ended, a following `process_byte` or
accessor gives what it would have given before, if the host held no Packet. (`read_status_packet`, which gives its Packet to the
host, is `AccessorsReadTheReturnedPacket`.) -/
def Obligations.NothingOfAnExchangeIsVisibleAfterIt : Prop :=
  ∀ (s t : State) (i j : Instr), onParser i = false → i ≠ .readStatusPacket → onParser j = true → s.packet = none →
    exec i s = .next t → t.op = none →
    (∀ r, exec j s = .refused r ↔ exec j t = .refused r) ∧
    (∀ r, (∃ u, exec j s = .next u ∧ u.history = s.history ++ [.result r]) ↔
      (∃ u, exec j t = .next u ∧ u.history = t.history ++ [.result r]))

/-- R140: the controller keeps no cross-call state. What an operation of the builder or the controller makes of its arguments
depends only on them, the parameters and the Transport's answers: from any two idle states that agree on these, the new events,
the answers left and the phase are the same, whatever the parser and scan registers held. -/
def Obligations.OutcomeDependsOnlyOnArgumentsAndAnswers : Prop :=
  ∀ (s₁ s₂ : State) (i : Instr), s₁.Idle → s₂.Idle → onParser i = false → s₁.cfg = s₂.cfg → s₁.rx = s₂.rx →
    sameOutcome s₁ s₂ (exec i s₁) (exec i s₂)

/-- R32 and R142: an operation advances one receive event at a time, so it makes no difference whether the Transport's answers
are all there when it is issued or arrive in two parts, the second while it runs. -/
def Obligations.AnswersMayArriveInParts : Prop :=
  ∀ (s : State) (i : Instr) (a b : List RxAnswer),
    exec i { s with rx := a ++ b } = andThen (exec i { s with rx := a }) fun t => drain { t with rx := t.rx ++ b }

/-! ### Steps and runs -/

/-- R36, R21 and R35 (the power-on state is the spec's decision D24): after reset the block is idle, holds no operation, and its
parser hunts for a header with an empty buffer. -/
def Obligations.ResetIsIdle : Prop :=
  State.reset.phase = .idle ∧ State.reset.op = none ∧
    State.reset.parser.state = .waitStart1 ∧ State.reset.parser.buf = [] ∧ State.reset.packet = none

/-- R55 and R231: an idle block issues the host's next operation, a call or the instruction its frame decodes to, refuses bytes
that are no instruction frame, and waits when there is none. Before a new decode attempt the host resets its parser, in any
state of it (R90). The three forms of a request are log entry 5. -/
def Obligations.StepIssuesTheNextOperation : Prop :=
  ∀ s : State, s.Idle →
    (s.program = [] → step s = .next s) ∧
    (∀ i rest, s.program = .call i :: rest → step s = exec i { s with program := rest }) ∧
    (∀ bytes rest i, s.program = .frame bytes :: rest → decodeWhole s.cfg bytes = .ok i →
      step s = exec i { s with program := rest }) ∧
    (∀ bytes rest e, s.program = .frame bytes :: rest → decodeWhole s.cfg bytes = .error e →
      step s = .refused (.undecodable e)) ∧
    (∀ rest, s.program = .newParser :: rest → step s = .next { s with
      program := rest
      parser := { s.parser with state := .waitStart1, buf := [] }
      packet := none })

/-- R32 and R10: a running operation goes on with the answers that are queued; with none queued it makes one receive event whose
answer is a free value (log entry 3). -/
def Obligations.StepResumesTheRunningOperation : Prop :=
  ∀ (s : State) (i : Instr), s.op = some i → s.phase = .rx →
    (∀ a q, s.rx = a :: q → step s = andThen (receive a s) (drainQueue q)) ∧
    (s.rx = [] → step s = receive (Config.freeAnswer s.draws) { s with draws := s.draws + 1 })

/-- A table word placed for the next step is what the next step runs (log entry 6). -/
def Obligations.PlacedWordIsTheNextInstruction : Prop :=
  ∀ (s : State) (nbits w : Nat) (i : Instr), decodeTableWord nbits w = some i →
    step (s.withFetchWord nbits w) =
      exec i { s with cfg := { s.cfg with codes := CmdCodes.default }, phase := .idle, op := none }

/-- The invariant (R20 to R23, R29, R65, R70, R112, R140, R176): every step keeps it, from every state that meets it. -/
def Obligations.StepKeepsTheInvariant : Prop :=
  ∀ s t : State, s.inv = true → step s = .next t → t.inv = true

/-- The reset state meets the invariant (with the default parameters of log entries 1 and 2). -/
def Obligations.ResetMeetsTheInvariant : Prop := State.reset.inv = true

/-- From a state that meets the invariant no run ever faults, however long and whatever the Transport answers. -/
def Obligations.NoRunFaults : Prop :=
  ∀ (n : Nat) (s : State) (r : Fault), s.inv = true → Host.Core.run Sys2Proof.core n s ≠ .fault r

/-- R48 and R60: a step transmits only whole frames with a matching checksum for an ID of 0..254, never a part of one. -/
def Obligations.OnlyWholeFramesAreSent : Prop :=
  ∀ s t : State, s.sentOk = true → step s = .next t → t.sentOk = true

/-- R52: a step never rewrites the history; it writes no parameter, and the host's program and the Transport's answers are only
ever consumed from the front. -/
def Obligations.StepOnlyAppendsToTheHistory : Prop :=
  ∀ s t : State, step s = .next t →
    s.history <+: t.history ∧ t.cfg = s.cfg ∧ t.program <:+ s.program ∧ t.rx <:+ s.rx

/-! ### Encoding -/

/-- R60, R65 and R67: for every lawful `cmdCode`, every wire instruction has an encoding, and decoding the encoding of a
well-formed one gives it back, every operand at every value, with the bytes after it untouched. -/
def Obligations.DecodeOfEncodeIsTheInstruction : Prop :=
  ∀ (cfg : Config) (i : Instr) (rest : List Byte), cfg.codes.toList.Nodup → i.wellFormed = true → isWire i = true →
    ∃ f, encode cfg i = some f ∧ decode cfg (f ++ rest) = .ok (i, rest)

/-- R60 and R61: the decoder takes nothing but encodings: what it reads is a wire instruction, and the bytes it took are that
instruction's encoding. -/
def Obligations.DecodedBytesAreTheEncoding : Prop :=
  ∀ (cfg : Config) (bytes rest : List Byte) (i : Instr), decode cfg bytes = .ok (i, rest) →
    isWire i = true ∧ ∃ f, encode cfg i = some f ∧ bytes = f ++ rest

/-- R66 and R71, the default tables, which the spec marks as general knowledge (log entry 1): the parameters of the reset
state. -/
def Obligations.ResetParametersAreTheDefaultTables : Prop :=
  State.reset.cfg.codes.toList = [0x01#8, 0x02#8, 0x03#8, 0x04#8, 0x05#8, 0x06#8, 0x83#8] ∧
    State.reset.cfg.bits.toList = [0, 1, 2, 3, 4, 5, 6]

/-- Frames written out from R60 and R67 (the vectors B1, B4 to B9 of 95_test_vectors.md) decode to the instructions they stand
for, under the default codes. -/
def Obligations.WrittenOutFramesDecode : Prop :=
  decodeWhole Config.default [0xFF#8, 0xFF#8, 0x01#8, 0x02#8, 0x01#8, 0xFB#8] = .ok (.wirePing 0x01#8) ∧
  decodeWhole Config.default [0xFF#8, 0xFF#8, 0x05#8, 0x04#8, 0x02#8, 0x18#8, 0x02#8, 0xDA#8] =
    .ok (.wireRead 0x05#8 0x18#8 0x02#8) ∧
  decodeWhole Config.default [0xFF#8, 0xFF#8, 0x03#8, 0x05#8, 0x03#8, 0x1E#8, 0x00#8, 0x02#8, 0xD4#8] =
    .ok (.wireWrite 0x03#8 0x1E#8 [0x00#8, 0x02#8]) ∧
  decodeWhole Config.default [0xFF#8, 0xFF#8, 0x03#8, 0x05#8, 0x04#8, 0x1E#8, 0x00#8, 0x02#8, 0xD3#8] =
    .ok (.wireRegWrite 0x03#8 0x1E#8 [0x00#8, 0x02#8]) ∧
  decodeWhole Config.default [0xFF#8, 0xFF#8, 0xFE#8, 0x02#8, 0x05#8, 0xFA#8] = .ok .wireAction ∧
  decodeWhole Config.default [0xFF#8, 0xFF#8, 0x07#8, 0x02#8, 0x06#8, 0xF0#8] = .ok (.wireReset 0x07#8) ∧
  decodeWhole Config.default
      [0xFF#8, 0xFF#8, 0xFE#8, 0x08#8, 0x83#8, 0x1E#8, 0x01#8, 0x01#8, 0x10#8, 0x02#8, 0x20#8, 0x24#8] =
    .ok (.wireSyncWrite 0x1E#8 [⟨0x01#8, [0x10#8]⟩, ⟨0x02#8, [0x20#8]⟩])
end

