-- ==== Sys2Proof/Laws/State.lean ====
section
/-! SUPPORT. Laws/State.lean: one lemma per field for each named update of State and of the parser registers. -/

namespace Sys2Proof.Machine

open Sys2Proof

section Record
variable (s : State) (e : Event)

@[simp] theorem record_cfg : (s.record e).cfg = s.cfg := rfl
@[simp] theorem record_phase : (s.record e).phase = s.phase := rfl
@[simp] theorem record_op : (s.record e).op = s.op := rfl
@[simp] theorem record_parser : (s.record e).parser = s.parser := rfl
@[simp] theorem record_rxParser : (s.record e).rxParser = s.rxParser := rfl
@[simp] theorem record_packet : (s.record e).packet = s.packet := rfl
@[simp] theorem record_cur : (s.record e).cur = s.cur := rfl
@[simp] theorem record_stop : (s.record e).stop = s.stop := rfl
@[simp] theorem record_found : (s.record e).found = s.found := rfl
@[simp] theorem record_program : (s.record e).program = s.program := rfl
@[simp] theorem record_rx : (s.record e).rx = s.rx := rfl
@[simp] theorem record_draws : (s.record e).draws = s.draws := rfl
@[simp] theorem record_history : (s.record e).history = s.history ++ [e] := rfl

end Record

section StartReceive
variable (s : State)

@[simp] theorem startReceive_cfg : (startReceive s).cfg = s.cfg := rfl
@[simp] theorem startReceive_phase : (startReceive s).phase = .rx := rfl
@[simp] theorem startReceive_op : (startReceive s).op = s.op := rfl
@[simp] theorem startReceive_parser : (startReceive s).parser = s.parser := rfl
@[simp] theorem startReceive_rxParser : (startReceive s).rxParser = s.rxParser.reset := rfl
@[simp] theorem startReceive_packet : (startReceive s).packet = none := rfl
@[simp] theorem startReceive_cur : (startReceive s).cur = s.cur := rfl
@[simp] theorem startReceive_stop : (startReceive s).stop = s.stop := rfl
@[simp] theorem startReceive_found : (startReceive s).found = s.found := rfl
@[simp] theorem startReceive_program : (startReceive s).program = s.program := rfl
@[simp] theorem startReceive_rx : (startReceive s).rx = s.rx := rfl
@[simp] theorem startReceive_draws : (startReceive s).draws = s.draws := rfl
@[simp] theorem startReceive_history : (startReceive s).history = s.history := rfl

end StartReceive

section ResetParser
variable (s : State)

@[simp] theorem resetParser_cfg : (resetParser s).cfg = s.cfg := rfl
@[simp] theorem resetParser_phase : (resetParser s).phase = s.phase := rfl
@[simp] theorem resetParser_op : (resetParser s).op = s.op := rfl
@[simp] theorem resetParser_parser : (resetParser s).parser = s.parser.reset := rfl
@[simp] theorem resetParser_rxParser : (resetParser s).rxParser = s.rxParser := rfl
@[simp] theorem resetParser_packet : (resetParser s).packet = none := rfl
@[simp] theorem resetParser_cur : (resetParser s).cur = s.cur := rfl
@[simp] theorem resetParser_stop : (resetParser s).stop = s.stop := rfl
@[simp] theorem resetParser_found : (resetParser s).found = s.found := rfl
@[simp] theorem resetParser_program : (resetParser s).program = s.program := rfl
@[simp] theorem resetParser_rx : (resetParser s).rx = s.rx := rfl
@[simp] theorem resetParser_draws : (resetParser s).draws = s.draws := rfl
@[simp] theorem resetParser_history : (resetParser s).history = s.history := rfl

end ResetParser

section ParserReset
variable (p : Parser)

@[simp] theorem reset_state : p.reset.state = .waitStart1 := rfl
@[simp] theorem reset_id : p.reset.id = p.id := rfl
@[simp] theorem reset_len : p.reset.len = p.len := rfl
@[simp] theorem reset_err : p.reset.err = p.err := rfl
@[simp] theorem reset_buf : p.reset.buf = [] := rfl
@[simp] theorem reset_chk : p.reset.chk = p.chk := rfl
@[simp] theorem reset_reset : p.reset.reset = p.reset := rfl
@[simp] theorem reset_terminal : p.reset.terminal = false := rfl
@[simp] theorem packet_id : p.packet.id = p.id := rfl
@[simp] theorem packet_length : p.packet.length = p.len := rfl
@[simp] theorem packet_error : p.packet.error = p.err := rfl
@[simp] theorem packet_params : p.packet.params = p.buf := rfl
@[simp] theorem packet_checksum : p.packet.checksum = p.chk := rfl

end ParserReset

section PlaceFrame
variable (bytes : List Byte) (s : State)

@[simp] theorem placeFrame_phase : (placeFrame bytes s).phase = .idle := rfl
@[simp] theorem placeFrame_op : (placeFrame bytes s).op = none := rfl
@[simp] theorem placeFrame_parser : (placeFrame bytes s).parser = s.parser := rfl
@[simp] theorem placeFrame_rxParser : (placeFrame bytes s).rxParser = s.rxParser := rfl
@[simp] theorem placeFrame_packet : (placeFrame bytes s).packet = s.packet := rfl
@[simp] theorem placeFrame_cur : (placeFrame bytes s).cur = s.cur := rfl
@[simp] theorem placeFrame_stop : (placeFrame bytes s).stop = s.stop := rfl
@[simp] theorem placeFrame_found : (placeFrame bytes s).found = s.found := rfl
@[simp] theorem placeFrame_program : (placeFrame bytes s).program = .frame bytes :: s.program := rfl
@[simp] theorem placeFrame_rx : (placeFrame bytes s).rx = s.rx := rfl
@[simp] theorem placeFrame_draws : (placeFrame bytes s).draws = s.draws := rfl
@[simp] theorem placeFrame_history : (placeFrame bytes s).history = s.history := rfl

end PlaceFrame

end Sys2Proof.Machine
end

