-- ==== Sys2Proof/Laws/Parser.lean ====
section
/-! SUPPORT. Laws/Parser.lean: what one byte does to the parser, and what feeding a run of bytes does. -/

namespace Sys2Proof.Machine

open Sys2Proof

/-- `process_byte` is refused exactly in a terminal state (R99). -/
theorem processByte_eq_none {pol : ShortLenPolicy} {p : Parser} {b : Byte} :
    processByte pol p b = none ↔ p.terminal = true := by
  unfold processByte Parser.terminal
  cases h : p.state <;> simp

/-- A parse result other than NOT_DONE comes exactly with a terminal state (R100): NONE with DONE, CHECKSUM with FAILED. -/
theorem processByte_result {pol : ShortLenPolicy} {p p' : Parser} {b : Byte} {r : ParseResult}
    (h : processByte pol p b = some (p', r)) :
    (r = .notDone ∧ p'.terminal = false) ∨ (r = .none ∧ p'.state = .done) ∨ (r = .checksum ∧ p'.state = .failed) := by
  unfold processByte at h
  cases hs : p.state <;> rw [hs] at h
  · simp only [stepStart1, Option.some.injEq] at h
    split at h <;> cases h <;> simp [Parser.terminal, hs]
  · simp only [stepStart2, Option.some.injEq] at h
    split at h <;> cases h <;> simp [Parser.terminal]
  · cases h
    simp [Parser.terminal]
  · cases h
    simp [Parser.terminal]
  · simp only [stepError, Option.some.injEq] at h
    split at h
    · cases h
      simp [Parser.terminal]
    · split at h
      · cases h
        simp [Parser.terminal]
      · cases pol <;> cases h <;> simp [Parser.terminal]
  · simp only [stepParam, Option.some.injEq] at h
    split at h
    · split at h <;> cases h <;> simp [Parser.terminal, hs]
    · cases h
      simp [Parser.terminal, hs]
  · simp only [stepChecksum, Option.some.injEq] at h
    split at h <;> cases h <;> simp
  · cases h
  · cases h

/-- One byte keeps the parser registers fitting their state (R20 to R23). -/
theorem processByte_ok {pol : ShortLenPolicy} {p p' : Parser} {b : Byte} {r : ParseResult}
    (h : processByte pol p b = some (p', r)) (hp : p.ok = true) : p'.ok = true := by
  unfold processByte at h
  unfold Parser.ok at hp
  cases hs : p.state <;> rw [hs] at h hp
  · simp only [stepStart1, Option.some.injEq] at h
    split at h <;> cases h <;> simp_all [Parser.ok]
  · simp only [stepStart2, Option.some.injEq] at h
    split at h <;> cases h <;> simp_all [Parser.ok]
  · cases h
    simp_all [Parser.ok]
  · cases h
    simp_all [Parser.ok]
  · simp only [stepError, Option.some.injEq] at h
    split at h
    · cases h
      simp only [Parser.ok, List.length_nil]
      split <;> simp <;> omega
    · split at h
      · cases h
        simp only [Parser.ok, List.length_nil, decide_eq_true_eq]
        omega
      · have hl : p.len.toNat < 2 := by omega
        cases pol <;> cases h <;> simp only [Parser.ok, List.length_nil, decide_eq_true_eq]
        · omega
        · omega
        · rw [if_neg (by omega)]
          simpa using hl
  · simp only [stepParam, Option.some.injEq] at h
    split at h
    · rename_i h3
      simp only [if_pos h3, decide_eq_true_eq] at hp
      split at h
      · rename_i h4
        cases h
        simpa [Parser.ok] using h4
      · rename_i h4
        cases h
        simp only [Parser.ok, hs, if_pos h3, decide_eq_true_eq]
        simp only [List.length_append, List.length_singleton] at h4 ⊢
        omega
    · cases h
      simpa [Parser.ok, hs] using hp
  · simp only [decide_eq_true_eq] at hp
    simp only [stepChecksum, Option.some.injEq] at h
    split at h
    · rename_i hb
      cases h
      simp only [Parser.ok, Bool.and_eq_true, decide_eq_true_eq, beq_iff_eq]
      exact ⟨hp, hb⟩
    · cases h
      simpa [Parser.ok] using hp
  · cases h
  · cases h

/-- A reset parser fits its state (R35). -/
theorem reset_ok (p : Parser) : p.reset.ok = true := rfl

@[simp] theorem reset_fresh (p : Parser) : p.reset.fresh = true := rfl

theorem fresh_iff {p : Parser} : p.fresh = true ↔ p.state = .waitStart1 ∧ p.buf = [] := by
  simp [Parser.fresh]

theorem initial_reset : Parser.initial.reset = Parser.initial := rfl

/-- A parser that fits its state holds a Packet in DONE (R24, R112). -/
theorem packet_ok {p : Parser} (h : p.ok = true) (hd : p.state = .done) : p.packet.ok = true := by
  rw [Parser.ok, hd] at h
  exact h

/-! ### Two parsers that differ only in registers not yet written -/

/-- How many of `P.id`, `P.len`, `P.err`, `P.chk` the parse has written in this state (R92 to R98), in that order. -/
def ParserState.written : ParserState → Nat
  | .waitStart1 => 0
  | .waitStart2 => 0
  | .waitId => 0
  | .waitLength => 1
  | .waitError => 2
  | .waitParam => 3
  | .waitChecksum => 3
  | .failed => 3
  | .done => 4

/-- The two parsers agree but for registers the parse has not written (R35). -/
structure Parser.Alike (p q : Parser) : Prop where
  state : p.state = q.state
  buf : p.buf = q.buf
  id : 1 ≤ p.state.written → p.id = q.id
  len : 2 ≤ p.state.written → p.len = q.len
  err : 3 ≤ p.state.written → p.err = q.err
  chk : 4 ≤ p.state.written → p.chk = q.chk

theorem alike_reset (p q : Parser) : p.reset.Alike q.reset := by
  constructor <;> simp [ParserState.written]

/-- Alike parsers in DONE hold the same Packet. -/
theorem Parser.Alike.packet {p q : Parser} (h : p.Alike q) (hd : p.state = .done) : p.packet = q.packet := by
  obtain ⟨-, h2, h3, h4, h5, h6⟩ := h
  simp only [hd, ParserState.written, Nat.reduceLeDiff, forall_true_left] at h3 h4 h5 h6
  simp [Parser.packet, h2, h3, h4, h5, h6]

/-- No register is read before it is written (R35): alike parsers give one result for a byte and stay alike. -/
theorem processByte_alike (pol : ShortLenPolicy) {p q : Parser} (h : p.Alike q) (b : Byte) :
    (processByte pol p b = none ∧ processByte pol q b = none) ∨
      ∃ p' q' r, processByte pol p b = some (p', r) ∧ processByte pol q b = some (q', r) ∧ p'.Alike q' := by
  obtain ⟨h1, h2, h3, h4, h5, h6⟩ := h
  unfold processByte
  rw [← h1]
  cases hs : p.state <;>
    simp only [hs, ParserState.written, Nat.reduceLeDiff, forall_true_left, false_implies] at h3 h4 h5 h6 ⊢
  case done => simp
  case failed => simp
  case waitStart1 =>
    unfold stepStart1
    refine .inr ?_
    split_ifs
    · exact ⟨_, _, _, rfl, rfl, by constructor <;> simp [ParserState.written, h2]⟩
    · exact ⟨_, _, _, rfl, rfl, by constructor <;> simp [ParserState.written, h2, ← h1, hs]⟩
  case waitStart2 =>
    unfold stepStart2
    refine .inr ?_
    split_ifs <;> exact ⟨_, _, _, rfl, rfl, by constructor <;> simp [ParserState.written, h2]⟩
  case waitId => exact .inr ⟨_, _, _, rfl, rfl, by constructor <;> simp [ParserState.written, h2]⟩
  case waitLength => exact .inr ⟨_, _, _, rfl, rfl, by constructor <;> simp [ParserState.written, h2, h3]⟩
  case waitError =>
    unfold stepError
    rw [← h4]
    refine .inr ?_
    split_ifs
    · exact ⟨_, _, _, rfl, rfl, by constructor <;> simp [ParserState.written, h3, h4]⟩
    · exact ⟨_, _, _, rfl, rfl, by constructor <;> simp [ParserState.written, h3, h4]⟩
    · cases pol <;> exact ⟨_, _, _, rfl, rfl, by constructor <;> simp [ParserState.written, h3, h4]⟩
  case waitParam =>
    unfold stepParam
    rw [← h4, ← h2]
    refine .inr ?_
    split_ifs
    · exact ⟨_, _, _, rfl, rfl, by constructor <;> simp [ParserState.written, h3, h4, h5]⟩
    · exact ⟨_, _, _, rfl, rfl, by constructor <;> simp [ParserState.written, h3, h4, h5, ← h1, hs]⟩
    · exact ⟨_, _, _, rfl, rfl, by constructor <;> simp [ParserState.written, h2, h3, h4, h5, ← h1, hs]⟩
  case waitChecksum =>
    unfold stepChecksum Parser.expected
    rw [← h3, ← h4, ← h5, ← h2]
    refine .inr ?_
    split_ifs <;> exact ⟨_, _, _, rfl, rfl, by constructor <;> simp [ParserState.written, h2, h3, h4, h5]⟩

/-! ### Feeding a run of bytes -/

theorem feed_nil (pol : ShortLenPolicy) (p : Parser) : feed pol p [] = some (p, .notDone, []) := rfl

/-- A byte that answers NOT_DONE passes the rest on. -/
theorem feed_cons_notDone {pol : ShortLenPolicy} {p p' : Parser} {b : Byte} (bs : List Byte)
    (h : processByte pol p b = some (p', .notDone)) : feed pol p (b :: bs) = feed pol p' bs := by
  rw [feed, h]

/-- A byte that ends the parse leaves the rest. -/
theorem feed_cons_end {pol : ShortLenPolicy} {p p' : Parser} {b : Byte} {r : ParseResult} (bs : List Byte)
    (h : processByte pol p b = some (p', r)) (hr : r ≠ .notDone) : feed pol p (b :: bs) = some (p', r, bs) := by
  rw [feed, h]
  cases r <;> simp_all

/-- Bytes that leave the parse unfinished can be followed by any others. -/
theorem feed_append {pol : ShortLenPolicy} {l : List Byte} : ∀ {p p' : Parser} {r : List Byte} (m : List Byte),
    feed pol p l = some (p', .notDone, r) → feed pol p (l ++ m) = feed pol p' m := by
  induction l with
  | nil =>
    intro p p' r m h
    cases h
    rfl
  | cons b bs ih =>
    intro p p' r m h
    rw [feed] at h
    match hb : processByte pol p b with
    | none => rw [hb] at h; cases h
    | some (q, .notDone) =>
      rw [hb] at h
      rw [List.cons_append, feed_cons_notDone _ hb]
      exact ih m h
    | some (q, .none) => rw [hb] at h; cases h
    | some (q, .checksum) => rw [hb] at h; cases h

/-- An unfinished parse has taken every byte. -/
theorem feed_notDone_rest {pol : ShortLenPolicy} {l : List Byte} : ∀ {p p' : Parser} {r : List Byte},
    feed pol p l = some (p', .notDone, r) → r = [] := by
  induction l with
  | nil =>
    intro p p' r h
    cases h
    rfl
  | cons b bs ih =>
    intro p p' r h
    rw [feed] at h
    match hb : processByte pol p b with
    | none => rw [hb] at h; cases h
    | some (q, .notDone) => rw [hb] at h; exact ih h
    | some (q, .none) => rw [hb] at h; cases h
    | some (q, .checksum) => rw [hb] at h; cases h

/-- A finished parse stays finished, whatever follows. -/
theorem feed_append_end {pol : ShortLenPolicy} {l : List Byte} : ∀ {p p' : Parser} {r : ParseResult} {rest : List Byte}
    (m : List Byte), r ≠ .notDone → feed pol p l = some (p', r, rest) → feed pol p (l ++ m) = some (p', r, rest ++ m) := by
  induction l with
  | nil =>
    intro p p' r rest m hr h
    cases h
    exact absurd rfl hr
  | cons b bs ih =>
    intro p p' r rest m hr h
    rw [feed] at h
    match hb : processByte pol p b with
    | none => rw [hb] at h; cases h
    | some (q, .notDone) =>
      rw [hb] at h
      rw [List.cons_append, feed_cons_notDone _ hb]
      exact ih m hr h
    | some (q, .none) =>
      rw [hb] at h
      cases h
      rw [List.cons_append, feed_cons_end _ hb (by simp)]
    | some (q, .checksum) =>
      rw [hb] at h
      cases h
      rw [List.cons_append, feed_cons_end _ hb (by simp)]

/-- The five bytes up to `error_or_cmd` (R60), fed to a parser that hunts for a header. -/
theorem feed_head (pol : ShortLenPolicy) {p : Parser} (hs : p.state = .waitStart1) (id n c : Byte) (l : List Byte) :
    feed pol p (hdr :: hdr :: id :: n :: c :: l) =
      feed pol { p with state := .waitError, id := id, len := n } (c :: l) := by
  rw [feed_cons_notDone (p' := { p with state := .waitStart2 }) _ (by simp [processByte, hs, stepStart1]),
    feed_cons_notDone (p' := { p with state := .waitId }) _ (by simp [processByte, stepStart2]),
    feed_cons_notDone (p' := { p with state := .waitLength, id := id }) _ (by simp [processByte, stepId]),
    feed_cons_notDone (p' := { p with state := .waitError, id := id, len := n }) _ (by simp [processByte, stepLength])]

/-- The parameters of a frame: exactly `N − 2` bytes, in order (R97). -/
theorem feed_params (pol : ShortLenPolicy) (n : Byte) (hn : 3 ≤ n.toNat) (ps : List Byte) (l : List Byte) :
    ∀ p : Parser, p.state = .waitParam → p.len = n → ps ≠ [] → p.buf.length + ps.length = n.toNat - 2 →
      feed pol p (ps ++ l) = feed pol { p with state := .waitChecksum, buf := p.buf ++ ps } l := by
  induction ps with
  | nil => exact fun p _ _ h => absurd rfl h
  | cons b bs ih =>
    intro p hs hl _ hc
    subst hl
    rw [List.length_cons] at hc
    by_cases hb : bs = []
    · subst hb
      rw [List.cons_append, feed_cons_notDone (p' := { p with state := .waitChecksum, buf := p.buf ++ [b] })]
      · rfl
      · simp only [processByte, hs, stepParam, if_pos hn, Option.some.injEq]
        rw [if_pos (by simpa using hc)]
    · have hpos : 0 < bs.length := List.length_pos_of_ne_nil hb
      rw [List.cons_append, feed_cons_notDone (p' := { p with buf := p.buf ++ [b] }),
        ih { p with buf := p.buf ++ [b] } hs rfl hb (by simp; omega)]
      · simp
      · simp only [processByte, hs, stepParam, if_pos hn, Option.some.injEq]
        rw [if_neg (by simp; omega)]

/-- The parameters of a frame that breaks off among them. -/
theorem feed_params_cut (pol : ShortLenPolicy) (n : Byte) (hn : 3 ≤ n.toNat) (ps : List Byte) :
    ∀ p : Parser, p.state = .waitParam → p.len = n → p.buf.length + ps.length < n.toNat - 2 →
      feed pol p ps = some ({ p with buf := p.buf ++ ps }, .notDone, []) := by
  induction ps with
  | nil => exact fun p _ _ _ => by simp [feed]
  | cons b bs ih =>
    intro p hs hl hc
    subst hl
    rw [List.length_cons] at hc
    rw [feed_cons_notDone (p' := { p with buf := p.buf ++ [b] }),
      ih { p with buf := p.buf ++ [b] } hs rfl (by simp; omega)]
    · simp
    · simp only [processByte, hs, stepParam, if_pos hn, Option.some.injEq]
      rw [if_neg (by simp; omega)]

/-- `N` fits its byte for at most 253 parameters (R122). -/
theorem lengthByte_toNat {ps : List Byte} (h : ps.length ≤ 253) : (lengthByte ps).toNat = ps.length + 2 := by
  simp only [lengthByte, BitVec.toNat_ofNat]
  omega

/-- The registers after a whole frame's bytes up to its checksum (R94 to R97). -/
def Parser.framed (p : Parser) (id c : Byte) (ps : List Byte) : Parser :=
  { p with state := .waitChecksum, id := id, len := lengthByte ps, err := c, buf := ps }

/-- A frame's bytes up to its checksum take the parser to WAIT_CHECKSUM (R93 to R97). -/
theorem feed_body (pol : ShortLenPolicy) {p : Parser} (hs : p.state = .waitStart1) (id c : Byte) {ps : List Byte}
    (hps : ps.length ≤ 253) (l : List Byte) :
    feed pol p ([hdr, hdr, id, lengthByte ps, c] ++ ps ++ l) = feed pol (p.framed id c ps) l := by
  have hlen := lengthByte_toNat hps
  simp only [List.cons_append, List.nil_append]
  rw [feed_head pol hs]
  by_cases h0 : ps = []
  · subst h0
    rw [feed_cons_notDone (p' := p.framed id c [])]
    · rfl
    · simp only [List.length_nil] at hlen
      simp [processByte, stepError, hlen, Parser.framed]
  · have hpos : 0 < ps.length := List.length_pos_of_ne_nil h0
    rw [feed_cons_notDone
        (p' := { p with state := .waitParam, id := id, len := lengthByte ps, err := c, buf := [] }),
      feed_params pol (lengthByte ps) (by omega) ps l _ rfl rfl h0 (by simp; omega)]
    · simp [Parser.framed]
    · simp only [processByte, stepError, Option.some.injEq]
      rw [if_pos (by omega)]

/-- Alike parsers give one result for a run of bytes, leave the same bytes over and stay alike. -/
theorem feed_alike {pol : ShortLenPolicy} {l : List Byte} : ∀ {p q p' : Parser} {r : ParseResult} {rest : List Byte},
    p.Alike q → feed pol p l = some (p', r, rest) → ∃ q', feed pol q l = some (q', r, rest) ∧ p'.Alike q' := by
  induction l with
  | nil =>
    intro p q p' r rest h hf
    simp only [feed, Option.some.injEq, Prod.mk.injEq] at hf
    obtain ⟨rfl, rfl, rfl⟩ := hf
    exact ⟨q, rfl, h⟩
  | cons b bs ih =>
    intro p q p' r rest h hf
    rcases processByte_alike pol h b with ⟨h1, -⟩ | ⟨p₁, q₁, r₁, h1, h2, h3⟩
    · rw [feed, h1] at hf
      cases hf
    · cases r₁ with
      | notDone =>
        rw [feed_cons_notDone _ h1] at hf
        rw [feed_cons_notDone _ h2]
        exact ih h3 hf
      | none =>
        rw [feed_cons_end (r := .none) _ h1 (by simp)] at hf
        rw [feed_cons_end (r := .none) _ h2 (by simp)]
        simp only [Option.some.injEq, Prod.mk.injEq] at hf
        obtain ⟨rfl, rfl, rfl⟩ := hf
        exact ⟨q₁, rfl, h3⟩
      | checksum =>
        rw [feed_cons_end (r := .checksum) _ h1 (by simp)] at hf
        rw [feed_cons_end (r := .checksum) _ h2 (by simp)]
        simp only [Option.some.injEq, Prod.mk.injEq] at hf
        obtain ⟨rfl, rfl, rfl⟩ := hf
        exact ⟨q₁, rfl, h3⟩

/-- A whole frame ends the parse in DONE on its last byte (R101). -/
theorem feed_frame (pol : ShortLenPolicy) {p : Parser} (hs : p.state = .waitStart1) (id c : Byte) {ps : List Byte}
    (hps : ps.length ≤ 253) (l : List Byte) :
    feed pol p (frame id c ps ++ l) =
      some ({ p.framed id c ps with state := .done, chk := checksum id (lengthByte ps) c ps }, .none, l) := by
  rw [frame, List.append_assoc, feed_body pol hs id c hps]
  rw [List.singleton_append, feed_cons_end (r := .none) _ _ (by simp)]
  simp [processByte, Parser.framed, stepChecksum, Parser.expected]

/-- The same frame with another checksum byte ends the parse in FAILED (R98). -/
theorem feed_frame_bad (pol : ShortLenPolicy) {p : Parser} (hs : p.state = .waitStart1) (id c : Byte) {ps : List Byte}
    (hps : ps.length ≤ 253) {chk : Byte} (hc : chk ≠ checksum id (lengthByte ps) c ps) (l : List Byte) :
    feed pol p ([hdr, hdr, id, lengthByte ps, c] ++ ps ++ chk :: l) =
      some ({ p.framed id c ps with state := .failed, chk := chk }, .checksum, l) := by
  rw [feed_body pol hs id c hps, feed_cons_end (r := .checksum) _ _ (by simp)]
  have hne : chk ≠ (p.framed id c ps).expected := hc
  show some (stepChecksum (p.framed id c ps) chk) = _
  rw [stepChecksum, if_neg hne]

/-- A frame that breaks off leaves the parse unfinished (R100). -/
theorem feed_take (pol : ShortLenPolicy) {p : Parser} (hs : p.state = .waitStart1) (id c : Byte) {ps : List Byte}
    (hps : ps.length ≤ 253) {k : Nat} (hk : k < ps.length + 6) :
    ∃ q, feed pol p ((frame id c ps).take k) = some (q, .notDone, []) := by
  by_contra hcon
  have key : ∀ q r rest, feed pol p ((frame id c ps).take k) = some (q, r, rest) → r = .notDone := by
    intro q r rest h
    by_contra hr
    have hf := feed_append_end ((frame id c ps).drop k) hr h
    rw [List.take_append_drop] at hf
    have hw := feed_frame pol hs id c hps []
    rw [List.append_nil, hf] at hw
    simp only [Option.some.injEq, Prod.mk.injEq, List.append_eq_nil_iff, List.drop_eq_nil_iff] at hw
    have := hw.2.2.2
    simp only [frame, List.length_append, List.length_cons, List.length_nil] at this
    omega
  match hf : feed pol p ((frame id c ps).take k) with
  | some (q, r, rest) =>
    obtain rfl := key q r rest hf
    obtain rfl := feed_notDone_rest hf
    exact hcon ⟨q, hf⟩
  | none =>
    have hnone : ∀ (l m : List Byte) (p : Parser), feed pol p l = none → feed pol p (l ++ m) = none := by
      intro l m
      induction l with
      | nil => exact fun p h => nomatch h
      | cons b bs ih =>
        intro p h
        rw [feed] at h
        rw [List.cons_append, feed]
        match hb : processByte pol p b with
        | none => rfl
        | some (q, .notDone) => rw [hb] at h; exact ih q h
        | some (q, .none) => rw [hb] at h; cases h
        | some (q, .checksum) => rw [hb] at h; cases h
    have hw := feed_frame pol hs id c hps []
    rw [List.append_nil, ← List.take_append_drop k (frame id c ps), hnone _ _ _ hf] at hw
    cases hw

/-- Where a header hunt stands after noise (R92, R93): a last byte 0xFF is a first header byte, anything else is forgotten. -/
def Parser.afterNoise (p : Parser) (m : List Byte) : Parser :=
  { p with state := if m.getLast? = some hdr then .waitStart2 else .waitStart1 }

theorem Parser.afterNoise_of_ne (p : Parser) {m : List Byte} (hs : p.state = .waitStart1) (h : m.getLast? ≠ some hdr) :
    p.afterNoise m = p := by
  cases p
  simp_all [Parser.afterNoise]

/-- Noise costs a header hunt nothing but the place it stands at (R92, R93): the bytes after it are parsed from `afterNoise`. -/
theorem feed_noise (pol : ShortLenPolicy) (l : List Byte) :
    ∀ m : List Byte, noise m = true → ∀ p : Parser, p.state = .waitStart1 →
      feed pol p (m ++ l) = feed pol (p.afterNoise m) l
  | [], _, p, hs => by
    rw [List.nil_append, p.afterNoise_of_ne hs (by simp)]
  | [b], _, p, hs => by
    rw [List.singleton_append, feed_cons_notDone (p' := p.afterNoise [b])]
    by_cases hb : b = hdr
    · simp [processByte, hs, stepStart1, Parser.afterNoise, hb]
    · rw [p.afterNoise_of_ne hs (by simpa using hb)]
      simp [processByte, hs, stepStart1, hb]
  | a :: b :: m, h, p, hs => by
    simp only [noise, Bool.and_eq_true, Bool.not_eq_true', Bool.and_eq_false_iff, beq_eq_false_iff_ne] at h
    by_cases ha : a = hdr
    · have hb : b ≠ hdr := by tauto
      have hm : noise m = true := by
        cases m with
        | nil => rfl
        | cons d m =>
          have := h.2
          simp only [noise, Bool.and_eq_true] at this
          exact this.2
      subst ha
      rw [List.cons_append, feed_cons_notDone (p' := { p with state := .waitStart2 }) _ (by simp [processByte, hs, stepStart1]),
        List.cons_append, feed_cons_notDone (p' := { p with state := .waitStart1 }) _ (by simp [processByte, stepStart2, hb]),
        feed_noise pol l m hm _ rfl]
      congr 1
      cases m with
      | nil => simp [Parser.afterNoise, hb]
      | cons d m => simp [Parser.afterNoise]
    · rw [List.cons_append, feed_cons_notDone (p' := p) _ (by simp [processByte, hs, stepStart1, ha]),
        feed_noise pol l (b :: m) h.2 p hs]
      simp [Parser.afterNoise]

end Sys2Proof.Machine
end

