-- ==== Sys2Proof/Laws/Decode.lean ====
section
/-! SUPPORT. Laws/Decode.lean: one lemma per part of the decoder, in both directions. -/

namespace Sys2Proof

/-- Cutting a frame gives back its fields (R60, R61). -/
theorem splitFrame_frame {id c : Byte} {ps : List Byte} (h : ps.length ≤ 253) (rest : List Byte) :
    splitFrame (frame id c ps ++ rest) = .ok (⟨id, c, ps⟩, rest) := by
  have hl := Machine.lengthByte_toNat h
  simp [splitFrame, frame, hl]

/-- What is cut off is the frame of its fields (R60, R61). -/
theorem splitFrame_eq_ok {bytes rest : List Byte} {f : RawFrame} (h : splitFrame bytes = .ok (f, rest)) :
    bytes = frame f.id f.code f.params ++ rest ∧ f.params.length ≤ 253 := by
  unfold splitFrame at h
  split at h
  · rename_i h1 h2 id n c l
    split_ifs at h with ha hb
    split at h
    · cases h
    · rename_i chk tail hd
      simp only at h
      split_ifs at h with hk
      cases h
      have hlen : (l.take (n.toNat - 2)).length = n.toNat - 2 := by
        have hd' := congrArg List.length hd
        simp only [List.length_drop, List.length_cons] at hd'
        simp
        omega
      have hn := n.isLt
      have hl : lengthByte (l.take (n.toNat - 2)) = n := by
        apply BitVec.eq_of_toNat_eq
        rw [lengthByte, hlen, BitVec.toNat_ofNat]
        omega
      refine ⟨?_, by rw [hlen]; omega⟩
      rw [frame, hl, ha.1, ha.2, ← hk]
      conv_lhs => rw [← List.take_append_drop (n.toNat - 2) l, hd]
      simp
  · cases h

/-- Cutting the device blocks of a SYNC_WRITE gives back the blocks (R67). -/
theorem splitBlocks_flatMap (len : Nat) (bs : List DeviceBlock) (h : ∀ b ∈ bs, b.values.length = len) :
    ∀ fuel, (bs.flatMap fun b => b.id :: b.values).length ≤ fuel →
      splitBlocks len fuel (bs.flatMap fun b => b.id :: b.values) = some bs := by
  induction bs with
  | nil => intro fuel _; cases fuel <;> rfl
  | cons b bs ih =>
    intro fuel hf
    have hb := h b (by simp)
    cases fuel with
    | zero => simp at hf
    | succ fuel =>
      simp only [List.flatMap_cons, List.cons_append, List.length_cons, List.length_append] at hf
      rw [List.flatMap_cons, List.cons_append, splitBlocks, if_neg (by simp; omega),
        List.drop_append_of_le_length (by omega), List.take_append_of_le_length (by omega), ← hb, List.drop_length,
        List.take_length, List.nil_append, hb, ih (fun x hx => h x (by simp [hx])) fuel (by omega)]
      rfl

/-- The blocks that are cut have the common length and are the bytes (R67). -/
theorem splitBlocks_eq_some (len : Nat) : ∀ (fuel : Nat) (l : List Byte) (bs : List DeviceBlock),
    splitBlocks len fuel l = some bs →
      l = (bs.flatMap fun b => b.id :: b.values) ∧ ∀ b ∈ bs, b.values.length = len
  | fuel, [], bs, h => by
    have : bs = [] := by cases fuel <;> simp [splitBlocks] at h <;> exact h
    subst this
    simp
  | 0, a :: l, bs, h => by simp [splitBlocks] at h
  | fuel + 1, a :: l, bs, h => by
    rw [splitBlocks] at h
    split_ifs at h with hl
    obtain ⟨bs', hb, rfl⟩ := Option.map_eq_some_iff.1 h
    obtain ⟨e, hb'⟩ := splitBlocks_eq_some len fuel _ _ hb
    refine ⟨by rw [List.flatMap_cons, ← e]; simp, fun b hb => ?_⟩
    rcases List.mem_cons.1 hb with rfl | hb
    · simp; omega
    · exact hb' b hb

/-- With injective codes a code byte stands for its own command (R65). -/
theorem command?_code {codes : CmdCodes} (h : codes.toList.Nodup) (c : Command) :
    codes.command? (codes.code c) = some c := by
  simp only [CmdCodes.toList, List.nodup_cons, List.mem_cons, not_or, List.not_mem_nil, not_false_eq_true] at h
  cases c <;> simp only [CmdCodes.code, CmdCodes.command?] <;> simp_all [eq_comm]

/-- A code byte that stands for a command is that command's code. -/
theorem command?_eq_some {codes : CmdCodes} {b : Byte} {c : Command} (h : codes.command? b = some c) :
    b = codes.code c := by
  unfold CmdCodes.command? at h
  split_ifs at h <;> cases h <;> assumption

/-- The builder's IDs are all but 255 (R123). -/
theorem builderId_iff {id : Byte} : id.toNat ≤ 254 ↔ id ≠ 255#8 := by
  constructor
  · rintro h rfl
    exact absurd h (by decide)
  · intro h
    have h' : id.toNat ≠ 255 := fun e => h (BitVec.eq_of_toNat_eq e)
    have := id.isLt
    omega

end Sys2Proof
end

