-- ==== Sys2Proof/Laws/Ops.lean ====
section
/-! SUPPORT. Laws/Ops.lean: for each shared operation, what it does, said once. -/

namespace Sys2Proof.Machine

open Sys2Proof

@[simp] theorem andThen_next (s : State) (f : State → Result) : andThen (.next s) f = f s := rfl
@[simp] theorem andThen_fault (r : Fault) (f : State → Result) : andThen (.fault r) f = .fault r := rfl
@[simp] theorem andThen_refused (r : Refusal) (f : State → Result) : andThen (.refused r) f = .refused r := rfl

theorem andThen_assoc (o : Result) (f g : State → Result) :
    andThen (andThen o f) g = andThen o fun s => andThen (f s) g := by
  cases o <;> rfl

/-- `andThen` reaches a next state exactly through one. -/
theorem andThen_eq_next {o : Result} {f : State → Result} {t : State} :
    andThen o f = .next t ↔ ∃ s, o = .next s ∧ f s = .next t := by
  cases o <;> simp [andThen]

/-- An operation issued in an idle state runs its body with itself in `C.op` (R140). -/
theorem issue_idle (i : Instr) {s : State} (h : s.Idle) (body : State → Result) :
    issue i s body = body { s with op := some i } := by
  simp [issue, h.1, h.2]

/-- An operation issued while another runs is refused (R216). -/
theorem issue_busy (i : Instr) {s : State} (h : ¬ s.Idle) (body : State → Result) :
    issue i s body = .refused .busy := by
  unfold issue
  rw [if_neg h]

/-- A next state of an issued operation comes from its body, run in an idle state. -/
theorem issue_eq_next {i : Instr} {s t : State} {body : State → Result} :
    issue i s body = .next t ↔ s.Idle ∧ body { s with op := some i } = .next t := by
  by_cases h : s.Idle
  · rw [issue_idle i h]
    exact ⟨fun e => ⟨h, e⟩, fun e => e.2⟩
  · rw [issue_busy i h]
    simp only [reduceCtorEq, false_iff, not_and]
    exact fun e => absurd e h

/-- The builder's frame exists exactly for an ID of 0..254 and at most 253 parameters (R123). -/
theorem buildFrame_eq_ok {codes : CmdCodes} {id : Byte} {c : CommandArg} {ps f : List Byte} :
    buildFrame codes id c ps = .ok f ↔
      id.toNat ≤ 254 ∧ ps.length ≤ 253 ∧ f = frame id (commandByte codes c) ps := by
  unfold buildFrame builderId
  split_ifs with h1 h2 <;> simp_all [eq_comm]

theorem buildFrame_ok (codes : CmdCodes) {id : Byte} (c : CommandArg) {ps : List Byte}
    (hid : id.toNat ≤ 254) (hps : ps.length ≤ 253) :
    buildFrame codes id c ps = .ok (frame id (commandByte codes c) ps) :=
  buildFrame_eq_ok.2 ⟨hid, hps, rfl⟩

/-- What `fill_and_write_packet` does when it goes on: one transmit event and phase TX, nothing else (R141). -/
theorem transmit_eq_next {id : Byte} {c : CommandArg} {ps : List Byte} {s t : State} :
    transmit id c ps s = .next t ↔
      id.toNat ≤ 254 ∧ ps.length ≤ 253 ∧
        t = { s with phase := .tx, history := s.history ++ [.tx (frame id (commandByte s.cfg.codes c) ps)] } := by
  unfold transmit
  cases h : buildFrame s.cfg.codes id c ps with
  | error r =>
    have : ¬ (id.toNat ≤ 254 ∧ ps.length ≤ 253) := fun hh => by
      rw [buildFrame_ok _ c hh.1 hh.2] at h
      cases h
    simp only [reduceCtorEq, false_iff]
    tauto
  | ok f =>
    obtain ⟨h1, h2, rfl⟩ := buildFrame_eq_ok.1 h
    simp [h1, h2, eq_comm]

theorem transmit_ok {id : Byte} (c : CommandArg) {ps : List Byte} (s : State)
    (hid : id.toNat ≤ 254) (hps : ps.length ≤ 253) :
    transmit id c ps s =
      .next { s with phase := .tx, history := s.history ++ [.tx (frame id (commandByte s.cfg.codes c) ps)] } :=
  transmit_eq_next.2 ⟨hid, hps, rfl⟩

/-- `fill_and_write_packet` never faults (R141). -/
theorem transmit_ne_fault (id : Byte) (c : CommandArg) (ps : List Byte) (s : State) (r : Fault) :
    transmit id c ps s ≠ .fault r := by
  unfold transmit
  split <;> simp

/-- The transmit half alone: the frame, then the return (R74). -/
theorem sendOnly_ok {id : Byte} (c : CommandArg) {ps : List Byte} (s : State)
    (hid : id.toNat ≤ 254) (hps : ps.length ≤ 253) :
    sendOnly id c ps s =
      .next { s with
        phase := .idle
        op := none
        history := s.history ++ [.tx (frame id (commandByte s.cfg.codes c) ps), .result (.returned .unit)] } := by
  simp [sendOnly, transmit_ok c s hid hps, complete]

theorem sendOnly_eq_next {id : Byte} {c : CommandArg} {ps : List Byte} {s t : State} :
    sendOnly id c ps s = .next t ↔
      id.toNat ≤ 254 ∧ ps.length ≤ 253 ∧
        t = { s with
          phase := .idle
          op := none
          history := s.history ++ [.tx (frame id (commandByte s.cfg.codes c) ps), .result (.returned .unit)] } := by
  constructor
  · intro h
    obtain ⟨u, hu, hc⟩ := andThen_eq_next.1 h
    obtain ⟨h1, h2, rfl⟩ := transmit_eq_next.1 hu
    refine ⟨h1, h2, ?_⟩
    simp only [complete, Host.Outcome.next.injEq] at hc
    rw [← hc]
    simp
  · rintro ⟨h1, h2, rfl⟩
    exact sendOnly_ok c s h1 h2

/-- A synchronous command starts its receive loop right after its one transmit event (R50). -/
theorem exchange_ok {id : Byte} (c : CommandArg) {ps : List Byte} (s : State)
    (hid : id.toNat ≤ 254) (hps : ps.length ≤ 253) :
    exchange id c ps s =
      drain { s with
        phase := .rx
        rxParser := s.rxParser.reset
        packet := none
        history := s.history ++ [.tx (frame id (commandByte s.cfg.codes c) ps)] } := by
  simp [exchange, transmit_ok c s hid hps, startReceive]

/-- An accessor reads the Packet the host holds (log entry 4). -/
theorem readable_held {s : State} {k : Packet} (h : s.packet = some k) : s.readable = some k := by
  simp [State.readable, h]

/-- With no Packet held, an accessor reads the host's parser in DONE (R106). -/
theorem readable_parser {s : State} (h : s.packet = none) :
    s.readable = if s.parser.state = .done then some s.parser.packet else none := by
  simp [State.readable, h]

/-- An accessor with a packet to read gives it to its value; with none it is refused (R106). -/
theorem accessor_some {s : State} {k : Packet} (h : s.readable = some k) (v : Packet → State → Result) :
    accessor s v = v k s := by
  simp [accessor, h]

theorem accessor_none {s : State} (h : s.readable = none) (v : Packet → State → Result) :
    accessor s v = .refused .accessorNotDone := by
  simp [accessor, h]

theorem accessor_eq_next {s t : State} {v : Packet → State → Result} :
    accessor s v = .next t ↔ ∃ k, s.readable = some k ∧ v k s = .next t := by
  unfold accessor
  split <;> simp_all

end Sys2Proof.Machine
end

