-- ==== Sys2Proof/Laws/Receive.lean ====
section
/-! SUPPORT. Laws/Receive.lean: what one receive event can do, and what the receive loop does with a run of answers. -/

namespace Sys2Proof.Machine

open Sys2Proof

@[simp] theorem answerBytes_nil : answerBytes [] = [] := rfl
@[simp] theorem answerBytes_cons (b : Byte) (l : List Byte) : answerBytes (b :: l) = .byte b :: answerBytes l := rfl
@[simp] theorem received_nil : received [] = [] := rfl
@[simp] theorem received_cons (a : RxAnswer) (l : List RxAnswer) : received (a :: l) = .rx a :: received l := rfl
@[simp] theorem received_append (l m : List RxAnswer) : received (l ++ m) = received l ++ received m :=
  List.map_append

/-- The end of the receive phase of an operation that awaits a packet. -/
theorem endReceive_eq {s : State} {i : Instr} {k : Reply} (v : Verdict) (hop : s.op = some i)
    (hk : replyOf i = some k) :
    endReceive v s = settle k v s.rxParser { s with rxParser := s.rxParser.reset } := by
  simp [endReceive, hop, hk]

theorem receive_timeout (s : State) :
    receive .timeout s = endReceive .timeout (s.record (.rx .timeout)) := rfl

theorem receive_notDone {s : State} {b : Byte} {p : Parser}
    (h : processByte s.cfg.shortLen s.rxParser b = some (p, .notDone)) :
    receive (.byte b) s = .next { s.record (.rx (.byte b)) with rxParser := p } := by
  simp [receive, h]

theorem receive_good {s : State} {b : Byte} {p : Parser}
    (h : processByte s.cfg.shortLen s.rxParser b = some (p, .none)) :
    receive (.byte b) s = endReceive .good { s.record (.rx (.byte b)) with rxParser := p } := by
  simp [receive, h]

theorem receive_checksum {s : State} {b : Byte} {p : Parser}
    (h : processByte s.cfg.shortLen s.rxParser b = some (p, .checksum)) :
    receive (.byte b) s = endReceive .checksum { s.record (.rx (.byte b)) with rxParser := p } := by
  simp [receive, h]

/-- What one receive event can do, its verdict included (R142). -/
theorem receive_cases (a : RxAnswer) (s : State) :
    (∃ b p, a = .byte b ∧ processByte s.cfg.shortLen s.rxParser b = some (p, .notDone) ∧
      receive a s = .next { s.record (.rx a) with rxParser := p }) ∨
    (∃ b p, a = .byte b ∧ processByte s.cfg.shortLen s.rxParser b = some (p, .none) ∧
      receive a s = endReceive .good { s.record (.rx a) with rxParser := p }) ∨
    (∃ b p, a = .byte b ∧ processByte s.cfg.shortLen s.rxParser b = some (p, .checksum) ∧
      receive a s = endReceive .checksum { s.record (.rx a) with rxParser := p }) ∨
    (a = .timeout ∧ receive a s = endReceive .timeout (s.record (.rx a))) ∨
    (s.rxParser.terminal = true ∧ receive a s = .refused .processByteTerminal) := by
  cases a with
  | timeout => exact .inr (.inr (.inr (.inl ⟨rfl, rfl⟩)))
  | byte b =>
    match h : processByte s.cfg.shortLen s.rxParser b with
    | none => exact .inr (.inr (.inr (.inr ⟨processByte_eq_none.1 h, by simp [receive, h]⟩)))
    | some (p, .notDone) => exact .inl ⟨b, p, rfl, h, receive_notDone h⟩
    | some (p, .none) => exact .inr (.inl ⟨b, p, rfl, h, receive_good h⟩)
    | some (p, .checksum) => exact .inr (.inr (.inl ⟨b, p, rfl, h, receive_checksum h⟩))

/-! ### The receive loop -/

theorem drainQueue_nil (s : State) : drainQueue [] s = .next { s with rx := [] } := rfl

/-- An ended operation takes no more answers (R184). -/
theorem drainQueue_ended {s : State} (h : s.op = none) (q : List RxAnswer) :
    drainQueue q s = .next { s with rx := q } := by
  cases q <;> simp [drainQueue, h]

/-- A running operation takes one answer at a time (R142). -/
theorem drainQueue_cons {s : State} {i : Instr} (h : s.op = some i) (a : RxAnswer) (q : List RxAnswer) :
    drainQueue (a :: q) s = andThen (receive a s) (drainQueue q) := by
  simp [drainQueue, h]

/-- Bytes that leave the parse unfinished leave the operation running. -/
theorem drainQueue_unfinished {l : List Byte} : ∀ {s : State} {i : Instr} {p : Parser} (q : List RxAnswer),
    s.op = some i → feed s.cfg.shortLen s.rxParser l = some (p, .notDone, []) →
      drainQueue (answerBytes l ++ q) s =
        drainQueue q { s with rxParser := p, history := s.history ++ received (answerBytes l) } := by
  induction l with
  | nil =>
    intro s i p q _ h
    simp only [feed, Option.some.injEq, Prod.mk.injEq, and_true] at h
    subst h
    simp
  | cons b bs ih =>
    intro s i p q hop h
    rw [feed] at h
    match hb : processByte s.cfg.shortLen s.rxParser b with
    | none => rw [hb] at h; cases h
    | some (p₁, .notDone) =>
      rw [hb] at h
      rw [answerBytes_cons, List.cons_append, drainQueue_cons hop, receive_notDone hb, andThen_next,
        ih (s := { s.record (.rx (.byte b)) with rxParser := p₁ }) (i := i) q hop h]
      simp [State.record]
    | some (p₁, .none) => rw [hb] at h; cases h
    | some (p₁, .checksum) => rw [hb] at h; cases h

/-- Bytes on which the parser ends in DONE end the receive phase as a good packet. -/
theorem drainQueue_good {l : List Byte} : ∀ {s : State} {i : Instr} {p : Parser} (q : List RxAnswer),
    s.op = some i → feed s.cfg.shortLen s.rxParser l = some (p, .none, []) →
      drainQueue (answerBytes l ++ q) s =
        andThen (endReceive .good { s with rxParser := p, history := s.history ++ received (answerBytes l) })
          (drainQueue q) := by
  induction l with
  | nil =>
    intro s i p q _ h
    cases h
  | cons b bs ih =>
    intro s i p q hop h
    rw [feed] at h
    rw [answerBytes_cons, List.cons_append, drainQueue_cons hop]
    match hb : processByte s.cfg.shortLen s.rxParser b with
    | none => rw [hb] at h; cases h
    | some (p₁, .notDone) =>
      rw [hb] at h
      rw [receive_notDone hb, andThen_next,
        ih (s := { s.record (.rx (.byte b)) with rxParser := p₁ }) (i := i) q hop h]
      simp [State.record]
    | some (p₁, .none) =>
      rw [hb] at h
      simp only [Option.some.injEq, Prod.mk.injEq] at h
      obtain ⟨rfl, -, rfl⟩ := h
      rw [receive_good hb]
      simp [State.record]
    | some (p₁, .checksum) => rw [hb] at h; cases h

/-- Bytes on which the parser ends in FAILED end the receive phase as a checksum failure. -/
theorem drainQueue_checksum {l : List Byte} : ∀ {s : State} {i : Instr} {p : Parser} (q : List RxAnswer),
    s.op = some i → feed s.cfg.shortLen s.rxParser l = some (p, .checksum, []) →
      drainQueue (answerBytes l ++ q) s =
        andThen (endReceive .checksum { s with rxParser := p, history := s.history ++ received (answerBytes l) })
          (drainQueue q) := by
  induction l with
  | nil =>
    intro s i p q _ h
    cases h
  | cons b bs ih =>
    intro s i p q hop h
    rw [feed] at h
    rw [answerBytes_cons, List.cons_append, drainQueue_cons hop]
    match hb : processByte s.cfg.shortLen s.rxParser b with
    | none => rw [hb] at h; cases h
    | some (p₁, .notDone) =>
      rw [hb] at h
      rw [receive_notDone hb, andThen_next,
        ih (s := { s.record (.rx (.byte b)) with rxParser := p₁ }) (i := i) q hop h]
      simp [State.record]
    | some (p₁, .checksum) =>
      rw [hb] at h
      simp only [Option.some.injEq, Prod.mk.injEq] at h
      obtain ⟨rfl, -, rfl⟩ := h
      rw [receive_checksum hb]
      simp [State.record]
    | some (p₁, .none) => rw [hb] at h; cases h

/-- TIMEOUT after bytes that end nothing ends the receive phase as a timeout (R201). -/
theorem drainQueue_timeout {l : List Byte} {s : State} {i : Instr} {p : Parser} (q : List RxAnswer)
    (hop : s.op = some i) (h : feed s.cfg.shortLen s.rxParser l = some (p, .notDone, [])) :
    drainQueue (answerBytes l ++ .timeout :: q) s =
      andThen (endReceive .timeout
        { s with rxParser := p, history := s.history ++ received (answerBytes l ++ [.timeout]) }) (drainQueue q) := by
  rw [drainQueue_unfinished _ hop h, drainQueue_cons (i := i) (by exact hop), receive_timeout]
  simp [State.record]

/-! ### The queue itself is read by the loop alone -/

/-- The same outcome with another queue of answers. -/
def withRx (x : List RxAnswer) (o : Result) : Result := andThen o fun t => .next { t with rx := x }

theorem scanNext_rx (x : List RxAnswer) (s : State) : scanNext { s with rx := x } = withRx x (scanNext s) := by
  unfold scanNext withRx
  by_cases h1 : s.cur < s.stop
  · by_cases h2 : 253 < s.cur
    · simp [h1, h2]
    · simp only [h1, h2, if_true, if_false, transmit]
      cases buildFrame s.cfg.codes (BitVec.ofNat 8 s.cur) (.cmd .ping) [] <;> rfl
  · simp [h1, complete]

theorem settle_rx (x : List RxAnswer) (k : Reply) (v : Verdict) (p : Parser) (s : State) :
    settle k v p { s with rx := x } = withRx x (settle k v p s) := by
  have hf : scanFound { s with rx := x } = withRx x (scanFound s) :=
    scanNext_rx x { s with
      phase := .idle
      found := true
      cur := s.cur + 1
      history := s.history ++ [.found (BitVec.ofNat 8 s.cur)] }
  have hm : scanMissing { s with rx := x } = withRx x (scanMissing s) :=
    scanNext_rx x { s with
      phase := .idle
      cur := s.cur + 1
      history := s.history ++ [.missing (BitVec.ofNat 8 s.cur)] }
  cases v with
  | checksum => rfl
  | good =>
    cases k with
    | packet => rfl
    | presence =>
      simp only [settle, settleGood]
      split <;> rfl
    | data =>
      simp only [settle, settleGood]
      split <;> rfl
    | ack =>
      simp only [settle, settleGood]
      split <;> rfl
    | scan =>
      simp only [settle, settleGood, hf]
      split <;> rfl
  | timeout =>
    cases k with
    | packet => rfl
    | presence => rfl
    | data => rfl
    | ack => rfl
    | scan => exact hm

theorem endReceive_rx (x : List RxAnswer) (v : Verdict) (s : State) :
    endReceive v { s with rx := x } = withRx x (endReceive v s) := by
  cases h : s.op with
  | none => simp [endReceive, h, withRx]
  | some i =>
    cases hk : replyOf i with
    | none => simp [endReceive, h, hk, withRx]
    | some k =>
      rw [← h]
      exact (endReceive_eq (s := { s with rx := x }) v h hk).trans
        ((settle_rx x k v s.rxParser { s with rxParser := s.rxParser.reset }).trans (congrArg (withRx x) (endReceive_eq v h hk).symm))

theorem receive_rx (x : List RxAnswer) (a : RxAnswer) (s : State) :
    receive a { s with rx := x } = withRx x (receive a s) := by
  cases a with
  | timeout => exact endReceive_rx x .timeout (s.record (.rx .timeout))
  | byte b =>
    match h : processByte s.cfg.shortLen s.rxParser b with
    | none => simp [receive, h, withRx]
    | some (p, .notDone) =>
      rw [receive_notDone h, receive_notDone (s := { s with rx := x }) h]
      rfl
    | some (p, .none) =>
      rw [receive_good h, receive_good (s := { s with rx := x }) h]
      exact endReceive_rx x .good { s.record (.rx (.byte b)) with rxParser := p }
    | some (p, .checksum) =>
      rw [receive_checksum h, receive_checksum (s := { s with rx := x }) h]
      exact endReceive_rx x .checksum { s.record (.rx (.byte b)) with rxParser := p }

theorem drainQueue_rx (q : List RxAnswer) : ∀ (x : List RxAnswer) (s : State),
    drainQueue q { s with rx := x } = drainQueue q s := by
  induction q with
  | nil => exact fun x s => rfl
  | cons a q ih =>
    intro x s
    simp only [drainQueue, receive_rx, withRx, andThen_assoc, andThen_next]
    split
    · rfl
    · congr 1
      funext t
      exact ih x t

/-- Answers that arrive in two parts are served as if they arrived at once (R10, R142). -/
theorem drainQueue_append (a : List RxAnswer) : ∀ (b : List RxAnswer) (s : State),
    drainQueue (a ++ b) s = andThen (drainQueue a s) fun t => drainQueue (t.rx ++ b) t := by
  induction a with
  | nil =>
    intro b s
    simp only [List.nil_append, drainQueue_nil, andThen_next]
    exact (drainQueue_rx b [] s).symm
  | cons x a ih =>
    intro b s
    cases hop : s.op with
    | none =>
      rw [List.cons_append, drainQueue_ended hop, drainQueue_ended hop, andThen_next,
        drainQueue_ended (s := { s with rx := x :: a }) hop]
      rfl
    | some i =>
      rw [List.cons_append, drainQueue_cons hop, drainQueue_cons hop, andThen_assoc]
      congr 1
      funext t
      exact ih b t

end Sys2Proof.Machine
end

