-- ==== Sys2Proof/Laws/Exec.lean ====
section
/-! SUPPORT. Laws/Exec.lean: every meaning is a body run in the frame of a host operation (R140), said once for all
instructions, so that a proof about `exec` need not unfold the meanings one by one. -/

namespace Sys2Proof.Machine

open Sys2Proof

/-- What an instruction does once it is issued, its operation already in `C.op`. -/
def bodyOf : Instr → State → Result
  | .wirePing id, t => pingBody id t
  | .wireRead id offset length, t => readBody id offset length t
  | .wireWrite id offset data, t => writeBody id offset data false t
  | .wireRegWrite id offset data, t => writeBody id offset data true t
  | .wireAction, t => sendOnly broadcastId (.cmd .action) [] t
  | .wireReset id, t => resetBody id t
  | .wireSyncWrite offset blocks, t => syncWriteBody (blocks.map (·.id)) offset (blocks.map (·.values)) t
  | .processByte b, t =>
    match processByte t.cfg.shortLen t.parser b with
    | none => .refused .processByteTerminal
    | some (p, r) => complete (.parse r) { t with parser := p, packet := none }
  | .devId, t => accessor t fun k t => complete (.byte k.id) t
  | .paramLen, t => accessor t fun k t => complete (.count k.params.length) t
  | .paramByte i, t => accessor t fun k t =>
    match k.params[i]? with
    | some b => complete (.byte b) t
    | none => .refused .paramByteRange
  | .params, t => accessor t fun k t => complete (.bytes k.params) t
  | .errorCode, t => accessor t fun k t => complete (.byte k.error) t
  | .errorCodeStr, t => accessor t fun k t => complete (.text (errorText t.cfg.bits k.error)) t
  | .build id c ps, t =>
    match buildFrame t.cfg.codes id c ps with
    | .ok f => complete (.frame f) t
    | .error r => .refused r
  | .fillAndWritePacket id c data, t => sendOnly id c data t
  | .readStatusPacket, t => drain (startReceive t)
  | .ping id, t => pingBody id t
  | .read id offset length, t => readBody id offset length t
  | .write id offset data deferred, t => writeBody id offset data deferred t
  | .reset id, t => resetBody id t
  | .action, t => sendOnly broadcastId (.cmd .action) [] t
  | .syncWrite ids offset values, t => syncWriteBody ids offset values t
  | .sendPing id, t => sendOnly id (.cmd .ping) [] t
  | .sendRead id offset length, t => sendOnly id (.cmd .read) (readParams offset length) t
  | .sendWrite id offset data deferred, t =>
    sendOnly id (.cmd (writeCommand deferred)) (writeParams offset data) t
  | .sendReset id, t => sendOnly id (.cmd .reset) [] t
  | .scan startId numIds, t => scanBody startId numIds t

/-- Every meaning is its body in the frame of R140. -/
theorem exec_eq_issue (i : Instr) (s : State) : exec i s = issue i s (bodyOf i) := by
  cases i <;> rfl

/-- An instruction issued in an idle state runs its body. -/
theorem exec_idle (i : Instr) {s : State} (h : s.Idle) : exec i s = bodyOf i { s with op := some i } := by
  rw [exec_eq_issue, issue_idle i h]

/-- A next state of an instruction comes from its body, run in an idle state. -/
theorem exec_eq_next {i : Instr} {s t : State} :
    exec i s = .next t ↔ s.Idle ∧ bodyOf i { s with op := some i } = .next t := by
  rw [exec_eq_issue, issue_eq_next]

/-- Returning from an operation that was issued in the idle state `s` leaves `s` but for what the operation wrote. -/
theorem complete_issued {s : State} (h : s.Idle) (i : Instr) (v : Value) (p : Parser) (k : Option Packet) :
    complete v { s with op := some i, parser := p, packet := k } =
      .next { s with parser := p, packet := k, history := s.history ++ [.result (.returned v)] } := by
  obtain ⟨h1, h2⟩ := h
  simp only [complete, ← h1, ← h2]

end Sys2Proof.Machine
end

