-- ==== Sys2Proof/Laws/PerInstr.lean ====
section
/-! SUPPORT. Laws/PerInstr.lean: statements made once per instruction. EncodedIsFrame: the bytes an instruction is encoded as
are one frame of R60, and an instruction has an encoding exactly when it is a wire instruction (R67, R73). -/

namespace Sys2Proof.Laws.EncodedIsFrame

open Sys2Proof Sys2Proof.Machine

/-- Where there is an encoding it is a frame, its byte 4 is the code of a command, and the instruction is a wire instruction;
a wire instruction has one. -/
def Statement (i : Instr) : Prop :=
  ∀ cfg : Config,
    (∀ f, encode cfg i = some f → isWire i = true ∧ ∃ id c ps, f = frame id (cfg.codes.code c) ps) ∧
    (isWire i = true → (encode cfg i).isSome = true)

theorem ofWire {i : Instr} (hw : isWire i = true)
    (h : ∀ cfg, ∃ id c ps, encode cfg i = some (frame id (cfg.codes.code c) ps)) : Statement i := by
  intro cfg
  obtain ⟨id, c, ps, he⟩ := h cfg
  exact ⟨fun f hf => ⟨hw, id, c, ps, by rw [he] at hf; exact (Option.some.inj hf).symm⟩, fun _ => by rw [he]; rfl⟩

theorem ofCall {i : Instr} (hw : isWire i = false) (h : ∀ cfg, encode cfg i = none) : Statement i := by
  intro cfg
  exact ⟨fun f hf => (by rw [h cfg] at hf; cases hf), fun hi => (by rw [hw] at hi; cases hi)⟩

theorem wirePing (id : Byte) : Statement (.wirePing id) := ofWire rfl fun _ => ⟨id, .ping, [], rfl⟩

theorem wireRead (id : Byte) (offset : Byte) (length : Byte) : Statement (.wireRead id offset length) := ofWire rfl fun _ => ⟨id, .read, [offset, length], rfl⟩

theorem wireWrite (id : Byte) (offset : Byte) (data : List Byte) : Statement (.wireWrite id offset data) := ofWire rfl fun _ => ⟨id, .write, (offset :: data), rfl⟩

theorem wireRegWrite (id : Byte) (offset : Byte) (data : List Byte) : Statement (.wireRegWrite id offset data) := ofWire rfl fun _ => ⟨id, .regWrite, (offset :: data), rfl⟩

theorem wireAction : Statement .wireAction := ofWire rfl fun _ => ⟨broadcastId, .action, [], rfl⟩

theorem wireReset (id : Byte) : Statement (.wireReset id) := ofWire rfl fun _ => ⟨id, .reset, [], rfl⟩

theorem wireSyncWrite (offset : Byte) (blocks : List DeviceBlock) : Statement (.wireSyncWrite offset blocks) := ofWire rfl fun _ => ⟨broadcastId, .syncWrite, (encodeBlocks offset blocks), rfl⟩

theorem processByte (b : Byte) : Statement (.processByte b) := ofCall rfl fun _ => rfl

theorem devId : Statement .devId := ofCall rfl fun _ => rfl

theorem paramLen : Statement .paramLen := ofCall rfl fun _ => rfl

theorem paramByte (i : Nat) : Statement (.paramByte i) := ofCall rfl fun _ => rfl

theorem params : Statement .params := ofCall rfl fun _ => rfl

theorem errorCode : Statement .errorCode := ofCall rfl fun _ => rfl

theorem errorCodeStr : Statement .errorCodeStr := ofCall rfl fun _ => rfl

theorem build (id : Byte) (command : CommandArg) (ps : List Byte) : Statement (.build id command ps) := ofCall rfl fun _ => rfl

theorem fillAndWritePacket (id : Byte) (command : CommandArg) (data : List Byte) : Statement (.fillAndWritePacket id command data) := ofCall rfl fun _ => rfl

theorem readStatusPacket : Statement .readStatusPacket := ofCall rfl fun _ => rfl

theorem ping (id : Byte) : Statement (.ping id) := ofCall rfl fun _ => rfl

theorem read (id : Byte) (offset : Byte) (length : Byte) : Statement (.read id offset length) := ofCall rfl fun _ => rfl

theorem write (id : Byte) (offset : Byte) (data : List Byte) (deferred : Bool) : Statement (.write id offset data deferred) := ofCall rfl fun _ => rfl

theorem reset (id : Byte) : Statement (.reset id) := ofCall rfl fun _ => rfl

theorem action : Statement .action := ofCall rfl fun _ => rfl

theorem syncWrite (ids : List Byte) (offset : Byte) (values : List (List Byte)) : Statement (.syncWrite ids offset values) := ofCall rfl fun _ => rfl

theorem sendPing (id : Byte) : Statement (.sendPing id) := ofCall rfl fun _ => rfl

theorem sendRead (id : Byte) (offset : Byte) (length : Byte) : Statement (.sendRead id offset length) := ofCall rfl fun _ => rfl

theorem sendWrite (id : Byte) (offset : Byte) (data : List Byte) (deferred : Bool) : Statement (.sendWrite id offset data deferred) := ofCall rfl fun _ => rfl

theorem sendReset (id : Byte) : Statement (.sendReset id) := ofCall rfl fun _ => rfl

theorem scan (startId : Nat) (numIds : Nat) : Statement (.scan startId numIds) := ofCall rfl fun _ => rfl

end Sys2Proof.Laws.EncodedIsFrame
end

