-- ==== Sys2Proof/Laws/Run.lean ====
section
/-! SUPPORT. Laws/Run.lean: everything the receive half of an operation can do, said once: the head of scan's loop, the end of
a receive phase, one receive event, and the receive loop on a queue of answers from a state in which an operation runs. -/

namespace Sys2Proof.Machine

open Sys2Proof

/-- The three things the head of scan's loop does (R174, R176). -/
theorem scanNext_cases (s : State) :
    (s.cur < s.stop ∧ s.cur ≤ 253 ∧ scanNext s = .next { s with
      phase := .rx
      rxParser := s.rxParser.reset
      packet := none
      history := s.history ++ [.tx (frame (BitVec.ofNat 8 s.cur) s.cfg.codes.ping [])] }) ∨
    (s.cur < s.stop ∧ 253 < s.cur ∧ scanNext s = .refused .scanRange) ∨
    (¬ s.cur < s.stop ∧ scanNext s = .next { s with
      phase := .idle
      op := none
      history := s.history ++ [.result (.returned (.bool s.found))] }) := by
  unfold scanNext
  by_cases h : s.cur < s.stop
  · by_cases h2 : 253 < s.cur
    · exact .inr (.inl ⟨h, h2, by rw [if_pos h, if_pos h2]⟩)
    · refine .inl ⟨h, by omega, ?_⟩
      rw [if_pos h, if_neg h2, transmit_ok _ _ (by simp; omega) (by simp)]
      rfl
  · exact .inr (.inr ⟨h, by rw [if_neg h]; rfl⟩)

/-- What a receive phase of each kind can end an operation with (R142, R143, R150, R153, R156, R159, R174). -/
def replyResult : Reply → OpResult → Bool
  | .packet, .returned v => decide (kindOf v = .packet)
  | .packet, .raised e => isTimeout e || isChecksum e
  | .presence, .returned v => decide (kindOf v = .bool)
  | .presence, .raised e => isChecksum e || isDevice e
  | .data, .returned v => decide (kindOf v = .bytes)
  | .data, .raised e => isTimeout e || isChecksum e || isDevice e
  | .ack, .returned v => decide (kindOf v = .unit)
  | .ack, .raised e => isTimeout e || isChecksum e || isDevice e
  | .scan, .returned v => decide (kindOf v = .bool)
  | .scan, .raised e => isChecksum e || isDevice e

/-- What the end of a receive phase makes of `s`, `p` being what `C.P` held: the operation ends with one result (and gives the
Packet to the host where it returns one), or a scan goes on to its next ID, or a scan ends. -/
def Settled (k : Reply) (v : Verdict) (p : Parser) (s t : State) : Prop :=
  (∃ r pk, t = { s with
      phase := .idle
      op := none
      packet := pk
      history := s.history ++ [.result r] } ∧
    replyResult k r = true ∧
    ((r.packet = none ∧ pk = s.packet) ∨
      (v = .good ∧ k = .packet ∧ r = .returned (.packet p.packet) ∧ pk = some p.packet))) ∨
  (k = .scan ∧ ∃ ev f,
    ((ev = Event.found (BitVec.ofNat 8 s.cur) ∧ f = true) ∨ (ev = .missing (BitVec.ofNat 8 s.cur) ∧ f = s.found)) ∧
    ((s.cur + 1 < s.stop ∧ s.cur + 1 ≤ 253 ∧ t = { s with
        phase := .rx
        rxParser := s.rxParser.reset
        packet := none
        cur := s.cur + 1
        found := f
        history := s.history ++ [ev] ++ [.tx (frame (BitVec.ofNat 8 (s.cur + 1)) s.cfg.codes.ping [])] }) ∨
      (¬ s.cur + 1 < s.stop ∧ t = { s with
        phase := .idle
        op := none
        cur := s.cur + 1
        found := f
        history := s.history ++ [ev] ++ [.result (.returned (.bool f))] })))

/-- A scan leaves the range of IDs only where its end is beyond 254. -/
def ScanLeaves (k : Reply) (s : State) : Prop := k = .scan ∧ s.cur + 1 < s.stop ∧ 253 < s.cur + 1

theorem scanFound_cases (v : Verdict) (p : Parser) (s : State) :
    (ScanLeaves .scan s ∧ scanFound s = .refused .scanRange) ∨
      ∃ t, scanFound s = .next t ∧ Settled .scan v p s t := by
  rcases scanNext_cases { s with
    phase := .idle
    found := true
    cur := s.cur + 1
    history := s.history ++ [.found (BitVec.ofNat 8 s.cur)] } with ⟨h1, h2, h3⟩ | ⟨h1, h2, h3⟩ | ⟨h1, h3⟩
  · exact .inr ⟨_, h3, .inr ⟨rfl, _, true, .inl ⟨rfl, rfl⟩, .inl ⟨h1, h2, rfl⟩⟩⟩
  · exact .inl ⟨⟨rfl, h1, h2⟩, h3⟩
  · exact .inr ⟨_, h3, .inr ⟨rfl, _, true, .inl ⟨rfl, rfl⟩, .inr ⟨h1, rfl⟩⟩⟩

theorem scanMissing_cases (v : Verdict) (p : Parser) (s : State) :
    (ScanLeaves .scan s ∧ scanMissing s = .refused .scanRange) ∨
      ∃ t, scanMissing s = .next t ∧ Settled .scan v p s t := by
  rcases scanNext_cases { s with
    phase := .idle
    cur := s.cur + 1
    history := s.history ++ [.missing (BitVec.ofNat 8 s.cur)] } with ⟨h1, h2, h3⟩ | ⟨h1, h2, h3⟩ | ⟨h1, h3⟩
  · exact .inr ⟨_, h3, .inr ⟨rfl, _, s.found, .inr ⟨rfl, rfl⟩, .inl ⟨h1, h2, rfl⟩⟩⟩
  · exact .inl ⟨⟨rfl, h1, h2⟩, h3⟩
  · exact .inr ⟨_, h3, .inr ⟨rfl, _, s.found, .inr ⟨rfl, rfl⟩, .inr ⟨h1, rfl⟩⟩⟩

theorem raiseError_settled {k : Reply} {v : Verdict} {p : Parser} {e : OpError} (s : State)
    (hk : replyResult k (.raised e) = true) : ∃ t, raiseError e s = .next t ∧ Settled k v p s t :=
  ⟨_, rfl, .inl ⟨.raised e, s.packet, rfl, hk, .inl ⟨rfl, rfl⟩⟩⟩

theorem complete_settled {k : Reply} {v : Verdict} {p : Parser} {x : Value} (s : State)
    (hk : replyResult k (.returned x) = true) (hx : (OpResult.returned x).packet = none) :
    ∃ t, complete x s = .next t ∧ Settled k v p s t :=
  ⟨_, rfl, .inl ⟨.returned x, s.packet, rfl, hk, .inl ⟨hx, rfl⟩⟩⟩

/-- Everything the end of a receive phase can do (R142, R143). -/
theorem settle_cases (k : Reply) (v : Verdict) (p : Parser) (s : State) :
    (ScanLeaves k s ∧ settle k v p s = .refused .scanRange) ∨
      ∃ t, settle k v p s = .next t ∧ Settled k v p s t := by
  cases v with
  | good =>
    have dev : isDeviceError p.err = true → isDevice (deviceError p.err) = true := by
      intro h
      simpa [isDevice, deviceError, isDeviceError] using h
    cases k with
    | packet => exact .inr ⟨_, rfl, .inl ⟨_, _, rfl, rfl, .inr ⟨rfl, rfl, rfl, rfl⟩⟩⟩
    | presence =>
      simp only [settle, settleGood]
      split_ifs with h
      · exact .inr (raiseError_settled s (by simp [replyResult, dev h]))
      · exact .inr (complete_settled s rfl rfl)
    | data =>
      simp only [settle, settleGood]
      split_ifs with h
      · exact .inr (raiseError_settled s (by simp [replyResult, dev h]))
      · exact .inr (complete_settled s rfl rfl)
    | ack =>
      simp only [settle, settleGood]
      split_ifs with h
      · exact .inr (raiseError_settled s (by simp [replyResult, dev h]))
      · exact .inr (complete_settled s rfl rfl)
    | scan =>
      simp only [settle, settleGood]
      split_ifs with h
      · exact .inr (raiseError_settled s (by simp [replyResult, dev h]))
      · exact scanFound_cases _ p s
  | checksum => exact .inr (raiseError_settled s (by cases k <;> simp [replyResult, checksumError, isChecksum]))
  | timeout =>
    cases k with
    | packet => exact .inr (raiseError_settled s (by simp [replyResult, timeoutError, isTimeout]))
    | presence => exact .inr (complete_settled s rfl rfl)
    | data => exact .inr (raiseError_settled s (by simp [replyResult, timeoutError, isTimeout]))
    | ack => exact .inr (raiseError_settled s (by simp [replyResult, timeoutError, isTimeout]))
    | scan => exact scanMissing_cases _ p s

/-- Everything one receive event can do while an operation runs (R142): the parse goes on, or the receive phase ends with `C.P`
discarded. -/
theorem receive_spec {s : State} {i : Instr} {k : Reply} (a : RxAnswer) (hop : s.op = some i) (hk : replyOf i = some k)
    (hp : s.rxParser.terminal = false) :
    (∃ b p, a = .byte b ∧ processByte s.cfg.shortLen s.rxParser b = some (p, .notDone) ∧
      receive a s = .next { s with rxParser := p, history := s.history ++ [.rx a] }) ∨
    (∃ v p, (p = s.rxParser ∨ ∃ b r, processByte s.cfg.shortLen s.rxParser b = some (p, r)) ∧
      (v = .good → p.state = .done) ∧
      ((ScanLeaves k s ∧ receive a s = .refused .scanRange) ∨
        ∃ t, receive a s = .next t ∧
          Settled k v p { s with rxParser := p.reset, history := s.history ++ [.rx a] } t)) := by
  rcases receive_cases a s with ⟨b, p, rfl, h1, h2⟩ | ⟨b, p, rfl, h1, h2⟩ | ⟨b, p, rfl, h1, h2⟩ | ⟨rfl, h2⟩ | ⟨h1, h2⟩
  · exact .inl ⟨b, p, rfl, h1, h2⟩
  · refine .inr ⟨.good, p, .inr ⟨b, _, h1⟩, fun _ => ?_, ?_⟩
    · rcases processByte_result h1 with h | h | h
      · cases h.1
      · exact h.2
      · cases h.1
    · rw [h2, endReceive_eq (i := i) (k := k) _ (by exact hop) hk]
      exact settle_cases k .good p { s with rxParser := p.reset, history := s.history ++ [.rx (.byte b)] }
  · refine .inr ⟨.checksum, p, .inr ⟨b, _, h1⟩, nofun, ?_⟩
    rw [h2, endReceive_eq (i := i) (k := k) _ (by exact hop) hk]
    exact settle_cases k .checksum p { s with rxParser := p.reset, history := s.history ++ [.rx (.byte b)] }
  · refine .inr ⟨.timeout, s.rxParser, .inl rfl, nofun, ?_⟩
    rw [h2, endReceive_eq (i := i) (k := k) _ (by exact hop) hk]
    exact settle_cases k .timeout s.rxParser
      { s with rxParser := s.rxParser.reset, history := s.history ++ [.rx .timeout] }
  · rw [hp] at h1
    cases h1

/-! ### The receive loop on a queue of answers -/

/-- The event is no result. -/
def noResult : Event → Bool
  | .result _ => false
  | .tx _ => true
  | .rx _ => true
  | .found _ => true
  | .missing _ => true

/-- The operation `i` runs in `s`: it awaits a packet in phase RX, with a `C.P` that has not ended, and the host holds no
Packet. -/
structure Running (i : Instr) (k : Reply) (s : State) : Prop where
  op : s.op = some i
  reply : replyOf i = some k
  phase : s.phase = .rx
  open_ : s.rxParser.terminal = false
  rxParser : s.rxParser.ok = true
  packet : s.packet = none
  scan : k = .scan → s.cur < s.stop ∧ s.stop ≤ 254

/-- What a run of receive events makes of `s`: `answers` were taken, the events `evs` happened, and the operation still runs
or has ended with one result, `C.P` then holding nothing and the host holding the Packet the result gives it. -/
structure Received (i : Instr) (k : Reply) (s t : State) (answers : List RxAnswer) (evs : List Event) : Prop where
  cfg : t.cfg = s.cfg
  parser : t.parser = s.parser
  program : t.program = s.program
  draws : t.draws = s.draws
  stop : t.stop = s.stop
  history : t.history = s.history ++ evs
  others : k ≠ .scan → t.cur = s.cur ∧ t.found = s.found ∧
    (evs = received answers ∨ ∃ r, evs = received answers ++ [.result r])
  sent : ∀ f, .tx f ∈ evs → k = .scan ∧ ∃ n, n ≤ 253 ∧ f = frame (BitVec.ofNat 8 n) s.cfg.codes.ping []
  ending : (Running i k t ∧ ∀ e ∈ evs, noResult e = true) ∨
    (t.op = none ∧ t.phase = .idle ∧ t.rxParser.fresh = true ∧ ∃ r evs', evs = evs' ++ [.result r] ∧
      replyResult k r = true ∧ (∀ e ∈ evs', noResult e = true) ∧
      t.packet = r.packet ∧ t.packet.all Packet.ok = true)

theorem notDone_open {pol : ShortLenPolicy} {p q : Parser} {b : Byte} (h : processByte pol p b = some (q, .notDone)) :
    q.terminal = false := by
  rcases processByte_result h with h | h | h
  · exact h.2
  · cases h.1
  · cases h.1

theorem fresh_ok {p : Parser} (h : p.fresh = true) : p.ok = true := by
  obtain ⟨h1, h2⟩ := fresh_iff.1 h
  simp [Parser.ok, h1, h2]

/-- One receive event of a running operation always gives a next state. -/
theorem receive_received {i : Instr} {k : Reply} {s : State} (h : Running i k s) (a : RxAnswer) :
    ∃ t evs, receive a s = .next t ∧ Received i k s t [a] evs ∧ t.rx = s.rx := by
  rcases receive_spec a h.op h.reply h.open_ with
    ⟨b, p, rfl, h1, h2⟩ | ⟨v, p, hp, hd, ⟨⟨hk, h1, h2⟩, _⟩ | ⟨t, ht, he⟩⟩
  · exact ⟨_, [.rx (.byte b)], h2, ⟨rfl, rfl, rfl, rfl, rfl, rfl, fun _ => ⟨rfl, rfl, .inl rfl⟩,
      by simp, .inl ⟨⟨h.op, h.reply, h.phase, notDone_open h1, processByte_ok h1 h.rxParser, h.packet, h.scan⟩,
        by simp [noResult]⟩⟩, rfl⟩
  · have := h.scan hk
    omega
  · have pok : p.ok = true := by
      rcases hp with rfl | ⟨b, r, hb⟩
      · exact h.rxParser
      · exact processByte_ok hb h.rxParser
    rcases he with ⟨r, pk, rfl, hr, hpk⟩ | ⟨hk, ev, f, hev, ⟨h1, h2, rfl⟩ | ⟨h1, rfl⟩⟩
    · refine ⟨_, [.rx a, .result r], ht, ⟨rfl, rfl, rfl, rfl, rfl, by simp, fun _ => ⟨rfl, rfl, .inr ⟨r, rfl⟩⟩,
        by simp, .inr ⟨rfl, rfl, reset_fresh p, r, [.rx a], rfl, hr, by simp [noResult], ?_⟩⟩, rfl⟩
      rcases hpk with ⟨h1, rfl⟩ | ⟨h1, -, rfl, rfl⟩
      · show s.packet = r.packet ∧ s.packet.all Packet.ok = true
        simp [h.packet, h1]
      · exact ⟨rfl, packet_ok pok (hd h1)⟩
    · refine ⟨_, [.rx a, ev, .tx (frame (BitVec.ofNat 8 (s.cur + 1)) s.cfg.codes.ping [])], ht,
        ⟨rfl, rfl, rfl, rfl, rfl, by simp, fun h => absurd hk h, ?_,
          .inl ⟨⟨h.op, h.reply, rfl, rfl, reset_ok _, rfl, fun _ => ⟨h1, (h.scan hk).2⟩⟩, ?_⟩⟩, rfl⟩
      · rcases hev with ⟨rfl, _⟩ | ⟨rfl, _⟩ <;> simp <;> exact ⟨hk, s.cur + 1, h2, rfl⟩
      · rcases hev with ⟨rfl, _⟩ | ⟨rfl, _⟩ <;> simp [noResult]
    · refine ⟨_, [.rx a, ev, .result (.returned (.bool f))], ht, ⟨rfl, rfl, rfl, rfl, rfl, by simp,
        fun h => absurd hk h, ?_, .inr ⟨rfl, rfl, reset_fresh p, _, [.rx a, ev], rfl, by rw [hk]; rfl, ?_, h.packet, ?_⟩⟩,
        rfl⟩
      · rcases hev with ⟨rfl, _⟩ | ⟨rfl, _⟩ <;> simp
      · rcases hev with ⟨rfl, _⟩ | ⟨rfl, _⟩ <;> simp [noResult]
      · show s.packet.all Packet.ok = true
        simp [h.packet]

theorem Received.trans {i : Instr} {k : Reply} {s t u : State} {a b : List RxAnswer} {e f : List Event}
    (h : Received i k s t a e) (hn : ∀ x ∈ e, noResult x = true) (h2 : Received i k t u b f) :
    Received i k s u (a ++ b) (e ++ f) := by
  refine ⟨h2.cfg.trans h.cfg, h2.parser.trans h.parser, h2.program.trans h.program, h2.draws.trans h.draws,
    h2.stop.trans h.stop, by rw [h2.history, h.history, List.append_assoc], fun hk => ?_, fun x hx => ?_, ?_⟩
  · obtain ⟨a1, a2, a3⟩ := h.others hk
    obtain ⟨b1, b2, b3⟩ := h2.others hk
    refine ⟨b1.trans a1, b2.trans a2, ?_⟩
    rcases a3 with rfl | ⟨r, rfl⟩
    · rcases b3 with rfl | ⟨r, rfl⟩
      · exact .inl (received_append _ _).symm
      · exact .inr ⟨r, by rw [received_append, List.append_assoc]⟩
    · have := hn (.result r) (by simp)
      simp [noResult] at this
  · rcases List.mem_append.1 hx with hx | hx
    · exact h.sent x hx
    · rw [← h.cfg]
      exact h2.sent x hx
  · rcases h2.ending with ⟨hp, hne⟩ | ⟨h1, h3, h4, r, evs', rfl, hr, hne, hb⟩
    · exact .inl ⟨hp, fun x hx => (List.mem_append.1 hx).elim (hn x) (hne x)⟩
    · exact .inr ⟨h1, h3, h4, r, e ++ evs', by simp, hr, fun x hx => (List.mem_append.1 hx).elim (hn x) (hne x), hb⟩

theorem Running.withRx {i : Instr} {k : Reply} {s : State} (h : Running i k s) (x : List RxAnswer) :
    Running i k { s with rx := x } :=
  ⟨h.op, h.reply, h.phase, h.open_, h.rxParser, h.packet, h.scan⟩

theorem Received.withRx {i : Instr} {k : Reply} {s t : State} {a : List RxAnswer} {e : List Event}
    (h : Received i k s t a e) (x : List RxAnswer) : Received i k s { t with rx := x } a e :=
  ⟨h.cfg, h.parser, h.program, h.draws, h.stop, h.history, h.others, h.sent,
    h.ending.imp (fun hh => ⟨hh.1.withRx x, hh.2⟩) id⟩

theorem Received.none {i : Instr} {k : Reply} {s : State} (h : Running i k s) : Received i k s s [] [] :=
  ⟨rfl, rfl, rfl, rfl, rfl, by simp, fun _ => ⟨rfl, rfl, .inl rfl⟩, by simp, .inl ⟨h, by simp⟩⟩

/-- Everything the receive loop can do with a queue of answers (R142, R184): it takes a front part of it and leaves the rest,
and it leaves some only when the operation has ended. -/
theorem drainQueue_received {i : Instr} {k : Reply} (q : List RxAnswer) : ∀ {s : State}, Running i k s →
    ∃ t answers evs, drainQueue q s = .next t ∧ Received i k s t answers evs ∧ q = answers ++ t.rx ∧
      (t.op ≠ none → t.rx = []) := by
  induction q with
  | nil => exact fun {s} h => ⟨_, [], [], rfl, (Received.none h).withRx [], rfl, fun _ => rfl⟩
  | cons a q ih =>
    intro s h
    rw [drainQueue_cons h.op]
    obtain ⟨t, evs, ht, hp, _⟩ := receive_received h a
    rw [ht, andThen_next]
    rcases hp.ending with ⟨hpre, hn⟩ | ⟨h1, _, _⟩
    · obtain ⟨u, ans, evs2, hu, hpu, hq, hrx⟩ := ih hpre
      exact ⟨u, [a] ++ ans, evs ++ evs2, hu, hp.trans hn hpu, by rw [hq]; simp, hrx⟩
    · rw [drainQueue_ended h1]
      exact ⟨_, [a], evs, rfl, hp.withRx q, rfl, fun h => absurd h1 h⟩

end Sys2Proof.Machine
end

