-- ==== Sys2Proof/Machine/Text.lean ====
section
/-! DEFINITION. Machine/Text.lean: how the spec writes frames and host operations (spec/30_encoding.md R75). It is the spec's
own way of writing (D22); no other definition reads it. What R75's examples do not show is log entry 24. -/

namespace Sys2Proof.Machine

open Sys2Proof

/-- Texts with a separator between them. -/
def joinWith (sep : String) : List String → String
  | [] => ""
  | [a] => a
  | a :: b :: l => a ++ sep ++ joinWith sep (b :: l)

/-- One hexadecimal digit. -/
def hexDigit (n : Nat) : String :=
  ["0", "1", "2", "3", "4", "5", "6", "7", "8", "9", "A", "B", "C", "D", "E", "F"].getD n ""

/-- A byte as two hexadecimal digits. -/
def hexByte (b : Byte) : String := hexDigit (b.toNat / 16) ++ hexDigit (b.toNat % 16)

/-- A frame "as its bytes in hexadecimal, byte 0 first, separated by spaces" (R75). -/
def frameText (f : List Byte) : String := joinWith " " (f.map hexByte)

/-- An ID, a length or a count, in decimal. -/
def decimal (n : Nat) : String := toString n

/-- An offset or a data byte, `0x..`. -/
def hexText (b : Byte) : String := "0x" ++ hexByte b

/-- A bracketed list. -/
def listText (l : List String) : String := "[" ++ joinWith ", " l ++ "]"

/-- A sequence of data bytes. -/
def bytesText (l : List Byte) : String := listText (l.map hexText)

/-- The name of a command (R64). -/
def commandName : Command → String
  | .ping => "PING"
  | .read => "READ"
  | .write => "WRITE"
  | .regWrite => "REG_WRITE"
  | .action => "ACTION"
  | .reset => "RESET"
  | .syncWrite => "SYNC_WRITE"

/-- A command operand: its name, or the raw byte. -/
def commandText : CommandArg → String
  | .cmd c => commandName c
  | .raw b => hexText b

/-- An operation "as its name with its arguments" (R75). -/
def callText (name : String) (args : List String) : String :=
  match args with
  | [] => name
  | _ :: _ => name ++ " " ++ joinWith ", " args

/-- The word `deferred` where the flag is set. -/
def deferredText (deferred : Bool) : List String := if deferred then ["deferred"] else []

/-- How the spec writes an instruction (R75): a host operation by name, a wire instruction as its frame. -/
def Instr.text (cfg : Config) : Instr → String
  | .processByte b => callText "process_byte" [hexText b]
  | .devId => "dev_id"
  | .paramLen => "param_len"
  | .paramByte i => callText "param_byte" [decimal i]
  | .params => "params"
  | .errorCode => "error_code"
  | .errorCodeStr => "error_code_str"
  | .build id c ps => callText "build" [decimal id.toNat, commandText c, bytesText ps]
  | .fillAndWritePacket id c data =>
    callText "fill_and_write_packet" [decimal id.toNat, commandText c, bytesText data]
  | .readStatusPacket => "read_status_packet"
  | .ping id => callText "ping" [decimal id.toNat]
  | .read id offset length => callText "read" [decimal id.toNat, hexText offset, decimal length.toNat]
  | .write id offset data deferred =>
    callText "write" ([decimal id.toNat, hexText offset, bytesText data] ++ deferredText deferred)
  | .reset id => callText "reset" [decimal id.toNat]
  | .action => "action"
  | .syncWrite ids offset values =>
    callText "sync_write"
      [listText (ids.map fun id => decimal id.toNat), hexText offset, listText (values.map bytesText)]
  | .sendPing id => callText "send_ping" [decimal id.toNat]
  | .sendRead id offset length => callText "send_read" [decimal id.toNat, hexText offset, decimal length.toNat]
  | .sendWrite id offset data deferred =>
    callText "send_write" ([decimal id.toNat, hexText offset, bytesText data] ++ deferredText deferred)
  | .sendReset id => callText "send_reset" [decimal id.toNat]
  | .scan startId numIds => callText "scan" [decimal startId, decimal numIds]
  | .wirePing id => frameText ((encode cfg (.wirePing id)).getD [])
  | .wireRead id offset length => frameText ((encode cfg (.wireRead id offset length)).getD [])
  | .wireWrite id offset data => frameText ((encode cfg (.wireWrite id offset data)).getD [])
  | .wireRegWrite id offset data => frameText ((encode cfg (.wireRegWrite id offset data)).getD [])
  | .wireAction => frameText ((encode cfg .wireAction).getD [])
  | .wireReset id => frameText ((encode cfg (.wireReset id)).getD [])
  | .wireSyncWrite offset blocks => frameText ((encode cfg (.wireSyncWrite offset blocks)).getD [])

end Sys2Proof.Machine
end

