-- ==== Sys2Proof/Tests/Slice0.lean ====
section
/-! SUPPORT. Tests/Slice0.lean: tests of this model against values written out by hand from spec/. B, P, S, C, D and W numbers
are the vectors of 95_test_vectors.md. The theorems `witness_…` show, for each statement of Certificates/ that has hypotheses,
a state and operands that meet them, clause by clause, at a boundary value. -/

namespace Sys2Proof.Tests

open Sys2Proof Sys2Proof.Machine

/-! ### Helpers -/

/-- The reset state with answers queued at the Transport. -/
def hearing (rx : List RxAnswer) : State := { State.reset with rx := rx }

/-- The reset state with these parser registers. -/
def parsed (st : ParserState) (id len err : Byte) (buf : List Byte) : State :=
  { State.reset with parser := { state := st, id := id, len := len, err := err, buf := buf, chk := 0x60#8 } }

/-- The registers after vector P1, with another error byte. -/
def afterP1 (err : Byte) : State := parsed .done 0x05#8 0x04#8 err [0x96#8, 0x00#8]

/-- A state in which `ping 1` runs and waits for its answer. -/
def pinging (rx : List RxAnswer) : State :=
  { State.reset with
    phase := .rx, op := some (.ping 0x01#8), rx := rx
    history := [.tx [0xFF#8, 0xFF#8, 0x01#8, 0x02#8, 0x01#8, 0xFB#8]] }

/-- The parser policies other than the default. -/
def under (pol : ShortLenPolicy) (s : State) : State := { s with cfg := { s.cfg with shortLen := pol } }

def historyOf : Result → Option (List Event)
  | .next s => some s.history
  | .fault _ => none
  | .refused _ => none

def resultOf : Result → Option Event
  | .next s => s.history.getLast?
  | .fault _ => none
  | .refused _ => none

def packetOf : Result → Option Packet
  | .next s => s.packet
  | .fault _ => none
  | .refused _ => none

def parserOf : Result → Option Parser
  | .next s => some s.parser
  | .fault _ => none
  | .refused _ => none

def opOf : Result → Option (Option Instr)
  | .next s => some s.op
  | .fault _ => none
  | .refused _ => none

def refusalOf : Result → Option Refusal
  | .next _ => none
  | .fault _ => none
  | .refused r => some r

/-- `FF FF 01 02 00 FC`, the error-free status packet of device 1 (S1). -/
def good1 : List Byte := [0xFF#8, 0xFF#8, 0x01#8, 0x02#8, 0x00#8, 0xFC#8]

/-- `FF FF 01 02 00 FD`, the same with a wrong checksum (S4). -/
def bad1 : List Byte := [0xFF#8, 0xFF#8, 0x01#8, 0x02#8, 0x00#8, 0xFD#8]

/-- `FF FF 01 02 04 F8`, a packet with error mask 0x04 (S5). -/
def mask1 : List Byte := [0xFF#8, 0xFF#8, 0x01#8, 0x02#8, 0x04#8, 0xF8#8]

/-- The registers after `good1`, from the reset parser. -/
def p1 : Parser := { state := .done, id := 0x01#8, len := 0x02#8, err := 0x00#8, buf := [], chk := 0xFC#8 }

/-- The Packet of Program 5: device 6, parameter 0x20. -/
def packet6 : Packet := ⟨0x06#8, 0x03#8, 0x00#8, [0x20#8], 0xD6#8⟩

/-- The host holds that Packet, its own parser in the middle of a header. -/
def holding6 : State := { parsed .waitStart2 0#8 0#8 0#8 [] with packet := some packet6 }

/-- The byte `b`, n times. -/
def many (n : Nat) (b : Byte) : List Byte := List.replicate n b

@[simp] theorem many_length (n : Nat) (b : Byte) : (many n b).length = n := List.length_replicate

theorem many_sum (n : Nat) (b : Byte) : ((many n b).map BitVec.toNat).sum = n * b.toNat := by
  simp only [many, List.map_replicate, List.sum_replicate, smul_eq_mul]

/-! ### WellFormed: an ill-formed term for each check -/

theorem test_illFormed_wirePing : (Instr.wirePing 254#8).wellFormed = false := by decide
theorem test_illFormed_wireRead : (Instr.wireRead 254#8 0#8 1#8).wellFormed = false := by decide
theorem test_illFormed_wireWrite_id : (Instr.wireWrite 255#8 0#8 []).wellFormed = false := by decide
theorem test_illFormed_wireWrite_data : (Instr.wireWrite 1#8 0#8 (many 253 0#8)).wellFormed = false := by
  simp [Instr.wellFormed, builderId]
theorem test_illFormed_wireRegWrite : (Instr.wireRegWrite 255#8 0#8 []).wellFormed = false := by decide
theorem test_illFormed_wireReset : (Instr.wireReset 255#8).wellFormed = false := by decide
theorem test_illFormed_wireSyncWrite_empty : (Instr.wireSyncWrite 0#8 []).wellFormed = false := by decide
theorem test_illFormed_wireSyncWrite_lengths :
    (Instr.wireSyncWrite 0#8 [⟨1#8, []⟩, ⟨2#8, [0#8]⟩]).wellFormed = false := by decide
theorem test_illFormed_wireSyncWrite_long :
    (Instr.wireSyncWrite 0#8 [⟨1#8, many 251 0#8⟩]).wellFormed = false := by
  simp [Instr.wellFormed, syncParamCount, sameLengths, maxParams]
theorem test_illFormed_build_id : (Instr.build 255#8 (.cmd .ping) []).wellFormed = false := by decide
theorem test_illFormed_build_params :
    (Instr.build 1#8 (.cmd .write) (many 254 0#8)).wellFormed = false := by
  simp [Instr.wellFormed, builderId, maxParams]
theorem test_illFormed_fill : (Instr.fillAndWritePacket 255#8 (.raw 0#8) []).wellFormed = false := by decide
theorem test_illFormed_ping : (Instr.ping 254#8).wellFormed = false := by decide
theorem test_illFormed_read : (Instr.read 254#8 0#8 1#8).wellFormed = false := by decide
theorem test_illFormed_write : (Instr.write 1#8 0#8 (many 253 0#8) true).wellFormed = false := by
  simp [Instr.wellFormed, builderId]
theorem test_illFormed_reset : (Instr.reset 255#8).wellFormed = false := by decide
theorem test_illFormed_syncWrite_empty : (Instr.syncWrite [] 0x1E#8 []).wellFormed = false := by decide
theorem test_illFormed_syncWrite_long :
    (Instr.syncWrite [1#8] 0#8 [many 251 0#8]).wellFormed = false := by
  simp [Instr.wellFormed, lengthsAgree, sameLengths, syncParamCount, maxParams]
theorem test_illFormed_sendPing : (Instr.sendPing 255#8).wellFormed = false := by decide
theorem test_illFormed_sendRead : (Instr.sendRead 255#8 0#8 0#8).wellFormed = false := by decide
theorem test_illFormed_sendWrite : (Instr.sendWrite 1#8 0#8 (many 253 0#8) false).wellFormed = false := by
  simp [Instr.wellFormed, builderId]
theorem test_illFormed_sendReset : (Instr.sendReset 255#8).wellFormed = false := by decide
theorem test_illFormed_scan : (Instr.scan 251 4).wellFormed = false := by decide

/-! ### Decoding: frames written out from R60 and R67 (B1, B4 to B9), and refusals by name -/

theorem test_decode_ping :
    decodeWhole Config.default [0xFF#8, 0xFF#8, 0x01#8, 0x02#8, 0x01#8, 0xFB#8] = .ok (.wirePing 0x01#8) := by rfl
theorem test_decode_read :
    decodeWhole Config.default [0xFF#8, 0xFF#8, 0x05#8, 0x04#8, 0x02#8, 0x18#8, 0x02#8, 0xDA#8] =
      .ok (.wireRead 0x05#8 0x18#8 0x02#8) := by rfl
theorem test_decode_write :
    decodeWhole Config.default [0xFF#8, 0xFF#8, 0x03#8, 0x05#8, 0x03#8, 0x1E#8, 0x00#8, 0x02#8, 0xD4#8] =
      .ok (.wireWrite 0x03#8 0x1E#8 [0x00#8, 0x02#8]) := by rfl
theorem test_decode_regWrite :
    decodeWhole Config.default [0xFF#8, 0xFF#8, 0x03#8, 0x05#8, 0x04#8, 0x1E#8, 0x00#8, 0x02#8, 0xD3#8] =
      .ok (.wireRegWrite 0x03#8 0x1E#8 [0x00#8, 0x02#8]) := by rfl
theorem test_decode_action :
    decodeWhole Config.default [0xFF#8, 0xFF#8, 0xFE#8, 0x02#8, 0x05#8, 0xFA#8] = .ok .wireAction := by rfl
theorem test_decode_reset :
    decodeWhole Config.default [0xFF#8, 0xFF#8, 0x07#8, 0x02#8, 0x06#8, 0xF0#8] = .ok (.wireReset 0x07#8) := by rfl
theorem test_decode_syncWrite :
    decodeWhole Config.default
        [0xFF#8, 0xFF#8, 0xFE#8, 0x08#8, 0x83#8, 0x1E#8, 0x01#8, 0x01#8, 0x10#8, 0x02#8, 0x20#8, 0x24#8] =
      .ok (.wireSyncWrite 0x1E#8 [⟨0x01#8, [0x10#8]⟩, ⟨0x02#8, [0x20#8]⟩]) := by rfl
theorem test_decode_badChecksum :
    decodeWhole Config.default [0xFF#8, 0xFF#8, 0x01#8, 0x02#8, 0x01#8, 0xFC#8] = .error .badChecksum := by rfl
theorem test_decode_unknownCommand :
    decodeWhole Config.default [0xFF#8, 0xFF#8, 0x01#8, 0x02#8, 0x00#8, 0xFC#8] = .error .unknownCommand := by rfl
theorem test_decode_truncated :
    decodeWhole Config.default [0xFF#8, 0xFF#8, 0x01#8, 0x02#8, 0x01#8] = .error .truncated := by rfl
theorem test_decode_badHeader :
    decodeWhole Config.default [0xFF#8, 0x00#8, 0x01#8, 0x02#8, 0x01#8, 0xFB#8] = .error .badHeader := by rfl
theorem test_decode_badId :
    decodeWhole Config.default [0xFF#8, 0xFF#8, 0x01#8, 0x02#8, 0x05#8, 0xF7#8] = .error .badId := by rfl
theorem test_tableWords :
    [0x01, 0x02, 0x03, 0x04, 0x05, 0x06, 0x83].map (decodeTableWord 8) =
      [some (.wirePing 0#8), some (.wireRead 0#8 0#8 0#8), some (.wireWrite 0#8 0#8 []), some (.wireRegWrite 0#8 0#8 []),
        some .wireAction, some (.wireReset 0#8), some (.wireSyncWrite 0#8 [⟨0#8, []⟩])] := by decide
theorem test_tableWord_reserved : decodeTableWord 8 0x07 = none := by decide

/-! ### The wire instructions -/

theorem test_wirePing_true :
    historyOf (exec (.wirePing 0x01#8) (hearing (answerBytes good1))) =
      some ([.tx [0xFF#8, 0xFF#8, 0x01#8, 0x02#8, 0x01#8, 0xFB#8]] ++ received (answerBytes good1) ++
        [.result (.returned (.bool true))]) := by decide -- C1
theorem test_wireRead_data :
    resultOf (exec (.wireRead 0x06#8 0x2B#8 0x01#8)
      (hearing (answerBytes [0xFF#8, 0xFF#8, 0x06#8, 0x03#8, 0x00#8, 0x20#8, 0xD6#8]))) =
      some (.result (.returned (.bytes [0x20#8]))) := by decide -- C9
theorem test_wireWrite_timeout :
    historyOf (exec (.wireWrite 0x03#8 0x1E#8 [0x00#8, 0x02#8]) (hearing [.timeout])) =
      some [.tx [0xFF#8, 0xFF#8, 0x03#8, 0x05#8, 0x03#8, 0x1E#8, 0x00#8, 0x02#8, 0xD4#8], .rx .timeout,
        .result (.raised (.bus ⟨.timeout, .timeout⟩))] := by decide -- C16
theorem test_wireRegWrite_waits :
    historyOf (exec (.wireRegWrite 0x03#8 0x1E#8 [0x00#8, 0x02#8])
      (hearing (answerBytes [0xFF#8, 0xFF#8, 0x03#8, 0x02#8, 0x00#8, 0xFA#8]))) =
      some ([.tx [0xFF#8, 0xFF#8, 0x03#8, 0x05#8, 0x04#8, 0x1E#8, 0x00#8, 0x02#8, 0xD3#8]] ++
        received (answerBytes [0xFF#8, 0xFF#8, 0x03#8, 0x02#8, 0x00#8, 0xFA#8]) ++
        [.result (.returned .unit)]) := by decide -- C15
theorem test_wireAction :
    historyOf (exec .wireAction State.reset) =
      some [.tx [0xFF#8, 0xFF#8, 0xFE#8, 0x02#8, 0x05#8, 0xFA#8], .result (.returned .unit)] := by decide -- D1
theorem test_wireReset_otherId :
    historyOf (exec (.wireReset 0x07#8) (hearing (answerBytes good1))) =
      some ([.tx [0xFF#8, 0xFF#8, 0x07#8, 0x02#8, 0x06#8, 0xF0#8]] ++ received (answerBytes good1) ++
        [.result (.returned .unit)]) := by decide -- C20
theorem test_wireSyncWrite :
    historyOf (exec (.wireSyncWrite 0x1E#8 [⟨0x01#8, [0x10#8]⟩, ⟨0x02#8, [0x20#8]⟩]) State.reset) =
      some [.tx [0xFF#8, 0xFF#8, 0xFE#8, 0x08#8, 0x83#8, 0x1E#8, 0x01#8, 0x01#8, 0x10#8, 0x02#8, 0x20#8, 0x24#8],
        .result (.returned .unit)] := by decide -- D2

/-! ### PacketParser -/

theorem test_feed_P3 :
    feed .zeroParams Parser.initial
      [0x00#8, 0x12#8, 0xFF#8, 0x05#8, 0xFF#8, 0xFF#8, 0x01#8, 0x02#8, 0x00#8, 0xFC#8] = some (p1, .none, []) := by decide
theorem test_feed_P5 :
    (feed .zeroParams Parser.initial [0xFF#8, 0xFF#8, 0xFF#8, 0x02#8, 0x00#8, 0xFE#8]).map
        (fun x => (x.1.state, x.1.id, x.2)) = some (.done, 0xFF#8, .none, []) := by decide
theorem test_feed_P11 :
    (feed .fail Parser.initial [0xFF#8, 0xFF#8, 0x01#8, 0x00#8, 0x00#8, 0xFE#8]).map (fun x => (x.1.state, x.2)) =
      some (.failed, .checksum, [0xFE#8]) := by decide
theorem test_processByte_huntAgain :
    (parserOf (exec (.processByte 0x00#8) (parsed .waitStart2 0#8 0#8 0#8 []))).map (·.state) =
      some .waitStart1 := by decide -- P4
theorem test_processByte_checksum :
    resultOf (exec (.processByte 0x61#8) (parsed .waitChecksum 0x05#8 0x04#8 0x00#8 [0x96#8, 0x00#8])) =
      some (.result (.returned (.parse .checksum))) := by decide -- P2
theorem test_devId : resultOf (exec .devId (afterP1 0#8)) = some (.result (.returned (.byte 0x05#8))) := by decide
theorem test_paramLen : resultOf (exec .paramLen (afterP1 0#8)) = some (.result (.returned (.count 2))) := by decide
theorem test_paramByte : resultOf (exec (.paramByte 0) (afterP1 0#8)) = some (.result (.returned (.byte 0x96#8))) := by
  decide
theorem test_paramByte_range : refusalOf (exec (.paramByte 2) (afterP1 0#8)) = some .paramByteRange := by decide
theorem test_paramByte_returned : resultOf (exec (.paramByte 0) holding6) = some (.result (.returned (.byte 0x20#8))) := by
  decide -- Program 5
theorem test_params : resultOf (exec .params (afterP1 0#8)) = some (.result (.returned (.bytes [0x96#8, 0x00#8]))) := by
  decide
theorem test_errorCode : resultOf (exec .errorCode (afterP1 0x20#8)) = some (.result (.returned (.byte 0x20#8))) := by
  decide -- P7
theorem test_errorCodeStr_two :
    resultOf (exec .errorCodeStr (afterP1 0x21#8)) =
      some (.result (.returned (.text "INPUT_VOLTAGE,OVERLOAD"))) := by decide
theorem test_errorCodeStr_bit7 :
    resultOf (exec .errorCodeStr (afterP1 0x80#8)) = some (.result (.returned (.text "BIT7"))) := by decide

/-! ### PacketBuilder and BusController -/

theorem test_build_wrap :
    resultOf (exec (.build 0xFE#8 (.raw 0xFF#8) [0xFF#8]) State.reset) =
      some (.result (.returned (.frame [0xFF#8, 0xFF#8, 0xFE#8, 0x03#8, 0xFF#8, 0xFF#8, 0x00#8]))) := by decide -- B11
theorem test_build_id255 :
    refusalOf (exec (.build 255#8 (.cmd .ping) []) State.reset) = some .buildIdOutOfRange := by decide -- B15
theorem test_fillAndWritePacket :
    historyOf (exec (.fillAndWritePacket 0xFE#8 (.cmd .regWrite) [0x1E#8, 0xFF#8, 0x03#8]) State.reset) =
      some [.tx [0xFF#8, 0xFF#8, 0xFE#8, 0x05#8, 0x04#8, 0x1E#8, 0xFF#8, 0x03#8, 0xD8#8],
        .result (.returned .unit)] := by decide -- B12
theorem test_readStatusPacket_mask :
    resultOf (exec .readStatusPacket (hearing (answerBytes mask1))) =
      some (.result (.returned (.packet ⟨0x01#8, 0x02#8, 0x04#8, [], 0xF8#8⟩))) := by decide -- S5
theorem test_readStatusPacket_given :
    packetOf (exec .readStatusPacket
      (hearing (answerBytes [0xFF#8, 0xFF#8, 0x06#8, 0x03#8, 0x00#8, 0x20#8, 0xD6#8]))) = some packet6 := by
  decide -- Program 5
theorem test_readStatusPacket_cut :
    historyOf (exec .readStatusPacket
      (hearing (answerBytes [0xFF#8, 0xFF#8, 0x05#8, 0x04#8, 0x00#8] ++ [.timeout]))) =
      some (received (answerBytes [0xFF#8, 0xFF#8, 0x05#8, 0x04#8, 0x00#8] ++ [.timeout]) ++
        [.result (.raised (.bus ⟨.timeout, .timeout⟩))]) := by decide -- S3
theorem test_ping_deviceChecksumFlag :
    resultOf (exec (.ping 0x01#8)
      (hearing (answerBytes [0xFF#8, 0xFF#8, 0x01#8, 0x02#8, 0x10#8, 0xEC#8]))) =
      some (.result (.raised (.bus ⟨.device, .mask 0x10#8⟩))) := by decide -- C6
theorem test_ping_partial :
    resultOf (exec (.ping 0x01#8) (hearing (answerBytes [0xFF#8, 0xFF#8, 0x01#8] ++ [.timeout]))) =
      some (.result (.returned (.bool false))) := by decide -- C3
theorem test_ping_leavesNothing :
    resultOf (andThen (exec (.ping 0x01#8) (hearing (answerBytes good1))) (exec (.processByte 0xFF#8))) =
        some (.result (.returned (.parse .notDone))) ∧
      refusalOf (andThen (exec (.ping 0x01#8) (hearing (answerBytes good1))) (exec .devId)) = some .accessorNotDone := by
  decide -- R34, R230
theorem test_read_otherLength :
    resultOf (exec (.read 0x06#8 0x2B#8 0x01#8)
      (hearing (answerBytes [0xFF#8, 0xFF#8, 0x06#8, 0x04#8, 0x00#8, 0x20#8, 0x00#8, 0xD5#8]))) =
      some (.result (.returned (.bytes [0x20#8, 0x00#8]))) := by decide -- C10
theorem test_read_broadcast : refusalOf (exec (.read 254#8 0#8 1#8) State.reset) = some .readFromBroadcast := by
  decide -- C12
theorem test_write_empty :
    historyOf (exec (.write 0x09#8 0x19#8 [] false)
      (hearing (answerBytes [0xFF#8, 0xFF#8, 0x09#8, 0x02#8, 0x00#8, 0xF4#8]))) =
      some ([.tx [0xFF#8, 0xFF#8, 0x09#8, 0x03#8, 0x03#8, 0x19#8, 0xD7#8]] ++
        received (answerBytes [0xFF#8, 0xFF#8, 0x09#8, 0x02#8, 0x00#8, 0xF4#8]) ++
        [.result (.returned .unit)]) := by decide -- C13
theorem test_write_broadcastDeferred :
    historyOf (exec (.write 254#8 0x1E#8 [0x00#8, 0x02#8] true) (hearing [.timeout])) =
      some [.tx [0xFF#8, 0xFF#8, 0xFE#8, 0x05#8, 0x04#8, 0x1E#8, 0x00#8, 0x02#8, 0xD8#8],
        .result (.returned .unit)] := by decide -- C18
theorem test_reset_ok :
    resultOf (exec (.reset 0x07#8)
      (hearing (answerBytes [0xFF#8, 0xFF#8, 0x07#8, 0x02#8, 0x00#8, 0xF6#8]))) =
      some (.result (.returned .unit)) := by decide -- C19
theorem test_action :
    historyOf (exec .action State.reset) =
      some [.tx [0xFF#8, 0xFF#8, 0xFE#8, 0x02#8, 0x05#8, 0xFA#8], .result (.returned .unit)] := by decide -- D1
theorem test_syncWrite_noData :
    historyOf (exec (.syncWrite [1#8, 2#8, 3#8] 0x18#8 [[], [], []]) State.reset) =
      some [.tx [0xFF#8, 0xFF#8, 0xFE#8, 0x07#8, 0x83#8, 0x18#8, 0x00#8, 0x01#8, 0x02#8, 0x03#8, 0x59#8],
        .result (.returned .unit)] := by decide -- D3
theorem test_syncWrite_mismatch :
    historyOf (exec (.syncWrite [1#8, 2#8] 0#8 [[0#8, 1#8], [0#8, 1#8, 2#8]]) State.reset) =
      some [.result (.raised .validation)] := by decide -- W5
theorem test_sendPing :
    historyOf (exec (.sendPing 0x01#8) (hearing [.timeout])) =
      some [.tx [0xFF#8, 0xFF#8, 0x01#8, 0x02#8, 0x01#8, 0xFB#8], .result (.returned .unit)] := by decide -- D7
theorem test_sendRead :
    historyOf (exec (.sendRead 0x05#8 0x18#8 0x02#8) State.reset) =
      some [.tx [0xFF#8, 0xFF#8, 0x05#8, 0x04#8, 0x02#8, 0x18#8, 0x02#8, 0xDA#8], .result (.returned .unit)] := by
  decide -- D8
theorem test_sendWrite :
    historyOf (exec (.sendWrite 0x03#8 0x1E#8 [0x00#8, 0x02#8] false) State.reset) =
      some [.tx [0xFF#8, 0xFF#8, 0x03#8, 0x05#8, 0x03#8, 0x1E#8, 0x00#8, 0x02#8, 0xD4#8],
        .result (.returned .unit)] := by decide -- D9
theorem test_sendReset :
    historyOf (exec (.sendReset 0x07#8) State.reset) =
      some [.tx [0xFF#8, 0xFF#8, 0x07#8, 0x02#8, 0x06#8, 0xF0#8], .result (.returned .unit)] := by decide -- D10
theorem test_scan_aborted :
    historyOf (exec (.scan 1 3) (hearing (answerBytes good1 ++
      answerBytes [0xFF#8, 0xFF#8, 0x02#8, 0x02#8, 0x00#8, 0xFC#8]))) =
      some ([.tx [0xFF#8, 0xFF#8, 0x01#8, 0x02#8, 0x01#8, 0xFB#8]] ++ received (answerBytes good1) ++
        [.found 0x01#8, .tx [0xFF#8, 0xFF#8, 0x02#8, 0x02#8, 0x01#8, 0xFA#8]] ++
        received (answerBytes [0xFF#8, 0xFF#8, 0x02#8, 0x02#8, 0x00#8, 0xFC#8]) ++
        [.result (.raised (.bus ⟨.checksum, .checksum⟩))]) := by decide -- D13
theorem test_scan_upTo253 :
    resultOf (exec (.scan 250 4) (hearing [.timeout, .timeout, .timeout, .timeout])) =
      some (.result (.returned (.bool false))) := by decide -- D16

/-! ### Steps -/

theorem test_step_waits : step State.reset = .next State.reset := by rfl
theorem test_step_placed : opOf (step (State.reset.withFetchWord 8 0x02)) = some (some (.wireRead 0#8 0#8 0#8)) := by
  decide
theorem test_step_resumes :
    resultOf (step (pinging (answerBytes good1))) = some (.result (.returned (.bool true))) := by decide
theorem test_step_newParser :
    parserOf (step { parsed .waitParam 0x05#8 0x04#8 0x00#8 [0x96#8] with program := [.newParser] }) =
      some { state := .waitStart1, id := 0x05#8, len := 0x04#8, err := 0x00#8, buf := [], chk := 0x60#8 } := by
  decide -- R90
theorem test_step_undecodable :
    refusalOf (step { State.reset with program := [.frame [0xFF#8]] }) = some (.undecodable .truncated) := by decide

/-! ### The spec's way of writing: the examples of R75 -/

theorem test_text_frame : Machine.Instr.text Config.default (.wirePing 0x01#8) = "FF FF 01 02 01 FB" := by decide
theorem test_text_write :
    Machine.Instr.text Config.default (.write 0x03#8 0x1E#8 [0x00#8] true) = "write 3, 0x1E, [0x00], deferred" := by decide
theorem test_text_syncWrite :
    Machine.Instr.text Config.default (.syncWrite [1#8, 2#8] 0x1E#8 [[0x10#8], [0x20#8]]) =
      "sync_write [1, 2], 0x1E, [[0x10], [0x20]]" := by decide
theorem test_text_scan : Machine.Instr.text Config.default (.scan 0 4) = "scan 0, 4" := by decide

/-! ### Witnesses: PacketParser -/

theorem witness_firstHeaderByte : State.reset.Idle ∧ State.reset.packet = none ∧ State.reset.parser.state = .waitStart1 := by decide
theorem witness_secondHeaderByte :
    ∃ s : State, s.Idle ∧ s.packet = none ∧ s.parser.state = .waitStart2 := ⟨parsed .waitStart2 0#8 0#8 0#8 [], by decide⟩
theorem witness_everyByteIsAnId :
    ∃ s : State, s.Idle ∧ s.packet = none ∧ s.parser.state = .waitId := ⟨parsed .waitId 0#8 0#8 0#8 [], by decide⟩
theorem witness_lengthByte :
    ∃ s : State, s.Idle ∧ s.parser.state = .waitLength := ⟨parsed .waitLength 0#8 0#8 0#8 [], by decide⟩
theorem witness_errorByte_two :
    ∃ s : State, s.Idle ∧ s.parser.state = .waitError ∧ 2 ≤ s.parser.len.toNat ∧ s.parser.len.toNat = 2 :=
  ⟨parsed .waitError 0#8 2#8 0#8 [], by decide⟩
theorem witness_errorByte_short :
    ∃ s : State, s.Idle ∧ s.parser.state = .waitError ∧ s.parser.len.toNat < 2 :=
  ⟨parsed .waitError 0#8 1#8 0#8 [], by decide⟩
theorem witness_discards :
    ∃ s t : State, s.packet ≠ none ∧ exec (.processByte 0xFF#8) s = .next t :=
  ⟨holding6,
    { parsed .waitId 0#8 0#8 0#8 [] with history := [.result (.returned (.parse .notDone))] }, by decide, rfl⟩
theorem witness_parameter :
    ∃ s : State, s.Idle ∧ s.parser.state = .waitParam ∧ 3 ≤ s.parser.len.toNat ∧ s.parser.ok = true :=
  ⟨parsed .waitParam 0#8 3#8 0#8 [], by decide⟩
theorem witness_parameter_absorbed :
    ∃ s : State, s.Idle ∧ s.parser.state = .waitParam ∧ s.parser.len.toNat < 2 ∧ s.parser.ok = true :=
  ⟨parsed .waitParam 0#8 1#8 0#8 [], by decide⟩
theorem witness_parameter_buffer :
    ∃ (p q : Parser) (b : Byte) (r : ParseResult), p.ok = true ∧ processByte .zeroParams p b = some (q, r) :=
  ⟨Parser.initial, { Parser.initial with state := .waitStart2 }, 0xFF#8, .notDone, by decide⟩
theorem witness_checksumByte_good :
    ∃ (s : State) (b : Byte), s.Idle ∧ s.packet = none ∧ s.parser.state = .waitChecksum ∧
      b = checksum s.parser.id s.parser.len s.parser.err s.parser.buf :=
  ⟨parsed .waitChecksum 5#8 4#8 0#8 [0x96#8, 0#8], 0x60#8, by decide⟩
theorem witness_checksumByte_bad :
    ∃ (s : State) (b : Byte), s.Idle ∧ s.packet = none ∧ s.parser.state = .waitChecksum ∧
      b ≠ checksum s.parser.id s.parser.len s.parser.err s.parser.buf :=
  ⟨parsed .waitChecksum 5#8 4#8 0#8 [0x96#8, 0#8], 0x61#8, by decide⟩
theorem witness_terminalParser : ∃ s : State, s.Idle ∧ s.parser.terminal = true := ⟨afterP1 0#8, by decide⟩
theorem witness_terminalParser_running : ∃ s : State, s.inv = true ∧ s.op ≠ none := ⟨pinging [], by decide⟩
theorem witness_parseEnds :
    ∃ (p q : Parser) (b : Byte) (r : ParseResult), processByte .zeroParams p b = some (q, r) ∧ q.terminal = true :=
  ⟨{ p1 with state := .waitChecksum }, p1, 0xFC#8, .none, by decide⟩
theorem witness_parseEnds_fail :
    ∃ (p q : Parser) (b : Byte) (r : ParseResult), processByte .fail p b = some (q, r) ∧ q.terminal = true :=
  ⟨{ p1 with state := .waitError, len := 1#8 }, { p1 with state := .failed, len := 1#8 }, 0#8, .checksum, by decide⟩
theorem witness_parseEnds_cut :
    ∃ (ps : List Byte) (k : Nat), ps.length ≤ 253 ∧ k < ps.length + 6 := ⟨many 253 0#8, 258, by simp⟩
theorem witness_frameAfterNoise :
    ∃ (before ps : List Byte), noise before = true ∧ ps.length ≤ 253 ∧ before.getLast? ≠ some 0xFF#8 :=
  ⟨[0xFF#8, 0#8], [], by decide⟩
theorem witness_frameAfterNoise_header :
    ∃ before : List Byte, noise before = true ∧ before.getLast? = some 0xFF#8 := ⟨[0x00#8, 0xFF#8], by decide⟩
theorem witness_builtFrameParsesBack :
    ∃ (s : State) (f : List Byte), s.Idle ∧ s.parser.state = .waitStart1 ∧
      buildFrame s.cfg.codes 254#8 (.raw 0xFF#8) [0xFF#8] = .ok f ∧
      s.program = f.map (fun b => .call (.processByte b)) ++ [.call .params] :=
  ⟨{ State.reset with
      program := [.call (.processByte 0xFF#8), .call (.processByte 0xFF#8), .call (.processByte 0xFE#8),
        .call (.processByte 0x03#8), .call (.processByte 0xFF#8), .call (.processByte 0xFF#8),
        .call (.processByte 0x00#8), .call .params] },
    [0xFF#8, 0xFF#8, 0xFE#8, 0x03#8, 0xFF#8, 0xFF#8, 0x00#8], by decide, by decide, rfl, by decide⟩
theorem witness_singleBitError :
    ∃ (ps : List Byte) (j k : Nat), ps.length ≤ 253 ∧ (j = 2 ∨ (4 ≤ j ∧ j < ps.length + 6)) ∧ k < 8 :=
  ⟨[], 5, 7, by decide⟩
theorem witness_accessors : (afterP1 0#8).Idle ∧ (afterP1 0#8).packet = none ∧ (afterP1 0#8).parser.state = .done := by decide
theorem witness_returnedPacket : holding6.Idle ∧ holding6.packet = some packet6 ∧ 0 < packet6.params.length := by decide
theorem witness_paramByte_last : (afterP1 0#8).parser.state = .done ∧ 1 < (afterP1 0#8).parser.buf.length := by decide
theorem witness_paramByte_beyond : (afterP1 0#8).parser.state = .done ∧ (afterP1 0#8).parser.buf.length ≤ 2 := by decide
theorem witness_accessors_refused :
    ∃ (s : State) (i : Instr), s.Idle ∧ onParser i = true ∧ (∀ b, i ≠ .processByte b) ∧ s.packet = none ∧
      s.parser.state ≠ .done :=
  ⟨State.reset, .params, by decide, by decide, by simp, by decide, by decide⟩
theorem witness_accessors_repeated :
    ∃ (s t : State) (i : Instr), s.Idle ∧ onParser i = true ∧ (∀ b, i ≠ .processByte b) ∧ exec i s = .next t :=
  ⟨afterP1 0#8, { afterP1 0#8 with history := [.result (.returned (.byte 0x05#8))] }, .devId, by decide, by decide,
    by simp, rfl⟩
theorem witness_errorText :
    (afterP1 0x80#8).Idle ∧ (afterP1 0x80#8).packet = none ∧ (afterP1 0x80#8).parser.state = .done ∧ (afterP1 0x80#8).cfg.bits.toList.Nodup ∧
      (afterP1 0x80#8).parser.err ≠ 0#8 := by decide
theorem witness_errorText_none :
    (afterP1 0#8).Idle ∧ (afterP1 0#8).packet = none ∧ (afterP1 0#8).parser.state = .done ∧ (afterP1 0#8).cfg.bits.toList.Nodup ∧
      (afterP1 0#8).parser.err = 0#8 := by decide

/-! ### Witnesses: PacketBuilder and commands -/

theorem witness_build :
    ∃ (s : State) (id : Byte) (ps : List Byte), s.Idle ∧ id.toNat ≤ 254 ∧ ps.length ≤ 253 :=
  ⟨State.reset, 254#8, many 253 0#8, by decide, by decide, by simp⟩
theorem witness_build_long :
    ∃ (s : State) (id : Byte) (ps : List Byte), s.Idle ∧ id.toNat ≤ 254 ∧ 253 < ps.length :=
  ⟨State.reset, 254#8, many 254 0#8, by decide, by decide, by simp⟩
theorem witness_build_id255 : ∃ (s : State) (id : Byte), s.Idle ∧ id = 255#8 := ⟨State.reset, 255#8, by decide⟩
theorem witness_checksumLaws_bound :
    ∃ (id n e : Byte) (ps : List Byte), id.toNat ≤ 254 ∧ ps.length ≤ 253 ∧
      id.toNat + n.toNat + e.toNat + (ps.map BitVec.toNat).sum = 65279 :=
  ⟨254#8, 255#8, 255#8, many 253 255#8, by decide, by simp, by rw [many_sum]; decide⟩
theorem witness_checksumLaws_change :
    ∃ (ps : List Byte) (k : Nat) (b : Byte) (h : k < ps.length), b ≠ ps[k] := ⟨[0#8], 0, 1#8, by decide, by decide⟩
theorem witness_checksumLaws_order : ∃ ps qs : List Byte, ps ≠ qs ∧ ps.Perm qs :=
  ⟨[0#8, 1#8], [1#8, 0#8], by decide, List.Perm.swap _ _ _⟩

/-- The four clauses of `AnswersGive` have streams that meet them: a good packet, a mismatch, a timeout, an unfinished
reply. -/
theorem witness_answers_good :
    ∃ p, feed State.reset.cfg.shortLen State.reset.rxParser.reset good1 = some (p, .none, []) ∧
      (hearing (answerBytes good1 ++ [.timeout])).rx = answerBytes good1 ++ [.timeout] := ⟨p1, by decide⟩
theorem witness_answers_mask :
    ∃ p, feed State.reset.cfg.shortLen State.reset.rxParser.reset mask1 = some (p, .none, []) ∧ p.err ≠ 0#8 :=
  ⟨{ p1 with err := 0x04#8, chk := 0xF8#8 }, by decide⟩
theorem witness_answers_checksum :
    ∃ p, feed State.reset.cfg.shortLen State.reset.rxParser.reset bad1 = some (p, .checksum, []) ∧
      (hearing (answerBytes bad1)).rx = answerBytes bad1 ++ [] :=
  ⟨{ p1 with state := .failed, chk := 0xFD#8 }, by decide⟩
theorem witness_answers_timeout :
    ∃ p, feed State.reset.cfg.shortLen State.reset.rxParser.reset [] = some (p, .notDone, []) ∧
      (hearing [.timeout]).rx = answerBytes [] ++ .timeout :: [] := ⟨Parser.initial, by decide⟩
theorem witness_answers_unfinished :
    ∃ p, feed State.reset.cfg.shortLen State.reset.rxParser.reset [0xFF#8] = some (p, .notDone, []) ∧
      (hearing [.byte 0xFF#8]).rx = answerBytes [0xFF#8] :=
  ⟨{ Parser.initial with state := .waitStart2 }, by decide⟩
theorem witness_idOfADevice : State.reset.Idle ∧ (253#8 : Byte).toNat ≤ 253 := by decide
theorem witness_writeData : ∃ data : List Byte, data.length ≤ 252 ∧ 252 < (0#8 :: data).length :=
  ⟨many 252 0#8, by simp⟩
theorem witness_noByteLimit :
    (hearing (answerBytes (List.replicate 3 0x00#8))).Idle ∧
      (hearing (answerBytes (List.replicate 3 0x00#8))).rx = answerBytes (List.replicate 3 0x00#8) := by decide
theorem witness_noByteLimit_absorb :
    ∃ s : State, s.Idle ∧ s.cfg.shortLen = .absorb ∧ (1#8 : Byte).toNat < 2 ∧
      s.rx = answerBytes ([0xFF#8, 0xFF#8, 0#8, 1#8, 0#8] ++ [0xFD#8]) :=
  ⟨under .absorb (hearing (answerBytes [0xFF#8, 0xFF#8, 0#8, 1#8, 0#8, 0xFD#8])), by decide⟩
theorem witness_send : State.reset.Idle ∧ (254#8 : Byte).toNat ≤ 254 := by decide
theorem witness_syncWrite_count :
    ∃ (ids : List Byte) (values : List (List Byte)), values.length ≠ ids.length := ⟨[1#8], [[1#8], [2#8]], by decide⟩
theorem witness_syncWrite_lengths :
    ∃ values : List (List Byte), ∃ v ∈ values, ∃ w ∈ values, v.length ≠ w.length := ⟨[[], [0#8]], by decide⟩
theorem witness_syncWrite_empty :
    ∃ (ids : List Byte) (values : List (List Byte)) (L : Nat), values.length = ids.length ∧
      (∀ v ∈ values, v.length = L) ∧ ids = [] := ⟨[], [], 1, by simp⟩
theorem witness_syncWrite_long :
    ∃ (ids : List Byte) (values : List (List Byte)) (L : Nat), values.length = ids.length ∧
      (∀ v ∈ values, v.length = L) ∧ ids ≠ [] ∧ 253 < 2 + ids.length * (L + 1) :=
  ⟨[1#8], [many 251 0#8], 251, by simp⟩
theorem witness_syncWrite_sent :
    ∃ (ids : List Byte) (values : List (List Byte)) (L : Nat), values.length = ids.length ∧
      (∀ v ∈ values, v.length = L) ∧ ids ≠ [] ∧ 2 + ids.length * (L + 1) ≤ 253 :=
  ⟨[1#8], [many 250 0#8], 250, by simp⟩
theorem witness_wireSyncWrite :
    ∃ (blocks : List DeviceBlock) (L : Nat), blocks ≠ [] ∧ (∀ b ∈ blocks, b.values.length = L) ∧
      2 + blocks.length * (L + 1) ≤ 253 := ⟨[⟨1#8, many 250 0#8⟩], 250, by simp⟩

/-! ### Witnesses: scan -/

/-- Two replies at the end of the range of IDs: ID 252 is silent, ID 253 answers after some noise (P3). -/
def lastReplies : List PingReply :=
  [.cut [], .status [0x00#8, 0x12#8, 0xFF#8, 0x05#8, 0xFF#8, 0xFF#8, 0x01#8, 0x02#8, 0x00#8, 0xFC#8]]

theorem witness_scanVisits :
    ∃ s : State, s.Idle ∧ 252 + 2 ≤ 254 ∧ lastReplies.length = 2 ∧
      (∀ r ∈ lastReplies, r.lawful s.cfg.shortLen = true) ∧ lastReplies ≠ [] ∧
      s.rx = lastReplies.flatMap PingReply.answers ++ [.timeout] :=
  ⟨hearing (lastReplies.flatMap PingReply.answers ++ [.timeout]), by decide⟩
theorem witness_scanVisits_none :
    ∃ s : State, s.Idle ∧ 254 + 0 ≤ 254 ∧ ([] : List PingReply).length = 0 ∧
      s.rx = ([] : List PingReply).flatMap PingReply.answers ++ [] := ⟨State.reset, by decide⟩
theorem witness_scanVisits_running :
    ∃ (s : State) (p : Parser), s.Idle ∧ 253 + 1 ≤ 254 ∧ ([] : List PingReply).length < 1 ∧
      feed s.cfg.shortLen Parser.initial [0xFF#8] = some (p, .notDone, []) ∧
      s.rx = ([] : List PingReply).flatMap PingReply.answers ++ answerBytes [0xFF#8] :=
  ⟨hearing [.byte 0xFF#8], { Parser.initial with state := .waitStart2 }, by decide⟩
theorem witness_scanEnds_device :
    ∃ (s : State) (p : Parser) (e : BusError), s.Idle ∧ 253 + 1 ≤ 254 ∧ ([] : List PingReply).length < 1 ∧
      s.rx = ([] : List PingReply).flatMap PingReply.answers ++ answerBytes mask1 ++ [] ∧
      feed s.cfg.shortLen Parser.initial mask1 = some (p, .none, []) ∧ p.err ≠ 0#8 ∧
      e = { kind := .device, code := .mask p.err } :=
  ⟨hearing (answerBytes mask1), { p1 with err := 0x04#8, chk := 0xF8#8 }, ⟨.device, .mask 0x04#8⟩, by decide⟩
theorem witness_scanEnds_checksum :
    ∃ (s : State) (p : Parser) (e : BusError), s.Idle ∧ 1 + 2 ≤ 254 ∧ [PingReply.status good1].length < 2 ∧
      (∀ r ∈ [PingReply.status good1], r.lawful s.cfg.shortLen = true) ∧
      s.rx = [PingReply.status good1].flatMap PingReply.answers ++ answerBytes bad1 ++ [.timeout] ∧
      feed s.cfg.shortLen Parser.initial bad1 = some (p, .checksum, []) ∧
      e = { kind := .checksum, code := .checksum } :=
  ⟨hearing (answerBytes good1 ++ answerBytes bad1 ++ [.timeout]), { p1 with state := .failed, chk := 0xFD#8 },
    ⟨.checksum, .checksum⟩, by decide⟩
theorem witness_scanNothing : State.reset.Idle ∧ 254 ≤ 254 ∧ 254 < 251 + 4 := by decide

/-! ### Witnesses: all operations, steps and encoding -/

theorem witness_transmitsItsEncoding :
    ∃ (s t : State) (i : Instr) (f : List Byte), i.wellFormed = true ∧ encode s.cfg i = some f ∧ exec i s = .next t :=
  ⟨State.reset,
    { State.reset with
      history := [.tx [0xFF#8, 0xFF#8, 0xFE#8, 0x02#8, 0x05#8, 0xFA#8], .result (.returned .unit)] },
    .wireAction, [0xFF#8, 0xFF#8, 0xFE#8, 0x02#8, 0x05#8, 0xFA#8], by decide, by decide, rfl⟩
theorem witness_busy : ∃ s : State, s.phase ≠ .idle ∨ s.op ≠ none := ⟨pinging [], by decide⟩
theorem witness_commandsRun :
    ∃ (s : State) (i : Instr), s.Idle ∧ onParser i = false ∧ i.wellFormed = true := ⟨State.reset, .ping 253#8, by decide⟩
theorem witness_commandsRun_refused :
    ∃ (s : State) (i : Instr), s.Idle ∧ onParser i = false ∧ i.wellFormed = false ∧
      ∀ offset blocks, i ≠ .wireSyncWrite offset blocks := ⟨State.reset, .ping 254#8, by decide, by decide, by decide, by simp⟩
theorem witness_outcomes :
    ∃ (s t : State) (i : Instr), exec i s = .next t ∧ t.op = none ∧ ∀ a n, i ≠ .scan a n :=
  ⟨hearing [.timeout],
    { State.reset with
      history := [.tx [0xFF#8, 0xFF#8, 0x01#8, 0x02#8, 0x01#8, 0xFB#8], .rx .timeout, .result (.returned (.bool false))] },
    .ping 0x01#8, rfl, rfl, by simp⟩
theorem witness_outcomes_running :
    ∃ (s t : State) (i : Instr), exec i s = .next t ∧ t.op = some i := ⟨State.reset, pinging [], .ping 0x01#8, rfl, rfl⟩
theorem witness_frame_raised :
    ∃ (s t : State) (i : Instr) (e : BusError), exec i s = .next t ∧
      t.history.getLast? = some (.result (.raised (.bus e))) ∧ t.history ≠ s.history :=
  ⟨hearing [.timeout],
    { State.reset with history := [.rx .timeout, .result (.raised timeoutError)] },
    .readStatusPacket, ⟨.timeout, .timeout⟩, rfl, by decide, by decide⟩
theorem witness_frame_noReply : ∃ i : Instr, replyOf i = none ∧ ∀ b, i ≠ .processByte b := ⟨.action, rfl, by simp⟩
theorem witness_nothingVisible :
    ∃ (s t : State) (i j : Instr), onParser i = false ∧ i ≠ .readStatusPacket ∧ onParser j = true ∧ s.packet = none ∧
      exec i s = .next t ∧ t.op = none ∧ ∃ r, exec j s = .refused r :=
  ⟨hearing (answerBytes good1),
    { State.reset with
      rxParser := { p1 with state := .waitStart1 }
      history := .tx [0xFF#8, 0xFF#8, 0x01#8, 0x02#8, 0x01#8, 0xFB#8] :: received (answerBytes good1) ++
        [.result (.returned (.bool true))] },
    .ping 0x01#8, .devId, by decide, by decide, by decide, by decide, rfl, by decide, .accessorNotDone, rfl⟩
theorem witness_nothingVisible_next :
    ∃ (s t : State) (i j : Instr), onParser i = false ∧ i ≠ .readStatusPacket ∧ onParser j = true ∧ s.packet = none ∧
      exec i s = .next t ∧ t.op = none ∧ ∃ u r, exec j s = .next u ∧ u.history = s.history ++ [.result r] :=
  ⟨State.reset,
    { State.reset with
      history := [.tx [0xFF#8, 0xFF#8, 0xFE#8, 0x02#8, 0x05#8, 0xFA#8], .result (.returned .unit)] },
    .action, .processByte 0x00#8, by decide, by decide, by decide, by decide, rfl, by decide,
    { State.reset with history := [.result (.returned (.parse .notDone))] }, .returned (.parse .notDone), rfl, rfl⟩
theorem witness_outcomeDepends :
    ∃ (s₁ s₂ : State) (i : Instr), s₁.Idle ∧ s₂.Idle ∧ onParser i = false ∧ s₁.cfg = s₂.cfg ∧ s₁.rx = s₂.rx ∧
      s₁.parser ≠ s₂.parser ∧ s₁.rxParser ≠ s₂.rxParser :=
  ⟨State.reset, { afterP1 0x20#8 with rxParser := p1 }, .ping 0x01#8, by decide⟩
theorem witness_step_call :
    ∃ s : State, s.Idle ∧ s.program = .call .action :: [] := ⟨{ State.reset with program := [.call .action] }, by decide⟩
theorem witness_step_frame :
    ∃ (s : State) (bytes : List Byte) (i : Instr), s.Idle ∧ s.program = .frame bytes :: [] ∧
      decodeWhole s.cfg bytes = .ok i :=
  ⟨{ State.reset with program := [.frame [0xFF#8, 0xFF#8, 0xFE#8, 0x02#8, 0x05#8, 0xFA#8]] },
    [0xFF#8, 0xFF#8, 0xFE#8, 0x02#8, 0x05#8, 0xFA#8], .wireAction, by decide, by decide, rfl⟩
theorem witness_step_newParser : ∃ s : State, s.Idle ∧ s.program = .newParser :: [] :=
  ⟨{ afterP1 0#8 with program := [.newParser] }, by decide⟩
theorem witness_step_undecodable :
    ∃ (s : State) (bytes : List Byte) (e : DecodeError), s.Idle ∧ s.program = .frame bytes :: [] ∧
      decodeWhole s.cfg bytes = .error e :=
  ⟨{ State.reset with program := [.frame [0xFF#8]] }, [0xFF#8], .truncated, by decide, by decide, rfl⟩
theorem witness_step_resumes :
    ∃ (s : State) (i : Instr), s.op = some i ∧ s.phase = .rx ∧ s.rx = .timeout :: [] :=
  ⟨pinging [.timeout], .ping 0x01#8, by decide⟩
theorem witness_step_free :
    ∃ (s : State) (i : Instr), s.op = some i ∧ s.phase = .rx ∧ s.rx = [] := ⟨pinging [], .ping 0x01#8, by decide⟩
theorem witness_placedWord : decodeTableWord 8 0x83 = some (.wireSyncWrite 0#8 [⟨0#8, []⟩]) := by decide
theorem witness_invariant :
    ∃ s t : State, s.inv = true ∧ step s = .next t ∧ s.op ≠ none :=
  ⟨pinging [.byte 0xFF#8], { pinging [] with
      rxParser := { Parser.initial with state := .waitStart2 }
      history := [.tx [0xFF#8, 0xFF#8, 0x01#8, 0x02#8, 0x01#8, 0xFB#8], .rx (.byte 0xFF#8)] },
    by decide, rfl, by decide⟩
theorem witness_noRunFaults : State.reset.inv = true ∧ (pinging []).inv = true := by decide
theorem witness_sentOk : ∃ s t : State, s.sentOk = true ∧ s.history ≠ [] ∧ step s = .next t :=
  ⟨{ pinging [] with phase := .idle, op := none }, { pinging [] with phase := .idle, op := none }, by decide, by decide, rfl⟩
theorem witness_appends : ∃ s t : State, step s = .next t := ⟨State.reset, State.reset, rfl⟩
theorem witness_decodeOfEncode :
    Config.default.codes.toList.Nodup ∧ (Instr.wireSyncWrite 0x1E#8 [⟨1#8, [0x10#8]⟩, ⟨2#8, [0x20#8]⟩]).wellFormed = true ∧
      isWire (.wireSyncWrite 0x1E#8 [⟨1#8, [0x10#8]⟩, ⟨2#8, [0x20#8]⟩]) = true := by decide
theorem witness_decodedBytes :
    decode Config.default [0xFF#8, 0xFF#8, 0xFE#8, 0x02#8, 0x05#8, 0xFA#8, 0x00#8] = .ok (.wireAction, [0x00#8]) := by rfl

end Sys2Proof.Tests
end

section
/-! PROOFS. The statements of the PacketParser's one-byte arms and of its `params` and `error_code` accessors
(spec/40_parser.md R92 to R94, R98, R110, R111): first what `processByte` answers in each of these states, then what
`exec` makes of it, then the statements. -/

namespace Sys2Proof.Machine

open Sys2Proof

/-! ### One byte, one arm -/

section Arms
variable (pol : ShortLenPolicy) {p : Parser} {b : Byte}

/-- The WAIT_START1 arm (R92) as one update of `P.state`. -/
theorem processByte_waitStart1 (hs : p.state = .waitStart1) :
    processByte pol p b = some ({ p with state := if b = hdr then .waitStart2 else .waitStart1 }, .notDone) := by
  simp only [processByte, hs, stepStart1]
  split_ifs
  · rfl
  · rw [← hs]

/-- The WAIT_START2 arm (R93) as one update of `P.state`. -/
theorem processByte_waitStart2 (hs : p.state = .waitStart2) :
    processByte pol p b = some ({ p with state := if b = hdr then .waitId else .waitStart1 }, .notDone) := by
  rw [processByte, hs, stepStart2]
  split_ifs <;> rfl

/-- The WAIT_ID arm (R94). -/
theorem processByte_waitId (hs : p.state = .waitId) :
    processByte pol p b = some ({ p with id := b, state := .waitLength }, .notDone) := by
  rw [processByte, hs, stepId]

/-- The WAIT_CHECKSUM arm on the expected byte (R98). -/
theorem processByte_waitChecksum_match (hs : p.state = .waitChecksum) (hb : b = p.expected) :
    processByte pol p b = some ({ p with chk := b, state := .done }, .none) := by
  rw [processByte, hs, stepChecksum, if_pos hb]

/-- The WAIT_CHECKSUM arm on any other byte (R98). -/
theorem processByte_waitChecksum_mismatch (hs : p.state = .waitChecksum) (hb : b ≠ p.expected) :
    processByte pol p b = some ({ p with chk := b, state := .failed }, .checksum) := by
  rw [processByte, hs, stepChecksum, if_neg hb]

end Arms

/-- A lone 0xFF and another byte put the hunt back where it began, so the two 0xFF that follow are the header (R93). -/
theorem feed_huntAgain (pol : ShortLenPolicy) {p : Parser} (hs : p.state = .waitStart1) {b : Byte} (hb : b ≠ hdr) :
    feed pol p [hdr, b, hdr, hdr] = some ({ p with state := .waitId }, .notDone, []) := by
  have hnoise : noise [hdr, b] = true := by simp [noise, hb]
  calc feed pol p ([hdr, b] ++ [hdr, hdr])
      = feed pol p [hdr, hdr] := by
        rw [feed_noise pol _ _ hnoise p hs, p.afterNoise_of_ne hs (by simpa using hb)]
    _ = feed pol { p with state := .waitStart2 } [hdr] := feed_cons_notDone _ (processByte_waitStart1 pol hs)
    _ = feed pol { p with state := .waitId } [] := feed_cons_notDone _ (processByte_waitStart2 pol rfl)
    _ = some ({ p with state := .waitId }, .notDone, []) := feed_nil pol _

/-! ### From the parser to `exec` -/

/-- `process_byte` in an idle state hands the host what the parser answers, and discards a Packet held (R91, log entry 4). -/
theorem exec_processByte {s : State} (h : s.Idle) {b : Byte} {p : Parser} {r : ParseResult}
    (hp : processByte s.cfg.shortLen s.parser b = some (p, r)) :
    exec (.processByte b) s = .next { s with
      parser := p
      packet := none
      history := s.history ++ [.result (.returned (.parse r))] } := by
  rw [exec_idle _ h]
  simp only [bodyOf, hp]
  exact complete_issued h _ _ _ _

/-- With no Packet held, `process_byte` writes the parser and the history only. -/
theorem exec_processByte_unheld {s : State} (h : s.Idle) (hk : s.packet = none) {b : Byte} {p : Parser}
    {r : ParseResult} (hp : processByte s.cfg.shortLen s.parser b = some (p, r)) :
    exec (.processByte b) s = .next { s with
      parser := p
      history := s.history ++ [.result (.returned (.parse r))] } := by
  rw [exec_processByte h hp, ← hk]

/-- An accessor whose body returns `v` of the packet it reads does so and writes the history only (R106). -/
theorem exec_accessor {s : State} (h : s.Idle) {i : Instr} {v : Packet → Value} {k : Packet}
    (hi : ∀ t, bodyOf i t = accessor t fun k t => complete (v k) t) (hk : s.readable = some k) :
    exec i s = .next { s with history := s.history ++ [.result (.returned (v k))] } := by
  have hread : State.readable { s with op := some i } = some k := hk
  rw [exec_idle i h, hi, accessor_some hread]
  exact complete_issued h _ _ _ _

/-- In DONE with no Packet held, the accessors read the parser's registers (R106). -/
theorem readable_done {s : State} (hk : s.packet = none) (hd : s.parser.state = .done) :
    s.readable = some s.parser.packet := by
  rw [readable_parser hk, if_pos hd]

/-! ### The statements -/

/-- Settles O1: the WAIT_START1 arm, run by `process_byte`. -/
theorem firstHeaderByteIsHunted : Obligations.FirstHeaderByteIsHunted := by
  intro s b hidle hk hs
  exact exec_processByte_unheld hidle hk (processByte_waitStart1 _ hs)

/-- Settles O2: the WAIT_START2 arm, and the hunt begun again by the byte 0x00. -/
theorem secondHeaderByteOrHuntAgain : Obligations.SecondHeaderByteOrHuntAgain := by
  constructor
  · intro s b hidle hk hs
    exact exec_processByte_unheld hidle hk (processByte_waitStart2 _ hs)
  · intro pol p hs
    exact feed_huntAgain pol hs (by decide)

/-- Settles O3: the WAIT_ID arm. The six bytes are the whole frame of ID 0xFF with no parameters, which `feed_frame` parses
under every policy. -/
theorem everyByteIsAnId : Obligations.EveryByteIsAnId := by
  constructor
  · intro s b hidle hk hs
    exact exec_processByte_unheld hidle hk (processByte_waitId _ hs)
  · intro pol p
    have hframe : frame 0xFF#8 0x00#8 [] = [0xFF#8, 0xFF#8, 0xFF#8, 0x02#8, 0x00#8, 0xFE#8] := by decide
    have hfeed := feed_frame pol (reset_state p) 0xFF#8 0x00#8 (ps := []) (by simp) []
    rw [hframe, List.append_nil] at hfeed
    exact ⟨_, hfeed, rfl, rfl⟩

/-- Settles O6: the two outcomes of the WAIT_CHECKSUM arm. -/
theorem checksumByteEndsTheParse : Obligations.ChecksumByteEndsTheParse := by
  intro s b hidle hk hs
  constructor
  · intro hb
    exact exec_processByte_unheld hidle hk (processByte_waitChecksum_match _ hs hb)
  · intro hb
    exact exec_processByte_unheld hidle hk (processByte_waitChecksum_mismatch _ hs hb)

/-- Settles O12: both accessors read the parser's registers in DONE. -/
theorem paramsAndErrorCodeAreReturned : Obligations.ParamsAndErrorCodeAreReturned := by
  intro s hidle hk hd
  have hread : s.readable = some s.parser.packet := readable_done hk hd
  constructor
  · exact exec_accessor hidle (v := fun k => .bytes k.params) (fun _ => rfl) hread
  · exact exec_accessor hidle (v := fun k => .byte k.error) (fun _ => rfl) hread

end Sys2Proof.Machine
end

section
/-! PROOFS. The checksum as an integer formula (spec/41_builder.md R121): `BitVec.ofNat 8` carries integer addition to
byte addition, so the model's sum mod 256 is the low byte of the integer sum. -/

namespace Sys2Proof.Machine

open Sys2Proof

/-- The sum accumulated mod 256 is the low byte of the integer sum. -/
theorem byteSum_eq_ofNat_sum (ps : List Byte) : byteSum ps = BitVec.ofNat 8 (ps.map BitVec.toNat).sum := by
  induction ps with
  | nil => rfl
  | cons b bs ih =>
    rw [byteSum, ih, List.map_cons, List.sum_cons, BitVec.ofNat_add, BitVec.ofNat_toNat, BitVec.setWidth_eq]

/-- The checksum is the NOT of the low byte of the integer sum of ID, length, error_or_cmd and parameters (R121). -/
theorem checksum_eq_not_ofNat_sum (id n e : Byte) (ps : List Byte) :
    checksum id n e ps = ~~~ (BitVec.ofNat 8 (id.toNat + n.toNat + e.toNat + (ps.map BitVec.toNat).sum)) := by
  rw [checksum, byteSum_eq_ofNat_sum]
  simp only [BitVec.ofNat_add, BitVec.ofNat_toNat, BitVec.setWidth_eq]

/-- Settles O17: the builder's half is `checksum_eq_not_ofNat_sum`; the parser's expected byte is `checksum` of its
registers by definition. -/
theorem checksumIsTheInvertedSum : Obligations.ChecksumIsTheInvertedSum := by
  constructor
  · exact checksum_eq_not_ofNat_sum
  · intro p
    rfl

end Sys2Proof.Machine
end

section
/-! PROOFS. The operations that transmit one frame and return with no receive event (spec/43_bus_broadcast_scan.md R170,
R180 to R183): what any instruction with such a body does in an idle state, then the statements. -/

namespace Sys2Proof.Machine

open Sys2Proof

/-- An instruction whose body transmits one frame and returns (R74) adds these two events to an idle state and changes
nothing else: phase and operation are back where they were. -/
theorem exec_sendOnly {s : State} (h : s.Idle) {i : Instr} {id : Byte} {c : CommandArg} {ps : List Byte}
    (hi : ∀ t, bodyOf i t = sendOnly id c ps t) (hid : id.toNat ≤ 254) (hps : ps.length ≤ 253) :
    exec i s = .next { s with
      history := s.history ++ [.tx (frame id (commandByte s.cfg.codes c) ps), .result (.returned .unit)] } := by
  rw [exec_idle i h, hi, sendOnly_ok c _ hid hps]
  obtain ⟨hphase, hop⟩ := h
  simp only [← hphase, ← hop]

/-- The code byte of a write is the one of its form, immediate or deferred (R156, R157). -/
theorem code_writeCommand (codes : CmdCodes) (deferred : Bool) :
    codes.code (writeCommand deferred) = if deferred then codes.regWrite else codes.write := by
  cases deferred <;> rfl

/-- Settles O27: `exec_sendOnly` at the broadcast ID, with no parameters. -/
theorem actionBroadcastsAndReturns : Obligations.ActionBroadcastsAndReturns := by
  intro s hidle
  exact exec_sendOnly hidle (c := .cmd .action) (fun _ => rfl) (by decide) (by simp)

/-- Settles O28: `exec_sendOnly` once per operation; the offset before the data makes the bound of 252 the builder's 253. -/
theorem sendOperationsTransmitAndReturn : Obligations.SendOperationsTransmitAndReturn := by
  intro s id hidle hid
  refine ⟨?ping, ?read, ?write, ?reset⟩
  case ping => exact exec_sendOnly hidle (c := .cmd .ping) (fun _ => rfl) hid (by simp)
  case read =>
    intro offset length
    exact exec_sendOnly hidle (c := .cmd .read) (fun _ => rfl) hid (by simp)
  case write =>
    intro offset data deferred hdata
    have hparams : (writeParams offset data).length ≤ 253 := Nat.succ_le_succ hdata
    rw [← code_writeCommand]
    exact exec_sendOnly hidle (c := .cmd (writeCommand deferred)) (fun _ => rfl) hid hparams
  case reset => exact exec_sendOnly hidle (c := .cmd .reset) (fun _ => rfl) hid (by simp)

end Sys2Proof.Machine
end

section
/-! PROOFS. The decoder and the encoder are inverse (spec/30_encoding.md R60, R61, R65, R67): what `decodeCommand` reads of
each parameter layout and that it reads nothing else, then the two round trips through `splitFrame`. -/

namespace Sys2Proof.Machine

open Sys2Proof

/-! ### Value lists of one length -/

/-- All the value lists have the length L exactly when `sameLengths` holds and the first has it (R171). -/
theorem sameLengths_iff {values : List (List Byte)} :
    sameLengths values = true ↔ ∀ v ∈ values, v.length = (values.headD []).length := by
  simp [sameLengths]

theorem headD_length {values : List (List Byte)} {L : Nat} (hne : values ≠ []) (h : ∀ v ∈ values, v.length = L) :
    (values.headD []).length = L := by
  cases values with
  | nil => exact absurd rfl hne
  | cons v vs => exact h v (by simp)

/-- The parameter count of a SYNC_WRITE with a common data length (R67, R173). -/
theorem syncParamCount_eq {values : List (List Byte)} {L : Nat} (h : ∀ v ∈ values, v.length = L) :
    syncParamCount values = 2 + values.length * (L + 1) := by
  have hmap : values.map (fun v => v.length + 1) = List.replicate values.length (L + 1) :=
    List.eq_replicate_iff.2 ⟨by simp, by simpa using h⟩
  rw [syncParamCount, hmap, List.sum_replicate, smul_eq_mul]

/-- The device parts of a SYNC_WRITE have one byte per ID and the values (R67). -/
theorem flatMap_blocks_length (blocks : List DeviceBlock) :
    (blocks.flatMap fun b => b.id :: b.values).length = ((blocks.map (·.values)).map fun v => v.length + 1).sum := by
  simp [List.length_flatMap, Function.comp_def]

theorem encodeBlocks_length (offset : Byte) (blocks : List DeviceBlock) :
    (encodeBlocks offset blocks).length = syncParamCount (blocks.map (·.values)) := by
  rw [encodeBlocks, List.length_append, flatMap_blocks_length]
  rfl

/-! ### `decodeCommand`, in both directions -/

theorem checkId_ok {id : Byte} (h : id.toNat ≤ 254) (i : Instr) : checkId id i = .ok i := by
  rw [checkId, if_neg (builderId_iff.1 h)]

theorem checkId_eq_ok {id : Byte} {i j : Instr} (h : checkId id i = .ok j) : j = i := by
  unfold checkId at h
  split_ifs at h
  exact (Except.ok.inj h).symm

theorem checkBroadcast_eq_ok {id : Byte} {i j : Instr} (h : checkBroadcast id i = .ok j) :
    id = broadcastId ∧ j = i := by
  unfold checkBroadcast at h
  split_ifs at h with hid
  exact ⟨hid, (Except.ok.inj h).symm⟩

/-- The layout of SYNC_WRITE is read back: the second parameter, the common data length, says where to cut (R67). -/
theorem decodeCommand_encodeBlocks (offset : Byte) {b : DeviceBlock} {bs : List DeviceBlock} {L : Nat} (hL : L < 256)
    (h : ∀ x ∈ b :: bs, x.values.length = L) :
    decodeCommand broadcastId (encodeBlocks offset (b :: bs)) .syncWrite = .ok (.wireSyncWrite offset (b :: bs)) := by
  have hhead : ((b :: bs).map fun x => x.values.length).headD 0 = L := h b (by simp)
  have hlen : (BitVec.ofNat 8 L).toNat = L := by
    rw [BitVec.toNat_ofNat]
    exact Nat.mod_eq_of_lt hL
  rw [encodeBlocks, hhead]
  simp only [List.cons_append, List.nil_append, decodeCommand, hlen, splitBlocks_flatMap L (b :: bs) h _ le_rfl]
  rfl

/-- Whatever the layout of a command gives is a wire instruction, and the frame with these fields is its encoding (R67). -/
theorem decodeCommand_eq_ok {id : Byte} {ps : List Byte} {c : Command} {i : Instr}
    (h : decodeCommand id ps c = .ok i) (cfg : Config) :
    isWire i = true ∧ encode cfg i = some (frame id (cfg.codes.code c) ps) := by
  cases c <;> simp only [decodeCommand] at h
  case ping =>
    split at h
    · rw [checkId_eq_ok h]
      exact ⟨rfl, rfl⟩
    · cases h
  case read =>
    split at h
    · rw [checkId_eq_ok h]
      exact ⟨rfl, rfl⟩
    · cases h
  case write =>
    split at h
    · rw [checkId_eq_ok h]
      exact ⟨rfl, rfl⟩
    · cases h
  case regWrite =>
    split at h
    · rw [checkId_eq_ok h]
      exact ⟨rfl, rfl⟩
    · cases h
  case action =>
    split at h
    · obtain ⟨rfl, rfl⟩ := checkBroadcast_eq_ok h
      exact ⟨rfl, rfl⟩
    · cases h
  case reset =>
    split at h
    · rw [checkId_eq_ok h]
      exact ⟨rfl, rfl⟩
    · cases h
  case syncWrite =>
    split at h
    · next offset len body =>
      split at h
      · next b bs hsplit =>
        obtain ⟨rfl, rfl⟩ := checkBroadcast_eq_ok h
        obtain ⟨hbody, hlen⟩ := splitBlocks_eq_some _ _ _ _ hsplit
        have hhead : ((b :: bs).map fun x => x.values.length).headD 0 = len.toNat := hlen b (by simp)
        have hps : encodeBlocks offset (b :: bs) = offset :: len :: body := by
          rw [encodeBlocks, hhead, ← hbody, BitVec.ofNat_toNat, BitVec.setWidth_eq]
          rfl
        exact ⟨rfl, by rw [encode, hps]; rfl⟩
      · cases h
    · cases h

/-! ### The round trips -/

/-- A frame under lawful codes decodes to what the layout of its command gives, and leaves the bytes after it. -/
theorem decode_frame {cfg : Config} (hc : cfg.codes.toList.Nodup) {id : Byte} {c : Command} {ps : List Byte} {i : Instr}
    (hps : ps.length ≤ 253) (hi : decodeCommand id ps c = .ok i) (rest : List Byte) :
    decode cfg (frame id (cfg.codes.code c) ps ++ rest) = .ok (i, rest) := by
  simp only [decode, splitFrame_frame hps, command?_code hc, hi]

/-- The encoding of a well-formed wire instruction is a frame whose parameters the layout of its command reads back. -/
theorem encode_wellFormed (cfg : Config) {i : Instr} (hw : isWire i = true) (h : i.wellFormed = true) :
    ∃ id c ps, encode cfg i = some (frame id (cfg.codes.code c) ps) ∧ ps.length ≤ 253 ∧
      decodeCommand id ps c = .ok i := by
  have device {id : Byte} (hid : deviceId id = true) : id.toNat ≤ 254 := (of_decide_eq_true hid).trans (by decide)
  have written {id : Byte} {data : List Byte} (h : (builderId id && decide (data.length ≤ 252)) = true) :
      id.toNat ≤ 254 ∧ data.length ≤ 252 := by
    simpa [builderId] using h
  cases i with
  | wirePing id => exact ⟨id, .ping, [], rfl, by simp, checkId_ok (device h) _⟩
  | wireRead id offset length => exact ⟨id, .read, _, rfl, by simp, checkId_ok (device h) _⟩
  | wireWrite id offset data =>
    obtain ⟨hid, hdata⟩ := written h
    exact ⟨id, .write, _, rfl, Nat.succ_le_succ hdata, checkId_ok hid _⟩
  | wireRegWrite id offset data =>
    obtain ⟨hid, hdata⟩ := written h
    exact ⟨id, .regWrite, _, rfl, Nat.succ_le_succ hdata, checkId_ok hid _⟩
  | wireAction => exact ⟨broadcastId, .action, [], rfl, by simp, rfl⟩
  | wireReset id => exact ⟨id, .reset, [], rfl, by simp, checkId_ok (of_decide_eq_true h) _⟩
  | wireSyncWrite offset blocks =>
    simp only [Instr.wellFormed, Bool.and_eq_true, decide_eq_true_eq, sameLengths_iff] at h
    obtain ⟨⟨hne, hsame⟩, hcount⟩ := h
    cases blocks with
    | nil => cases hne
    | cons b bs =>
      have hall : ∀ x ∈ b :: bs, x.values.length = b.values.length := fun x hx =>
        hsame x.values (List.mem_map_of_mem hx)
      have hL : b.values.length < 256 := by
        simp only [List.map_cons, syncParamCount, List.sum_cons, maxParams] at hcount
        omega
      exact ⟨broadcastId, .syncWrite, _, rfl, by rw [encodeBlocks_length]; exact hcount,
        decodeCommand_encodeBlocks offset hL hall⟩
  | _ => cases hw

/-- Settles O53: the frame an instruction is encoded as is read back by `decode_frame`. -/
theorem decodeOfEncodeIsTheInstruction : Obligations.DecodeOfEncodeIsTheInstruction := by
  intro cfg i rest hc hwf hw
  obtain ⟨id, c, ps, henc, hps, hdec⟩ := encode_wellFormed cfg hw hwf
  exact ⟨_, henc, decode_frame hc hps hdec rest⟩

/-- Settles O54: the bytes cut off are the frame of their fields, its code byte is a command's, and the layout of that command
gives back these fields. -/
theorem decodedBytesAreTheEncoding : Obligations.DecodedBytesAreTheEncoding := by
  intro cfg bytes rest i h
  unfold decode at h
  split at h
  case h_1 => cases h
  case h_2 f tail hsplit =>
    split at h
    case h_1 => cases h
    case h_2 c hcode =>
      split at h
      case h_1 => cases h
      case h_2 j hdec =>
        cases h
        obtain ⟨hbytes, -⟩ := splitFrame_eq_ok hsplit
        obtain ⟨hw, henc⟩ := decodeCommand_eq_ok hdec cfg
        exact ⟨hw, _, henc, by rw [hbytes, command?_eq_some hcode]⟩

end Sys2Proof.Machine
end

section
/-! PROOFS. What one step does (spec/20_memory.md R55, spec/10_state.md R32): a lemma per request of an idle block and per state
of the queue of a running one, then the statements about them and about the reset state. -/

namespace Sys2Proof.Machine

open Sys2Proof

section Idle
variable {s : State} {rest : List Request}

/-- With no request next, an idle block waits (R231). -/
theorem step_waits (h : s.Idle) (hprog : s.program = []) : step s = .next s := by
  cases s
  obtain ⟨rfl, rfl⟩ := h
  cases hprog
  rfl

/-- A call is issued (R55). -/
theorem step_call (h : s.Idle) {i : Instr} (hprog : s.program = .call i :: rest) :
    step s = exec i { s with program := rest } := by
  cases s
  obtain ⟨rfl, rfl⟩ := h
  cases hprog
  rfl

/-- A frame is issued as the instruction it decodes to (R55, log entry 5). -/
theorem step_frame (h : s.Idle) {bytes : List Byte} {i : Instr} (hprog : s.program = .frame bytes :: rest)
    (hdec : decodeWhole s.cfg bytes = .ok i) : step s = exec i { s with program := rest } := by
  cases s
  obtain ⟨rfl, rfl⟩ := h
  cases hprog
  simp only [step, if_true, hdec]

/-- A frame that decodes to nothing is refused (log entry 5). -/
theorem step_undecodable (h : s.Idle) {bytes : List Byte} {e : DecodeError} (hprog : s.program = .frame bytes :: rest)
    (hdec : decodeWhole s.cfg bytes = .error e) : step s = .refused (.undecodable e) := by
  cases s
  obtain ⟨rfl, rfl⟩ := h
  cases hprog
  simp only [step, if_true, hdec]

/-- The host's parser is reset in any state of it (R90). -/
theorem step_newParser (h : s.Idle) (hprog : s.program = .newParser :: rest) :
    step s = .next (resetParser { s with program := rest }) := by
  cases s
  obtain ⟨rfl, rfl⟩ := h
  cases hprog
  rfl

/-- Everything a step of an idle block can do (R55, R90, R231): it waits, issues the next request as an instruction, refuses it, or
resets the host's parser. -/
theorem step_idle_cases (h : s.Idle) :
    step s = .next s ∨
    (∃ r rest i, s.program = r :: rest ∧ step s = exec i { s with program := rest }) ∨
    (∃ e, step s = .refused (.undecodable e)) ∨
    (∃ rest, s.program = .newParser :: rest ∧ step s = .next (resetParser { s with program := rest })) := by
  match hprog : s.program with
  | [] => exact .inl (step_waits h hprog)
  | .call i :: rest => exact .inr (.inl ⟨_, _, _, rfl, step_call h hprog⟩)
  | .frame bytes :: rest =>
    cases hdec : decodeWhole s.cfg bytes with
    | ok i => exact .inr (.inl ⟨_, _, _, rfl, step_frame h hprog hdec⟩)
    | error e => exact .inr (.inr (.inl ⟨e, step_undecodable h hprog hdec⟩))
  | .newParser :: rest => exact .inr (.inr (.inr ⟨_, rfl, step_newParser h hprog⟩))

end Idle

section Running
variable {s : State} {i : Instr}

/-- A running operation goes on with the queued answers (R32). -/
theorem step_drain (hop : s.op = some i) (hphase : s.phase = .rx) {a : RxAnswer} {q : List RxAnswer}
    (hrx : s.rx = a :: q) : step s = drainQueue s.rx s := by
  simp only [step, hop, resume, hphase, if_true, hrx, drain]

/-- With no answer queued, a running operation makes one receive event with a free answer (log entry 3). -/
theorem step_free (hop : s.op = some i) (hphase : s.phase = .rx) (hrx : s.rx = []) :
    step s = receive (Config.freeAnswer s.draws) { s with draws := s.draws + 1 } := by
  cases s
  cases hop
  cases hphase
  cases hrx
  rfl

end Running

/-- Settles O45: one lemma per request. -/
theorem stepIssuesTheNextOperation : Obligations.StepIssuesTheNextOperation := by
  intro s hidle
  refine ⟨?waits, ?call, ?frame, ?undecodable, ?newParser⟩
  case waits => exact step_waits hidle
  case call => exact fun i rest hprog => step_call hidle hprog
  case frame => exact fun bytes rest i hprog hdec => step_frame hidle hprog hdec
  case undecodable => exact fun bytes rest e hprog hdec => step_undecodable hidle hprog hdec
  case newParser => exact fun rest hprog => step_newParser hidle hprog

/-- Settles O46: the receive loop takes the first queued answer, or a free one where none is queued. -/
theorem stepResumesTheRunningOperation : Obligations.StepResumesTheRunningOperation := by
  intro s i hop hphase
  constructor
  · intro a q hrx
    rw [step_drain hop hphase hrx, hrx, drainQueue_cons hop]
  · exact step_free hop hphase

/-- The decoder reads the codes of the parameters and nothing else. -/
theorem decodeWhole_codes {cfg cfg' : Config} (h : cfg.codes = cfg'.codes) (bytes : List Byte) :
    decodeWhole cfg bytes = decodeWhole cfg' bytes := by
  simp only [decodeWhole, decode, h]

/-- Settles O47: the placed frame is the next request, and it decodes under the default codes as the table word does. -/
theorem placedWordIsTheNextInstruction : Obligations.PlacedWordIsTheNextInstruction := by
  intro s nbits w i h
  have hdec : decodeWhole Config.default (tableBytes nbits w) = .ok i := by
    unfold decodeTableWord at h
    split at h
    · next j hj =>
      cases h
      exact hj
    · cases h
  have hdec' : decodeWhole (s.withFetchWord nbits w).cfg (tableBytes nbits w) = .ok i :=
    (decodeWhole_codes rfl _).trans hdec
  exact step_frame ⟨rfl, rfl⟩ rfl hdec'

/-- Settles O44: read off the reset state. -/
theorem resetIsIdle : Obligations.ResetIsIdle := ⟨rfl, rfl, rfl, rfl, rfl⟩

/-- Settles O49: the invariant evaluates to true at the reset state. -/
theorem resetMeetsTheInvariant : Obligations.ResetMeetsTheInvariant := by
  unfold Obligations.ResetMeetsTheInvariant
  decide

/-- Settles O55: the default tables, read off the reset state. -/
theorem resetParametersAreTheDefaultTables : Obligations.ResetParametersAreTheDefaultTables := ⟨rfl, rfl⟩

/-- Settles O56: the decoder runs on each of the seven frames. -/
theorem writtenOutFramesDecode : Obligations.WrittenOutFramesDecode := ⟨rfl, rfl, rfl, rfl, rfl, rfl, rfl⟩

end Sys2Proof.Machine
end

section
/-! PROOFS. Statements about the PacketParser (spec/40_parser.md): the remaining arms of `process_byte` (R95 to R97), where a
parse ends (R100, R101), and the frame of the builder given back to the machine byte by byte (R102). -/

namespace Sys2Proof.Machine

open Sys2Proof

/-! ### The arms of WAIT_LENGTH, WAIT_ERROR and WAIT_PARAM -/

section Arms
variable (pol : ShortLenPolicy) {p : Parser} {b : Byte}

/-- The WAIT_LENGTH arm (R95). -/
theorem processByte_waitLength (hs : p.state = .waitLength) :
    processByte pol p b = some ({ p with len := b, state := .waitError }, .notDone) := by
  rw [processByte, hs, stepLength]

/-- The WAIT_ERROR arm after a length byte of 2 or more (R96). -/
theorem processByte_waitError (hs : p.state = .waitError) (hl : 2 ≤ p.len.toNat) :
    processByte pol p b = some ({ p with
      err := b, buf := [], state := if p.len.toNat = 2 then .waitChecksum else .waitParam }, .notDone) := by
  simp only [processByte, hs, stepError]
  by_cases h2 : p.len.toNat = 2
  · rw [if_neg (by omega), if_pos h2, if_pos h2]
  · rw [if_pos (by omega), if_neg h2]

/-- The WAIT_ERROR arm after a length byte below 2 is the policy's (R95, D5). -/
theorem processByte_waitError_short (hs : p.state = .waitError) (hl : p.len.toNat < 2) :
    processByte pol p b = some ({ p with
      err := b, buf := [], state :=
        match pol with
        | .zeroParams => .waitChecksum
        | .fail => .failed
        | .absorb => .waitParam },
      match pol with
      | .zeroParams => .notDone
      | .fail => .checksum
      | .absorb => .notDone) := by
  simp only [processByte, hs, stepError]
  rw [if_neg (by omega), if_neg (by omega)]
  cases pol <;> rfl

/-- The WAIT_PARAM arm accumulates a parameter (R97). -/
theorem processByte_waitParam (hs : p.state = .waitParam) (hl : 3 ≤ p.len.toNat) :
    processByte pol p b = some ({ p with
      buf := p.buf ++ [b]
      state := if p.buf.length + 1 = p.len.toNat - 2 then .waitChecksum else .waitParam }, .notDone) := by
  simp only [processByte, hs, stepParam, if_pos hl, List.length_append, List.length_singleton]
  split_ifs
  · rfl
  · rw [← hs]

/-- The WAIT_PARAM arm after a length byte below 3 discards the byte (R97, D5). -/
theorem processByte_waitParam_short (hs : p.state = .waitParam) (hl : p.len.toNat < 3) :
    processByte pol p b = some (p, .notDone) := by
  simp only [processByte, hs, stepParam]
  rw [if_neg (by omega)]

end Arms

/-- A parser in WAIT_PARAM with a length byte below 3 takes any bytes and never ends (D5). -/
theorem feed_waitParam_short (pol : ShortLenPolicy) {p : Parser} (hs : p.state = .waitParam) (hl : p.len.toNat < 3)
    (l : List Byte) : feed pol p l = some (p, .notDone, []) := by
  induction l with
  | nil => rfl
  | cons b bs ih => rw [feed_cons_notDone _ (processByte_waitParam_short pol hs hl), ih]

/-- Registers that fit their state hold at most 253 parameters (R23). -/
theorem buf_length_le_of_ok {p : Parser} (h : p.ok = true) : p.buf.length ≤ 253 := by
  have hlen := p.len.isLt
  unfold Parser.ok at h
  cases hs : p.state <;> simp only [hs] at h
  case waitParam =>
    split_ifs at h
    · have := of_decide_eq_true h
      omega
    · simp_all
  case waitChecksum => have := of_decide_eq_true h; omega
  case failed => have := of_decide_eq_true h; omega
  case done =>
    have := of_decide_eq_true (Bool.and_eq_true_iff.1 h).1
    omega
  all_goals simp_all

/-- Settles O4: the WAIT_LENGTH arm and the two ranges of the WAIT_ERROR arm. -/
theorem lengthByteDecidesWhatFollows : Obligations.LengthByteDecidesWhatFollows := by
  refine ⟨?length, ?lawful, ?short⟩
  case length => exact fun s b hidle hs => exec_processByte hidle (processByte_waitLength _ hs)
  case lawful => exact fun s b hidle hs hl => exec_processByte hidle (processByte_waitError _ hs hl)
  case short => exact fun s b hidle hs hl => exec_processByte hidle (processByte_waitError_short _ hs hl)

/-- Settles O5: the two ranges of the WAIT_PARAM arm, the second repeated for a run of bytes; `processByte_ok` keeps the registers
fitting, and registers that fit hold at most 253 parameters. -/
theorem parametersAreAccumulatedInOrder : Obligations.ParametersAreAccumulatedInOrder := by
  refine ⟨?counted, ?discarded, ?run, ?bounded⟩
  case counted => exact fun s b hidle hs hl => exec_processByte hidle (processByte_waitParam _ hs hl)
  case discarded =>
    exact fun s b hidle hs hl => exec_processByte hidle (processByte_waitParam_short _ hs (by omega))
  case run => exact fun pol p l hs hl => feed_waitParam_short pol hs (by omega) l
  case bounded =>
    intro pol p q b r hp h
    have hq := processByte_ok h hp
    exact ⟨hq, buf_length_le_of_ok hq⟩

/-- Settles O58: the body reads the parser and the policy, never the Packet, and writes none. -/
theorem processByteDiscardsAReturnedPacket : Obligations.ProcessByteDiscardsAReturnedPacket := by
  intro s b
  refine ⟨rfl, fun t h => ?_⟩
  obtain ⟨-, hbody⟩ := exec_eq_next.1 h
  simp only [bodyOf] at hbody
  split at hbody
  · cases hbody
  · cases hbody
    rfl

/-! ### Where a parse ends -/

theorem terminal_iff {p : Parser} : p.terminal = true ↔ p.state = .done ∨ p.state = .failed := by
  unfold Parser.terminal
  cases p.state <;> simp

/-- A result other than NOT_DONE comes exactly with a terminal state (R100). -/
theorem processByte_terminal_iff {pol : ShortLenPolicy} {p q : Parser} {b : Byte} {r : ParseResult}
    (h : processByte pol p b = some (q, r)) : q.terminal = true ↔ r ≠ .notDone := by
  rcases processByte_result h with ⟨rfl, hq⟩ | ⟨rfl, hq⟩ | ⟨rfl, hq⟩
  · simp [hq]
  · simp [terminal_iff, hq]
  · simp [terminal_iff, hq]

/-- Only the checksum byte, or a short length byte under the policy `fail`, makes the parser terminal (R100). -/
theorem state_of_processByte_terminal {pol : ShortLenPolicy} {p q : Parser} {b : Byte} {r : ParseResult}
    (h : processByte pol p b = some (q, r)) (hq : q.terminal = true) :
    p.state = .waitChecksum ∨ (p.state = .waitError ∧ pol = .fail ∧ p.len.toNat < 2) := by
  have hr : r ≠ .notDone := (processByte_terminal_iff h).1 hq
  have unfinished {p' : Parser} (h' : processByte pol p b = some (p', .notDone)) : False := by
    rw [h'] at h
    cases h
    exact hr rfl
  cases hs : p.state with
  | waitStart1 => exact (unfinished (processByte_waitStart1 pol hs)).elim
  | waitStart2 => exact (unfinished (processByte_waitStart2 pol hs)).elim
  | waitId => exact (unfinished (processByte_waitId pol hs)).elim
  | waitLength => exact (unfinished (processByte_waitLength pol hs)).elim
  | waitError =>
    by_cases hl : 2 ≤ p.len.toNat
    · exact (unfinished (processByte_waitError pol hs hl)).elim
    · have hshort := processByte_waitError_short pol (b := b) hs (by omega)
      cases pol with
      | zeroParams => exact (unfinished hshort).elim
      | fail => exact .inr ⟨rfl, rfl, by omega⟩
      | absorb => exact (unfinished hshort).elim
  | waitParam =>
    by_cases hl : 3 ≤ p.len.toNat
    · exact (unfinished (processByte_waitParam pol hs hl)).elim
    · exact (unfinished (processByte_waitParam_short pol hs (by omega))).elim
  | waitChecksum => exact .inl rfl
  | done => rw [processByte, hs] at h; cases h
  | failed => rw [processByte, hs] at h; cases h

/-- An unfinished parse of a parser that was not terminal leaves it not terminal. -/
theorem feed_notDone_open {pol : ShortLenPolicy} {l : List Byte} : ∀ {p q : Parser} {rest : List Byte},
    p.terminal = false → feed pol p l = some (q, .notDone, rest) → q.terminal = false := by
  induction l with
  | nil =>
    intro p q rest hp h
    cases h
    exact hp
  | cons b bs ih =>
    intro p q rest hp h
    match hb : processByte pol p b with
    | none => rw [feed, hb] at h; cases h
    | some (p', .notDone) => exact ih (notDone_open hb) (by rwa [feed_cons_notDone _ hb] at h)
    | some (p', .none) => rw [feed_cons_end _ hb (by simp)] at h; cases h
    | some (p', .checksum) => rw [feed_cons_end _ hb (by simp)] at h; cases h

/-- Settles O8: `processByte_result` and its converse for the states before, `feed_take` for the proper parts of a frame. -/
theorem parseEndsOnlyAtTheChecksum : Obligations.ParseEndsOnlyAtTheChecksum := by
  constructor
  · exact fun pol p q b r h => ⟨processByte_terminal_iff h, state_of_processByte_terminal h⟩
  · intro pol p id c ps k hps hk
    obtain ⟨q, hq⟩ := feed_take pol (reset_state p) id c hps hk
    exact ⟨q, hq, feed_notDone_open (reset_terminal p) hq⟩

/-- In WAIT_START2 the first byte of a frame completes the header and its second is the ID (R93, R94). -/
theorem feed_frame_waitStart2 (pol : ShortLenPolicy) {p : Parser} (hs : p.state = .waitStart2) (id c : Byte)
    (ps rest : List Byte) :
    feed pol p (frame id c ps ++ rest) =
      feed pol { p with state := .waitLength, id := hdr } ((frame id c ps).drop 2 ++ rest) := by
  show feed pol p (hdr :: hdr :: ((frame id c ps).drop 2 ++ rest)) = _
  rw [feed_cons_notDone (p' := { p with state := .waitId }) _ (by simp [processByte_waitStart2 pol hs]),
    feed_cons_notDone _ (processByte_waitId pol rfl)]

/-- Settles O9: noise leaves the header hunt in WAIT_START1, where a frame is parsed whole, or, after a last byte 0xFF, in
WAIT_START2, where the frame's first two bytes are the second header byte and the ID. -/
theorem frameAfterNoiseEndsOnItsLastByte : Obligations.FrameAfterNoiseEndsOnItsLastByte := by
  intro pol p before hnoise
  have hlone : ∀ (id c : Byte) (ps rest : List Byte), before.getLast? = some 0xFF#8 →
      feed pol p.reset (before ++ frame id c ps ++ rest) =
        feed pol { p.reset with state := .waitLength, id := 0xFF#8 } ((frame id c ps).drop 2 ++ rest) := by
    intro id c ps rest hlast
    have hstate : (p.reset.afterNoise before).state = .waitStart2 := by simp [Parser.afterNoise, hlast]
    rw [List.append_assoc, feed_noise pol _ before hnoise _ rfl, feed_frame_waitStart2 pol hstate]
    rfl
  refine ⟨?_, hlone, ?_⟩
  · intro id c ps rest hps hlast
    rw [List.append_assoc, feed_noise pol _ before hnoise _ rfl, p.reset.afterNoise_of_ne rfl hlast,
      feed_frame pol rfl id c hps]
    exact ⟨_, rfl, rfl, rfl⟩
  · intro hlast
    have hfeed := hlone 5#8 0#8 [] [] hlast
    rw [List.append_nil] at hfeed
    have hbytes : (frame 5#8 0#8 []).drop 2 ++ [] = [5#8, 2#8, 0#8, 0xF8#8] := by decide
    rw [hfeed, hbytes, feed_cons_notDone _ (processByte_waitLength pol rfl),
      feed_cons_notDone _ (processByte_waitError pol rfl (by simp)),
      feed_params_cut pol 5#8 (by decide) [0#8, 0xF8#8] _ (by simp) rfl (by simp)]
    exact ⟨_, rfl, rfl, rfl, rfl⟩

/-! ### A frame given back to the machine (R102) -/

/-- A run goes on from the next state of its first step. -/
theorem run_succ {s t : State} (h : step s = .next t) (n : Nat) :
    Host.Core.run Sys2Proof.core (n + 1) s = Host.Core.run Sys2Proof.core n t := by
  have hstep : Sys2Proof.core.step s = .next t := h
  simp only [Host.Core.run, hstep]

/-- A host program that feeds bytes on which the parse ends in DONE runs one step per byte and answers NOT_DONE until the last. -/
theorem run_processBytes (l : List Byte) : ∀ {s : State} {q : Parser} {rest : List Request}, s.Idle →
    s.program = l.map (fun b => .call (.processByte b)) ++ rest →
    feed s.cfg.shortLen s.parser l = some (q, .none, []) →
    Host.Core.run Sys2Proof.core l.length s = .next { s with
      parser := q
      packet := none
      program := rest
      history := s.history ++ List.replicate (l.length - 1) (.result (.returned (.parse .notDone))) ++
        [.result (.returned (.parse .none))] } := by
  induction l with
  | nil =>
    intro s q rest _ _ h
    cases h
  | cons b bs ih =>
    intro s q rest hidle hprog h
    have run_cons {p : Parser} {r : ParseResult} (hp : processByte s.cfg.shortLen s.parser b = some (p, r)) :
        Host.Core.run Sys2Proof.core (bs.length + 1) s = Host.Core.run Sys2Proof.core bs.length { s with
          parser := p
          packet := none
          program := bs.map (fun b => .call (.processByte b)) ++ rest
          history := s.history ++ [.result (.returned (.parse r))] } := by
      have hexec := exec_processByte
        (s := { s with program := bs.map (fun b => .call (.processByte b)) ++ rest }) hidle hp
      exact run_succ ((step_call hidle hprog).trans hexec) _
    match hb : processByte s.cfg.shortLen s.parser b with
    | none => rw [feed, hb] at h; cases h
    | some (p, .notDone) =>
      rw [feed_cons_notDone _ hb] at h
      cases bs with
      | nil => cases h
      | cons d ds =>
        rw [List.length_cons, run_cons hb, ih (by exact hidle) rfl (by exact h)]
        simp [List.replicate_succ]
    | some (p, .none) =>
      rw [feed_cons_end _ hb (by simp)] at h
      cases h
      rw [List.length_cons, run_cons hb]
      simp [Host.Core.run]
    | some (p, .checksum) => rw [feed_cons_end _ hb (by simp)] at h; cases h

/-- Settles O10: the frame of lawful arguments ends the parse of a reset parser in DONE on its last byte (`feed_frame`), and the
machine follows the parse step by step (`run_processBytes`). -/
theorem builtFrameParsesBack : Obligations.BuiltFrameParsesBack := by
  intro s id c ps f rest hidle hs hbuild hprog
  obtain ⟨-, hps, rfl⟩ := buildFrame_eq_ok.1 hbuild
  have hfeed := feed_frame s.cfg.shortLen hs id c hps []
  rw [List.append_nil] at hfeed
  exact ⟨_, rfl, rfl, rfl, rfl, run_processBytes _ hidle hprog hfeed⟩

end Sys2Proof.Machine
end

section
/-! PROOFS. The laws of the checksum (spec/41_builder.md R124, R125) and what one flipped bit does to a parse (spec/40_parser.md
R103, 90_conflicts.md C2): a changed byte changes the checksum, so a frame with one wrong byte ends in FAILED. -/

namespace Sys2Proof.Machine

open Sys2Proof

/-! ### The sum of the bytes -/

theorem byteSum_append (l m : List Byte) : byteSum (l ++ m) = byteSum l + byteSum m := by
  induction l with
  | nil => simp [byteSum]
  | cons b bs ih => rw [List.cons_append, byteSum, byteSum, ih, BitVec.add_assoc]

/-- The order of the bytes does not matter (R125). -/
theorem byteSum_perm {l m : List Byte} (h : l.Perm m) : byteSum l = byteSum m := by
  rw [byteSum_eq_ofNat_sum, byteSum_eq_ofNat_sum, (h.map BitVec.toNat).sum_eq]

/-- Only the same byte in one place keeps the sum (R125). -/
theorem byteSum_set_inj {l : List Byte} {k : Nat} (h : k < l.length) {b : Byte}
    (he : byteSum (l.set k b) = byteSum l) : b = l[k] := by
  have hl : byteSum l = byteSum (l.take k) + (l[k] + byteSum (l.drop (k + 1))) := by
    conv_lhs => rw [← List.take_append_drop k l, ← List.cons_getElem_drop_succ (h := h), byteSum_append, byteSum]
  rw [List.set_eq_take_append_cons_drop, if_pos h, byteSum_append, byteSum, hl] at he
  simpa using he

theorem sum_toNat_le (l : List Byte) : (l.map BitVec.toNat).sum ≤ l.length * 255 := by
  have h := List.sum_le_card_nsmul (l.map BitVec.toNat) 255 (by
    intro x hx
    obtain ⟨b, -, rfl⟩ := List.mem_map.1 hx
    have := b.isLt
    omega)
  simpa using h

/-! ### The laws of the checksum -/

/-- The modular form (R124). -/
theorem checksum_toNat (id n e : Byte) (ps : List Byte) :
    (checksum id n e ps).toNat = 255 - (id.toNat + n.toNat + e.toNat + (ps.map BitVec.toNat).sum) % 256 := by
  rw [checksum_eq_not_ofNat_sum, BitVec.toNat_not, BitVec.toNat_ofNat]

/-- Two checksums that differ in one summand only are equal only where the summand is (R125). -/
theorem checksum_id_inj {id id' n e : Byte} {ps : List Byte} (h : checksum id n e ps = checksum id' n e ps) : id = id' := by
  simpa [checksum] using h

theorem checksum_length_inj {id n n' e : Byte} {ps : List Byte} (h : checksum id n e ps = checksum id n' e ps) : n = n' := by
  simpa [checksum] using h

theorem checksum_code_inj {id n e e' : Byte} {ps : List Byte} (h : checksum id n e ps = checksum id n e' ps) : e = e' := by
  simpa [checksum] using h

theorem checksum_param_inj {id n e b : Byte} {ps : List Byte} {k : Nat} (hk : k < ps.length)
    (h : checksum id n e (ps.set k b) = checksum id n e ps) : b = ps[k] :=
  byteSum_set_inj hk (by simpa [checksum] using h)

/-- Settles O18: the modular form decides the check on all bytes; a change of one byte is `checksum_…_inj`. -/
theorem checksumLawsHold : Obligations.ChecksumLawsHold := by
  refine ⟨checksum_toNat, ?bound, ?order, ?change, ?check⟩
  case bound =>
    intro id n e ps hid hps
    have hsum := sum_toNat_le ps
    have hn := n.isLt
    have he := e.isLt
    omega
  case order =>
    intro id n e ps qs h
    rw [checksum, checksum, byteSum_perm h]
  case change =>
    intro id n e b ps
    exact ⟨mt checksum_id_inj, mt checksum_length_inj, mt checksum_code_inj, fun k hk => mt (checksum_param_inj hk)⟩
  case check =>
    intro id n e chk ps
    rw [← BitVec.toNat_inj, checksum_toNat]
    have := chk.isLt
    omega

/-! ### One flipped bit -/

theorem flip_ne (b : Byte) {k : Nat} (hk : k < 8) : b ^^^ BitVec.twoPow 8 k ≠ b := by
  intro h
  have hzero : BitVec.twoPow 8 k = 0#8 := by simpa using h
  have hpow := congrArg BitVec.toNat hzero
  rw [BitVec.toNat_twoPow_of_lt hk] at hpow
  simp at hpow

/-- The byte changed is one of the front part. -/
theorem modify_append_left {α : Type} (f : α → α) {l : List α} (m : List α) {k : Nat} (h : k < l.length) :
    (l ++ m).modify k f = l.modify k f ++ m := by
  have h' : k < (l ++ m).length := by
    rw [List.length_append]
    omega
  rw [List.modify_eq_set_get f h', List.modify_eq_set_get f h, List.set_append_left _ _ h]
  simp [List.getElem_append_left h]

theorem modify_frame_id (id c : Byte) (ps : List Byte) (f : Byte → Byte) :
    (frame id c ps).modify 2 f =
      [hdr, hdr, f id, lengthByte ps, c] ++ ps ++ checksum id (lengthByte ps) c ps :: [] := rfl

theorem modify_frame_code (id c : Byte) (ps : List Byte) (f : Byte → Byte) :
    (frame id c ps).modify 4 f =
      [hdr, hdr, id, lengthByte ps, f c] ++ ps ++ checksum id (lengthByte ps) c ps :: [] := rfl

theorem modify_frame_param (id c : Byte) {ps : List Byte} (f : Byte → Byte) {k : Nat} (h : k < ps.length) :
    (frame id c ps).modify (k + 5) f =
      [hdr, hdr, id, lengthByte ps, c] ++ ps.modify k f ++ checksum id (lengthByte ps) c ps :: [] := by
  show hdr :: hdr :: id :: lengthByte ps :: c :: (ps ++ _).modify k f = _
  rw [modify_append_left f _ h]
  rfl

theorem modify_frame_checksum (id c : Byte) (ps : List Byte) (f : Byte → Byte) :
    (frame id c ps).modify (ps.length + 5) f =
      [hdr, hdr, id, lengthByte ps, c] ++ ps ++ f (checksum id (lengthByte ps) c ps) :: [] := by
  show hdr :: hdr :: id :: lengthByte ps :: c :: (ps ++ _).modify ps.length f = _
  rw [List.modify_eq_set_get f (by simp)]
  simp

/-- Settles O11: the changed frame is a frame of the changed fields with a checksum byte that is not theirs, for the checksum of
the changed fields is another one (`checksum_…_inj`); the counterexample of C2 is the
frame of two parameters and one byte more. -/
theorem singleBitErrorIsCaught : Obligations.SingleBitErrorIsCaught := by
  constructor
  · intro pol p id c ps j k hps hj hk
    have hflip (b : Byte) : b ^^^ BitVec.twoPow 8 k ≠ b := flip_ne b hk
    rcases hj with rfl | ⟨h4, hj⟩
    · rw [modify_frame_id, feed_frame_bad pol (reset_state p) _ c hps fun h => hflip id (checksum_id_inj h).symm]
      exact ⟨_, rfl, rfl⟩
    obtain rfl | ⟨i, rfl⟩ : j = 4 ∨ ∃ i, j = i + 5 := by
      by_cases h : j = 4
      · exact .inl h
      · exact .inr ⟨j - 5, by omega⟩
    · rw [modify_frame_code, feed_frame_bad pol (reset_state p) id _ hps fun h => hflip c (checksum_code_inj h).symm]
      exact ⟨_, rfl, rfl⟩
    · by_cases hi : i < ps.length
      · have hlen : lengthByte (ps.modify i fun b => b ^^^ BitVec.twoPow 8 k) = lengthByte ps := by
          rw [lengthByte, lengthByte, List.length_modify]
        have hne (n : Byte) : checksum id n c ps ≠ checksum id n c (ps.modify i fun b => b ^^^ BitVec.twoPow 8 k) := by
          rw [List.modify_eq_set_get _ hi]
          exact fun h => hflip ps[i] (checksum_param_inj hi h.symm)
        rw [modify_frame_param id c _ hi, ← hlen,
          feed_frame_bad pol (reset_state p) id c (by simpa using hps) (hne _)]
        exact ⟨_, rfl, rfl⟩
      · obtain rfl : i = ps.length := by omega
        rw [modify_frame_checksum, feed_frame_bad pol (reset_state p) id c hps (hflip _)]
        exact ⟨_, rfl, rfl⟩
  · intro pol p
    have hbytes : frame 0x01#8 0x03#8 [0x1E#8, 0x00#8] ++ [0xFF#8] =
        [0xFF#8, 0xFF#8, 0x01#8, 0x04#8, 0x03#8, 0x1E#8, 0x00#8, 0xD9#8, 0xFF#8] := by decide
    rw [← hbytes, feed_frame pol (reset_state p) _ _ (by simp)]
    exact ⟨_, rfl, rfl⟩

end Sys2Proof.Machine
end

section
/-! PROOFS. What an operation comes down to before its first receive event (R140 to R185), said once for all instructions. The
plan of an instruction depends on its operands, the parameters and what the accessors read, not on the rest of the state;
`exec_eq_run` ties it to `exec`, and `exec_issued` lists everything an instruction can do in an idle state. -/

namespace Sys2Proof.Machine

open Sys2Proof

/-- What an instruction does when it is issued. -/
inductive Plan where
  /-- It is refused. -/
  | refuse (r : Refusal)
  /-- `process_byte`: the parser after the byte, and the result. -/
  | parse (p : Parser) (r : ParseResult)
  /-- It transmits these events and ends with no receive phase. -/
  | finish (sent : List Event) (r : OpResult)
  /-- It transmits these events and awaits a status packet. -/
  | await (sent : List Event)
  /-- It scans this range of IDs. -/
  | scan (startId numIds : Nat)

/-- Go on with the builder's frame, or be refused as it refuses (R123). -/
def withFrame (codes : CmdCodes) (id : Byte) (c : CommandArg) (ps : List Byte) (k : List Byte → Plan) : Plan :=
  match buildFrame codes id c ps with
  | .ok f => k f
  | .error r => .refuse r

/-- The transmit half alone (R74). -/
def sendPlan (codes : CmdCodes) (id : Byte) (c : CommandArg) (ps : List Byte) : Plan :=
  withFrame codes id c ps fun f => .finish [.tx f] (.returned .unit)

/-- The transmit half and the receive half (R142). -/
def exchangePlan (codes : CmdCodes) (id : Byte) (c : CommandArg) (ps : List Byte) : Plan :=
  withFrame codes id c ps fun f => .await [.tx f]

/-- PING (R150). -/
def pingPlan (codes : CmdCodes) (id : Byte) : Plan :=
  if id = broadcastId then .refuse .pingToBroadcast else exchangePlan codes id (.cmd .ping) []

/-- READ (R153). -/
def readPlan (codes : CmdCodes) (id offset length : Byte) : Plan :=
  if id = broadcastId then .refuse .readFromBroadcast
  else exchangePlan codes id (.cmd .read) (readParams offset length)

/-- A command that is answered unless it is broadcast (R146). -/
def answeredPlan (codes : CmdCodes) (id : Byte) (c : CommandArg) (ps : List Byte) : Plan :=
  if id = broadcastId then sendPlan codes id c ps else exchangePlan codes id c ps

/-- SYNC_WRITE (R171, R173). -/
def syncWritePlan (codes : CmdCodes) (ids : List Byte) (offset : Byte) (values : List (List Byte)) : Plan :=
  if lengthsAgree ids values then
    if ids = [] then .refuse .syncWriteNoDevices
    else sendPlan codes broadcastId (.cmd .syncWrite) (syncParams ids offset values)
  else .finish [] (.raised .validation)

/-- A Packet accessor that returns `v` of the packet it reads, or is out of range there (R106, R109). -/
def accessorPlan (k : Option Packet) (v : Packet → Option Value) : Plan :=
  match k with
  | none => .refuse .accessorNotDone
  | some k =>
    match v k with
    | some x => .finish [] (.returned x)
    | none => .refuse .paramByteRange

/-- `process_byte` (R91, R99). -/
def processBytePlan (pol : ShortLenPolicy) (p : Parser) (b : Byte) : Plan :=
  match processByte pol p b with
  | none => .refuse .processByteTerminal
  | some (p', r) => .parse p' r

/-- The plan of every instruction. -/
def plan (s : State) : Instr → Plan
  | .wirePing id => pingPlan s.cfg.codes id
  | .wireRead id offset length => readPlan s.cfg.codes id offset length
  | .wireWrite id offset data => answeredPlan s.cfg.codes id (.cmd .write) (writeParams offset data)
  | .wireRegWrite id offset data => answeredPlan s.cfg.codes id (.cmd .regWrite) (writeParams offset data)
  | .wireAction => sendPlan s.cfg.codes broadcastId (.cmd .action) []
  | .wireReset id => answeredPlan s.cfg.codes id (.cmd .reset) []
  | .wireSyncWrite offset blocks => syncWritePlan s.cfg.codes (blocks.map (·.id)) offset (blocks.map (·.values))
  | .processByte b => processBytePlan s.cfg.shortLen s.parser b
  | .devId => accessorPlan s.readable fun k => some (.byte k.id)
  | .paramLen => accessorPlan s.readable fun k => some (.count k.params.length)
  | .paramByte i => accessorPlan s.readable fun k => k.params[i]?.map .byte
  | .params => accessorPlan s.readable fun k => some (.bytes k.params)
  | .errorCode => accessorPlan s.readable fun k => some (.byte k.error)
  | .errorCodeStr => accessorPlan s.readable fun k => some (.text (errorText s.cfg.bits k.error))
  | .build id c ps => withFrame s.cfg.codes id c ps fun f => .finish [] (.returned (.frame f))
  | .fillAndWritePacket id c data => sendPlan s.cfg.codes id c data
  | .readStatusPacket => .await []
  | .ping id => pingPlan s.cfg.codes id
  | .read id offset length => readPlan s.cfg.codes id offset length
  | .write id offset data deferred =>
    answeredPlan s.cfg.codes id (.cmd (writeCommand deferred)) (writeParams offset data)
  | .reset id => answeredPlan s.cfg.codes id (.cmd .reset) []
  | .action => sendPlan s.cfg.codes broadcastId (.cmd .action) []
  | .syncWrite ids offset values => syncWritePlan s.cfg.codes ids offset values
  | .sendPing id => sendPlan s.cfg.codes id (.cmd .ping) []
  | .sendRead id offset length => sendPlan s.cfg.codes id (.cmd .read) (readParams offset length)
  | .sendWrite id offset data deferred =>
    sendPlan s.cfg.codes id (.cmd (writeCommand deferred)) (writeParams offset data)
  | .sendReset id => sendPlan s.cfg.codes id (.cmd .reset) []
  | .scan startId numIds => if 254 < startId + numIds then .refuse .scanRange else .scan startId numIds

/-- The state in which the operation `i`, issued in `s`, begins to receive (R142). -/
def State.awaiting (s : State) (i : Instr) (sent : List Event) : State :=
  { s with phase := .rx, op := some i, rxParser := s.rxParser.reset, packet := none, history := s.history ++ sent }

/-- The state at the head of scan's loop, before its first ping (R174). -/
def State.scanning (s : State) (i : Instr) (startId numIds : Nat) : State :=
  { s with op := some i, cur := startId, stop := startId + numIds, found := false }

/-- What a plan makes of the idle state in which its instruction is issued. -/
def Plan.run (i : Instr) (s : State) : Plan → Result
  | .refuse r => .refused r
  | .parse p r => .next { s with
      parser := p
      packet := none
      history := s.history ++ [.result (.returned (.parse r))] }
  | .finish sent r => .next { s with history := s.history ++ sent ++ [.result r] }
  | .await sent => drain (s.awaiting i sent)
  | .scan startId numIds => andThen (scanNext (s.scanning i startId numIds)) drain

/-! ### `exec` is the run of the plan -/

section
variable (s : State) (i : Instr)

theorem exchange_eq_run (id : Byte) (c : CommandArg) (ps : List Byte) :
    exchange id c ps { s with op := some i } = (exchangePlan s.cfg.codes id c ps).run i s := by
  simp only [exchange, transmit, exchangePlan, withFrame]
  cases buildFrame s.cfg.codes id c ps <;> rfl

theorem pingBody_eq_run (id : Byte) : pingBody id { s with op := some i } = (pingPlan s.cfg.codes id).run i s := by
  unfold pingBody pingPlan
  split_ifs
  · rfl
  · exact exchange_eq_run s i id _ _

theorem readBody_eq_run (id offset length : Byte) :
    readBody id offset length { s with op := some i } = (readPlan s.cfg.codes id offset length).run i s := by
  unfold readBody readPlan
  split_ifs
  · rfl
  · exact exchange_eq_run s i id _ _

end

section
variable {s : State} (h : s.Idle) (i : Instr)
include h

theorem complete_eq_run (v : Value) : complete v { s with op := some i } = (Plan.finish [] (.returned v)).run i s := by
  rw [Plan.run, List.append_nil]
  exact complete_issued h i v s.parser s.packet

theorem raiseError_eq_run (e : OpError) : raiseError e { s with op := some i } = (Plan.finish [] (.raised e)).run i s := by
  obtain ⟨hphase, hop⟩ := h
  simp only [raiseError, Plan.run, List.append_nil, ← hphase, ← hop]

theorem sendOnly_eq_run (id : Byte) (c : CommandArg) (ps : List Byte) :
    sendOnly id c ps { s with op := some i } = (sendPlan s.cfg.codes id c ps).run i s := by
  obtain ⟨hphase, hop⟩ := h
  simp only [sendOnly, transmit, sendPlan, withFrame]
  cases buildFrame s.cfg.codes id c ps with
  | error r => rfl
  | ok f => simp only [andThen_next, complete, Plan.run, ← hphase, ← hop]

theorem exchangeUnlessBroadcast_eq_run (id : Byte) (c : CommandArg) (ps : List Byte) :
    exchangeUnlessBroadcast id c ps { s with op := some i } = (answeredPlan s.cfg.codes id c ps).run i s := by
  unfold exchangeUnlessBroadcast answeredPlan
  split_ifs
  · exact sendOnly_eq_run h i id c ps
  · exact exchange_eq_run s i id c ps

theorem syncWriteBody_eq_run (ids : List Byte) (offset : Byte) (values : List (List Byte)) :
    syncWriteBody ids offset values { s with op := some i } = (syncWritePlan s.cfg.codes ids offset values).run i s := by
  unfold syncWriteBody syncWritePlan
  split_ifs
  · rfl
  · exact sendOnly_eq_run h i _ _ _
  · exact raiseError_eq_run h i _

/-- An accessor whose body completes with `v` of the packet it reads. -/
theorem accessor_eq_run {body : Packet → State → Result} {v : Packet → Option Value}
    (hsome : ∀ k x t, v k = some x → body k t = complete x t)
    (hnone : ∀ k t, v k = none → body k t = .refused .paramByteRange) :
    accessor { s with op := some i } body = (accessorPlan s.readable v).run i s := by
  cases hk : s.readable with
  | none => exact accessor_none (s := { s with op := some i }) hk body
  | some k =>
    rw [accessor_some (s := { s with op := some i }) hk]
    simp only [accessorPlan]
    cases hv : v k with
    | none => exact hnone k _ hv
    | some x => exact (hsome k x _ hv).trans (complete_eq_run h i x)

/-- An accessor that reads any packet. -/
theorem accessor_total_eq_run (v : Packet → Value) :
    accessor { s with op := some i } (fun k t => complete (v k) t) = (accessorPlan s.readable fun k => some (v k)).run i s :=
  accessor_eq_run h i (by simp +contextual) (by simp)

/-- In an idle state every instruction runs its plan. -/
theorem exec_eq_run : exec i s = (plan s i).run i s := by
  rw [exec_idle i h]
  cases i with
  | wirePing id => exact pingBody_eq_run s _ id
  | wireRead id offset length => exact readBody_eq_run s _ id offset length
  | wireWrite id offset data => exact exchangeUnlessBroadcast_eq_run h _ id _ _
  | wireRegWrite id offset data => exact exchangeUnlessBroadcast_eq_run h _ id _ _
  | wireAction => exact sendOnly_eq_run h _ _ _ _
  | wireReset id => exact exchangeUnlessBroadcast_eq_run h _ id _ _
  | wireSyncWrite offset blocks => exact syncWriteBody_eq_run h _ _ _ _
  | processByte b =>
    simp only [bodyOf, plan, processBytePlan]
    cases processByte s.cfg.shortLen s.parser b with
    | none => rfl
    | some pr => exact complete_issued h _ _ _ _
  | devId => exact accessor_total_eq_run h _ _
  | paramLen => exact accessor_total_eq_run h _ _
  | paramByte k =>
    simp only [bodyOf, plan]
    refine accessor_eq_run h _ (v := fun p => p.params[k]?.map .byte) (fun p x t hx => ?_) fun p t hx => ?_
    · obtain ⟨b, hb, rfl⟩ := Option.map_eq_some_iff.1 hx
      simp only [hb]
    · simp only [Option.map_eq_none_iff.1 hx]
  | params => exact accessor_total_eq_run h _ _
  | errorCode => exact accessor_total_eq_run h _ _
  | errorCodeStr => exact accessor_total_eq_run h _ fun k => .text (errorText s.cfg.bits k.error)
  | build id c ps =>
    simp only [bodyOf, plan, withFrame]
    cases buildFrame s.cfg.codes id c ps with
    | error r => rfl
    | ok f => exact complete_eq_run h _ _
  | fillAndWritePacket id c data => exact sendOnly_eq_run h _ _ _ _
  | readStatusPacket => simp only [bodyOf, plan, Plan.run, State.awaiting, List.append_nil]; rfl
  | ping id => exact pingBody_eq_run s _ id
  | read id offset length => exact readBody_eq_run s _ id offset length
  | write id offset data deferred => exact exchangeUnlessBroadcast_eq_run h _ id _ _
  | reset id => exact exchangeUnlessBroadcast_eq_run h _ id _ _
  | action => exact sendOnly_eq_run h _ _ _ _
  | syncWrite ids offset values => exact syncWriteBody_eq_run h _ _ _ _
  | sendPing id => exact sendOnly_eq_run h _ _ _ _
  | sendRead id offset length => exact sendOnly_eq_run h _ _ _ _
  | sendWrite id offset data deferred => exact sendOnly_eq_run h _ _ _ _
  | sendReset id => exact sendOnly_eq_run h _ _ _ _
  | scan startId numIds =>
    simp only [bodyOf, plan, scanBody]
    split_ifs <;> rfl

end

/-! ### Everything an instruction can do in an idle state -/

/-- At most one transmit event, which carries a whole frame (R48, R60). -/
def SentWhole (sent : List Event) : Prop := sent = [] ∨ ∃ f, sent = [.tx f] ∧ wholeFrame f = true

/-- A frame of lawful arguments is a whole frame (R60, R123). -/
theorem wholeFrame_frame {id c : Byte} {ps : List Byte} (hid : id.toNat ≤ 254) (hps : ps.length ≤ 253) :
    wholeFrame (frame id c ps) = true := by
  have hsplit := splitFrame_frame (id := id) (c := c) hps []
  rw [List.append_nil] at hsplit
  simp [wholeFrame, hsplit, builderId, hid]

/-- What a plan can be for the instruction `i`, issued in `s`. -/
def Plan.Fits (s : State) (i : Instr) : Plan → Prop
  | .refuse _ => True
  | .parse p r => ∃ b, i = .processByte b ∧ Sys2Proof.Machine.processByte s.cfg.shortLen s.parser b = some (p, r)
  | .finish sent r => SentWhole sent ∧ allowedResult i r = true ∧ r.packet = none ∧ ∀ e, r ≠ .raised (.bus e)
  | .await sent => SentWhole sent ∧ ∃ k, replyOf i = some k ∧ k ≠ .scan ∧
      ∀ r, replyResult k r = true → allowedResult i r = true
  | .scan startId numIds => i = .scan startId numIds ∧ startId + numIds ≤ 254

section
variable {s : State} {i : Instr}

theorem withFrame_fits {id : Byte} {c : CommandArg} {ps : List Byte} {k : List Byte → Plan}
    (h : ∀ f, wholeFrame f = true → (k f).Fits s i) : (withFrame s.cfg.codes id c ps k).Fits s i := by
  unfold withFrame
  cases hf : buildFrame s.cfg.codes id c ps with
  | error r => trivial
  | ok f =>
    obtain ⟨hid, hps, rfl⟩ := buildFrame_eq_ok.1 hf
    exact h _ (wholeFrame_frame hid hps)

/-- An operation without a receive phase returns no value. -/
theorem sendPlan_fits (hk : returnKind i = .unit) (id : Byte) (c : CommandArg) (ps : List Byte) :
    (sendPlan s.cfg.codes id c ps).Fits s i :=
  withFrame_fits fun f hf => ⟨.inr ⟨f, rfl, hf⟩, by simp [allowedResult, kindOf, hk], rfl, nofun⟩

/-- An operation with a receive phase ends in what its receive phase allows. -/
theorem exchangePlan_fits {k : Reply} (hk : replyOf i = some k) (hne : k ≠ .scan)
    (ha : ∀ r, replyResult k r = true → allowedResult i r = true) (id : Byte) (c : CommandArg) (ps : List Byte) :
    (exchangePlan s.cfg.codes id c ps).Fits s i :=
  withFrame_fits fun f hf => ⟨.inr ⟨f, rfl, hf⟩, k, hk, hne, ha⟩

/-- A result that is no Packet gives the host none. -/
theorem packet_eq_none {x : Value} (h : kindOf x ≠ .packet) : (OpResult.returned x).packet = none := by
  cases x <;> simp_all [kindOf, OpResult.packet]

theorem accessorPlan_fits {k : Option Packet} {v : Packet → Option Value}
    (h : ∀ p x, v p = some x → kindOf x = returnKind i ∧ kindOf x ≠ .packet) : (accessorPlan k v).Fits s i := by
  unfold accessorPlan
  cases k with
  | none => trivial
  | some p =>
    cases hv : v p with
    | none => simp [hv, Plan.Fits]
    | some x =>
      obtain ⟨hkind, hx⟩ := h p x hv
      simp only [hv, Plan.Fits]
      exact ⟨.inl rfl, by simp [allowedResult, hkind], packet_eq_none hx, nofun⟩

theorem accessorPlan_total_fits {k : Option Packet} (v : Packet → Value)
    (h : ∀ p, kindOf (v p) = returnKind i ∧ kindOf (v p) ≠ .packet) : (accessorPlan k fun p => some (v p)).Fits s i :=
  accessorPlan_fits fun p x hx => by
    cases hx
    exact h p

/-- A command to ID 254 has no receive phase, and so may raise nothing (R146, D12). -/
theorem answeredPlan_fits {id : Byte} (hk : replyOf i = some .ack) (hunit : returnKind i = .unit)
    (hraise : ∀ e, mayRaise e i = (id != broadcastId && (isTimeout e || isChecksum e || isDevice e)))
    (c : CommandArg) (ps : List Byte) : (answeredPlan s.cfg.codes id c ps).Fits s i := by
  unfold answeredPlan
  split_ifs with hid
  · exact sendPlan_fits hunit _ _ _
  · refine exchangePlan_fits hk (by simp) (fun r hr => ?_) _ _ _
    cases r with
    | returned v => rw [allowedResult, hunit]; exact hr
    | raised e =>
      rw [allowedResult, hraise, bne_iff_ne.2 hid, Bool.true_and]
      exact hr

theorem syncWritePlan_fits (hunit : returnKind i = .unit) (hraise : mayRaise .validation i = true) (ids : List Byte)
    (offset : Byte) (values : List (List Byte)) : (syncWritePlan s.cfg.codes ids offset values).Fits s i := by
  unfold syncWritePlan
  split_ifs
  · trivial
  · exact sendPlan_fits hunit _ _ _
  · exact ⟨.inl rfl, hraise, rfl, nofun⟩

theorem pingPlan_fits (hk : replyOf i = some .presence) (ha : ∀ r, replyResult .presence r = true → allowedResult i r = true)
    (id : Byte) : (pingPlan s.cfg.codes id).Fits s i := by
  unfold pingPlan
  split_ifs
  · trivial
  · exact exchangePlan_fits hk (by simp) ha _ _ _

theorem readPlan_fits (hk : replyOf i = some .data) (ha : ∀ r, replyResult .data r = true → allowedResult i r = true)
    (id offset length : Byte) : (readPlan s.cfg.codes id offset length).Fits s i := by
  unfold readPlan
  split_ifs
  · trivial
  · exact exchangePlan_fits hk (by simp) ha _ _ _

end

/-- Every plan fits its instruction. -/
theorem plan_fits (s : State) (i : Instr) : (plan s i).Fits s i := by
  cases i with
  | wirePing id => exact pingPlan_fits rfl (by rintro (v | e) hr <;> exact hr) id
  | wireRead id offset length => exact readPlan_fits rfl (by rintro (v | e) hr <;> exact hr) id _ _
  | wireWrite id offset data => exact answeredPlan_fits rfl rfl (fun _ => rfl) _ _
  | wireRegWrite id offset data => exact answeredPlan_fits rfl rfl (fun _ => rfl) _ _
  | wireAction => exact sendPlan_fits rfl _ _ _
  | wireReset id => exact answeredPlan_fits rfl rfl (fun _ => rfl) _ _
  | wireSyncWrite offset blocks => exact syncWritePlan_fits rfl rfl _ _ _
  | processByte b =>
    simp only [plan, processBytePlan]
    cases hp : Sys2Proof.Machine.processByte s.cfg.shortLen s.parser b with
    | none => trivial
    | some pr => exact ⟨b, rfl, hp⟩
  | devId => exact accessorPlan_total_fits _ fun _ => ⟨rfl, nofun⟩
  | paramLen => exact accessorPlan_total_fits _ fun _ => ⟨rfl, nofun⟩
  | paramByte k =>
    refine accessorPlan_fits fun p x hx => ?_
    obtain ⟨b, -, rfl⟩ := Option.map_eq_some_iff.1 hx
    exact ⟨rfl, nofun⟩
  | params => exact accessorPlan_total_fits _ fun _ => ⟨rfl, nofun⟩
  | errorCode => exact accessorPlan_total_fits _ fun _ => ⟨rfl, nofun⟩
  | errorCodeStr => exact accessorPlan_total_fits _ fun _ => ⟨rfl, nofun⟩
  | build id c ps => exact withFrame_fits fun f _ => ⟨.inl rfl, rfl, rfl, nofun⟩
  | fillAndWritePacket id c data => exact sendPlan_fits rfl _ _ _
  | readStatusPacket => exact ⟨.inl rfl, .packet, rfl, by simp, by rintro (v | e) hr <;> exact hr⟩
  | ping id => exact pingPlan_fits rfl (by rintro (v | e) hr <;> exact hr) id
  | read id offset length => exact readPlan_fits rfl (by rintro (v | e) hr <;> exact hr) id _ _
  | write id offset data deferred => exact answeredPlan_fits rfl rfl (fun _ => rfl) _ _
  | reset id => exact answeredPlan_fits rfl rfl (fun _ => rfl) _ _
  | action => exact sendPlan_fits rfl _ _ _
  | syncWrite ids offset values => exact syncWritePlan_fits rfl rfl _ _ _
  | sendPing id => exact sendPlan_fits rfl _ _ _
  | sendRead id offset length => exact sendPlan_fits rfl _ _ _
  | sendWrite id offset data deferred => exact sendPlan_fits rfl _ _ _
  | sendReset id => exact sendPlan_fits rfl _ _ _
  | scan startId numIds =>
    simp only [plan]
    split_ifs with h
    · trivial
    · exact ⟨rfl, by omega⟩

/-- The operation `i`, issued in `s`, is running in `u` after its transmit events and before its first receive event. -/
structure Opened (i : Instr) (k : Reply) (sent : List Event) (s u : State) : Prop where
  running : Running i k u
  cfg : u.cfg = s.cfg
  parser : u.parser = s.parser
  program : u.program = s.program
  draws : u.draws = s.draws
  rx : u.rx = s.rx
  history : u.history = s.history ++ sent
  others : (∀ a n, i ≠ .scan a n) → k ≠ .scan ∧ u.cur = s.cur ∧ u.stop = s.stop ∧ u.found = s.found
  sent : SentWhole sent
  allowed : ∀ r, replyResult k r = true → allowedResult i r = true

/-- Every next state `t` that the instruction `i`, issued in the idle state `s`, can answer. -/
inductive Issued (i : Instr) (s t : State) : Prop
  /-- `process_byte` has taken its byte. -/
  | parsed {b : Byte} {p : Parser} {r : ParseResult} (hi : i = .processByte b)
      (hp : processByte s.cfg.shortLen s.parser b = some (p, r))
      (ht : t = { s with
        parser := p
        packet := none
        history := s.history ++ [.result (.returned (.parse r))] })
  /-- It has ended with no receive phase. -/
  | finished {sent : List Event} {r : OpResult} (hsent : SentWhole sent) (ha : allowedResult i r = true)
      (hpacket : r.packet = none) (hbus : ∀ e, r ≠ .raised (.bus e))
      (ht : t = { s with history := s.history ++ sent ++ [.result r] })
  /-- A scan of nothing has ended. -/
  | emptyScan {a : Nat} (hi : i = .scan a 0)
      (ht : t = { s with
        cur := a
        stop := a
        found := false
        history := s.history ++ [.result (.returned (.bool false))] })
  /-- It has made receive events. -/
  | received {k : Reply} {sent : List Event} {u : State} {answers : List RxAnswer} {evs : List Event}
      (ho : Opened i k sent s u) (hr : Received i k u t answers evs) (hrx : s.rx = answers ++ t.rx)
      (hleft : t.op ≠ none → t.rx = [])

/-- The state in which a scan pings its first ID (R174). -/
def State.pinging (s : State) (i : Instr) (startId numIds : Nat) : State :=
  { s.awaiting i [.tx (frame (BitVec.ofNat 8 startId) s.cfg.codes.ping [])] with
    cur := startId, stop := startId + numIds, found := false }

/-- A scan of nothing returns at once (R176). -/
theorem run_scan_zero {s : State} (h : s.Idle) (i : Instr) (a : Nat) :
    (Plan.scan a 0).run i s = .next { s with
      cur := a
      stop := a
      found := false
      history := s.history ++ [.result (.returned (.bool false))] } := by
  rcases scanNext_cases (s.scanning i a 0) with ⟨hlt, -⟩ | ⟨hlt, -⟩ | ⟨-, hnext⟩
  · exact absurd hlt (Nat.lt_irrefl a)
  · exact absurd hlt (Nat.lt_irrefl a)
  · rw [Plan.run, hnext, andThen_next, drain, drainQueue_ended rfl]
    obtain ⟨hphase, hop⟩ := h
    simp only [State.scanning, Nat.add_zero, ← hphase, ← hop]

/-- A scan of a lawful range pings its first ID (R174). -/
theorem run_scan_succ (s : State) (i : Instr) {a n : Nat} (hn : 0 < n) (han : a + n ≤ 254) :
    (Plan.scan a n).run i s = drain (s.pinging i a n) := by
  rcases scanNext_cases (s.scanning i a n) with ⟨-, -, hnext⟩ | ⟨hlt, hbeyond, -⟩ | ⟨hlt, -⟩
  · rw [Plan.run, hnext]
    rfl
  · have hcur : (s.scanning i a n).cur = a := rfl
    omega
  · exact absurd (show a < a + n by omega) hlt

theorem pinging_opened (s : State) {a n : Nat} (hn : 0 < n) (han : a + n ≤ 254) :
    Opened (.scan a n) .scan [.tx (frame (BitVec.ofNat 8 a) s.cfg.codes.ping [])] s (s.pinging (.scan a n) a n) where
  running := ⟨rfl, rfl, rfl, rfl, reset_ok _, rfl, fun _ => ⟨show a < a + n by omega, han⟩⟩
  cfg := rfl
  parser := rfl
  program := rfl
  draws := rfl
  rx := rfl
  history := rfl
  others h := absurd rfl (h a n)
  sent := .inr ⟨_, rfl, wholeFrame_frame (by simp; omega) (by simp)⟩
  allowed r hr := by cases r <;> exact hr

theorem awaiting_opened (s : State) {i : Instr} {k : Reply} {sent : List Event} (hsent : SentWhole sent)
    (hk : replyOf i = some k) (hne : k ≠ .scan) (ha : ∀ r, replyResult k r = true → allowedResult i r = true) :
    Opened i k sent s (s.awaiting i sent) where
  running := ⟨rfl, hk, rfl, rfl, reset_ok _, rfl, fun h => absurd h hne⟩
  cfg := rfl
  parser := rfl
  program := rfl
  draws := rfl
  rx := rfl
  history := rfl
  others _ := ⟨hne, rfl, rfl, rfl⟩
  sent := hsent
  allowed := ha

/-- What the receive loop of an opened operation makes of the queue (R142, R184). -/
theorem Opened.issued {i : Instr} {k : Reply} {sent : List Event} {s u : State} (h : Opened i k sent s u) :
    ∃ t, drain u = .next t ∧ Issued i s t := by
  obtain ⟨t, answers, evs, ht, hr, hrx, hleft⟩ := drainQueue_received u.rx h.running
  exact ⟨t, ht, .received h hr (h.rx ▸ hrx) hleft⟩

/-- In an idle state every instruction is refused by its plan or answers one of these next states. -/
theorem exec_cases {s : State} (h : s.Idle) (i : Instr) :
    (∃ r, plan s i = .refuse r ∧ exec i s = .refused r) ∨ ∃ t, exec i s = .next t ∧ Issued i s t := by
  have hfits := plan_fits s i
  rw [exec_eq_run h i]
  cases hplan : plan s i with
  | refuse r => exact .inl ⟨r, rfl, rfl⟩
  | parse p r =>
    rw [hplan] at hfits
    obtain ⟨b, hi, hp⟩ := hfits
    exact .inr ⟨_, rfl, .parsed hi hp rfl⟩
  | finish sent r =>
    rw [hplan] at hfits
    obtain ⟨hsent, ha, hpacket, hbus⟩ := hfits
    exact .inr ⟨_, rfl, .finished hsent ha hpacket hbus rfl⟩
  | await sent =>
    rw [hplan] at hfits
    obtain ⟨hsent, k, hk, hne, ha⟩ := hfits
    exact .inr (awaiting_opened s hsent hk hne ha).issued
  | scan a n =>
    rw [hplan] at hfits
    obtain ⟨rfl, han⟩ := hfits
    cases n with
    | zero => exact .inr ⟨_, run_scan_zero h _ a, .emptyScan rfl rfl⟩
    | succ n =>
      rw [run_scan_succ s _ (Nat.succ_pos n) han]
      exact .inr (pinging_opened s (Nat.succ_pos n) han).issued

/-- Every next state of an instruction is one of these. -/
theorem exec_next {i : Instr} {s t : State} (h : exec i s = .next t) : s.Idle ∧ Issued i s t := by
  obtain ⟨hidle, -⟩ := exec_eq_next.1 h
  rcases exec_cases hidle i with ⟨r, -, hr⟩ | ⟨u, hu, hi⟩
  · rw [hr] at h
    cases h
  · rw [hu] at h
    cases h
    exact ⟨hidle, hi⟩

end Sys2Proof.Machine
end

section
/-! PROOFS. What every step keeps (spec/10_state.md, spec/20_memory.md): the invariant, with no fault as its consequence; then,
from any state at all, that the history only grows and that only whole frames are transmitted. -/

namespace Sys2Proof.Machine

open Sys2Proof

/-! ### The invariant -/

theorem inv_iff {s : State} : s.inv = true ↔
    s.cfg.Lawful ∧ s.parser.ok = true ∧ s.rxParser.ok = true ∧ s.packet.all Packet.ok = true ∧ s.controllerOk = true := by
  simp [State.inv, and_assoc]

/-- The controller part of the invariant where no operation is held. -/
theorem controllerOk_idle {s : State} (hop : s.op = none) :
    s.controllerOk = true ↔ s.phase = .idle ∧ s.rxParser.fresh = true := by
  simp [State.controllerOk, hop]

/-- The controller part of the invariant where an operation runs. -/
theorem Running.controllerOk {i : Instr} {k : Reply} {s : State} (h : Running i k s) : s.controllerOk = true := by
  have hscan : replyOf i ≠ some .scan ∨ (s.cur < s.stop ∧ s.stop ≤ 254) := by
    by_cases hk : k = .scan
    · exact .inr (h.scan hk)
    · exact .inl (by simp [h.reply, hk])
  simpa [State.controllerOk, h.op, h.phase, h.open_, h.packet, h.reply] using hscan

/-- In a state that meets the invariant, an operation that is held runs. -/
theorem running_of_inv {s : State} {i : Instr} (h : s.inv = true) (hop : s.op = some i) : ∃ k, Running i k s := by
  obtain ⟨-, -, hok, -, hctrl⟩ := inv_iff.1 h
  simp only [State.controllerOk, hop, Bool.and_eq_true, beq_iff_eq, Bool.not_eq_true', Option.isNone_iff_eq_none,
    Bool.or_eq_true, bne_iff_ne, decide_eq_true_eq] at hctrl
  obtain ⟨⟨⟨⟨hphase, hopen⟩, hpacket⟩, hreply⟩, hscan⟩ := hctrl
  obtain ⟨k, hk⟩ := Option.isSome_iff_exists.1 hreply
  refine ⟨k, hop, hk, hphase, hopen, hok, hpacket, fun hks => hscan.resolve_left fun hne => hne ?_⟩
  rw [hk, hks]

/-- In a state that meets the invariant, a controller that holds no operation is idle. -/
theorem idle_of_inv {s : State} (h : s.inv = true) (hop : s.op = none) : s.Idle := by
  obtain ⟨-, -, -, -, hctrl⟩ := inv_iff.1 h
  exact ⟨((controllerOk_idle hop).1 hctrl).1, hop⟩

/-- A run of receive events keeps the invariant. -/
theorem Received.inv {i : Instr} {k : Reply} {u t : State} {answers : List RxAnswer} {evs : List Event}
    (h : Received i k u t answers evs) (hcfg : u.cfg.Lawful) (hparser : u.parser.ok = true) : t.inv = true := by
  rw [← h.cfg] at hcfg
  rw [← h.parser] at hparser
  rcases h.ending with ⟨hrun, -⟩ | ⟨hop, hphase, hfresh, r, evs', -, -, -, -, hpacket⟩
  · exact inv_iff.2 ⟨hcfg, hparser, hrun.rxParser, by simp [hrun.packet], hrun.controllerOk⟩
  · exact inv_iff.2 ⟨hcfg, hparser, fresh_ok hfresh, hpacket, (controllerOk_idle hop).2 ⟨hphase, hfresh⟩⟩

/-- Every instruction keeps the invariant. -/
theorem exec_keeps_inv {i : Instr} {s t : State} (h : s.inv = true) (he : exec i s = .next t) : t.inv = true := by
  obtain ⟨hcfg, hparser, hrx, hpacket, hctrl⟩ := inv_iff.1 h
  obtain ⟨⟨hphase, hop⟩, hissued⟩ := exec_next he
  have hfresh : s.rxParser.fresh = true := ((controllerOk_idle hop).1 hctrl).2
  cases hissued with
  | parsed hi hp ht =>
    subst ht
    exact inv_iff.2 ⟨hcfg, processByte_ok hp hparser, hrx, rfl, (controllerOk_idle (by exact hop)).2 ⟨hphase, hfresh⟩⟩
  | finished hsent ha hp hbus ht =>
    subst ht
    exact inv_iff.2 ⟨hcfg, hparser, hrx, hpacket, hctrl⟩
  | emptyScan hi ht =>
    subst ht
    exact inv_iff.2 ⟨hcfg, hparser, hrx, hpacket, (controllerOk_idle (by exact hop)).2 ⟨hphase, hfresh⟩⟩
  | received ho hr hq hleft => exact hr.inv (ho.cfg ▸ hcfg) (ho.parser ▸ hparser)

/-- One step of a running operation is a run of receive events. -/
theorem step_received {i : Instr} {k : Reply} {s : State} (h : Running i k s) :
    ∃ u t answers evs, step s = .next t ∧ Received i k u t answers evs ∧ u.cfg = s.cfg ∧ u.parser = s.parser := by
  cases hrx : s.rx with
  | nil =>
    have hrun : Running i k { s with draws := s.draws + 1 } :=
      ⟨h.op, h.reply, h.phase, h.open_, h.rxParser, h.packet, h.scan⟩
    obtain ⟨t, evs, ht, hr, -⟩ := receive_received hrun (Config.freeAnswer s.draws)
    exact ⟨_, t, _, evs, (step_free h.op h.phase hrx).trans ht, hr, rfl, rfl⟩
  | cons a q =>
    obtain ⟨t, answers, evs, ht, hr, -⟩ := drainQueue_received s.rx h
    exact ⟨s, t, answers, evs, (step_drain h.op h.phase hrx).trans ht, hr, rfl, rfl⟩

/-- Settles O48: a running operation makes receive events (`step_received`), an idle block issues a request (`exec_keeps_inv`),
waits, or resets the host's parser. -/
theorem stepKeepsTheInvariant : Obligations.StepKeepsTheInvariant := by
  intro s t h hstep
  obtain ⟨hcfg, hparser, hrx, hpacket, hctrl⟩ := inv_iff.1 h
  cases hop : s.op with
  | some i =>
    obtain ⟨k, hrun⟩ := running_of_inv h hop
    obtain ⟨u, t', answers, evs, ht, hr, hc, hp⟩ := step_received hrun
    rw [ht] at hstep
    cases hstep
    exact hr.inv (hc ▸ hcfg) (hp ▸ hparser)
  | none =>
    have hidle := idle_of_inv h hop
    rcases step_idle_cases hidle with hx | ⟨r, rest, i, -, hx⟩ | ⟨e, hx⟩ | ⟨rest, -, hx⟩ <;> rw [hx] at hstep
    · cases hstep
      exact h
    · have hload : State.inv { s with program := rest } = true := h
      exact exec_keeps_inv hload hstep
    · cases hstep
    · cases hstep
      exact inv_iff.2 ⟨hcfg, reset_ok _, hrx, rfl, (controllerOk_idle (by exact hop)).2 ((controllerOk_idle hop).1 hctrl)⟩

/-! ### No fault -/

/-- No instruction faults, in any state. -/
theorem exec_ne_fault (i : Instr) (s : State) (r : Fault) : exec i s ≠ .fault r := by
  intro h
  by_cases hidle : s.Idle
  · rcases exec_cases hidle i with ⟨x, -, hx⟩ | ⟨t, ht, -⟩
    · rw [hx] at h
      cases h
    · rw [ht] at h
      cases h
  · rw [exec_eq_issue, issue_busy i hidle] at h
    cases h

/-- No step from a state that meets the invariant faults. -/
theorem step_ne_fault {s : State} (h : s.inv = true) (r : Fault) : step s ≠ .fault r := by
  intro hstep
  cases hop : s.op with
  | some i =>
    obtain ⟨k, hrun⟩ := running_of_inv h hop
    obtain ⟨_, _, _, _, ht, -⟩ := step_received hrun
    rw [ht] at hstep
    cases hstep
  | none =>
    rcases step_idle_cases (idle_of_inv h hop) with hx | ⟨r', rest, i, -, hx⟩ | ⟨e, hx⟩ | ⟨rest, -, hx⟩ <;> rw [hx] at hstep
    · cases hstep
    · exact exec_ne_fault i _ r hstep
    · cases hstep
    · cases hstep

/-- Settles O50, by induction on the number of steps: no step faults where the invariant holds, and every step keeps it. -/
theorem noRunFaults : Obligations.NoRunFaults := by
  intro n
  induction n with
  | zero =>
    intro s r _ h
    cases h
  | succ n ih =>
    intro s r h hrun
    cases hstep : step s with
    | next t => exact ih t r (stepKeepsTheInvariant s t h hstep) ((run_succ hstep n).symm.trans hrun)
    | fault x => exact step_ne_fault h x hstep
    | refused x =>
      have hcore : Sys2Proof.core.step s = .refused x := hstep
      simp only [Host.Core.run, hcore] at hrun
      cases hrun

/-- Settles O7: D11 by `processByte_eq_none`; a receive event of a running operation always gives a next state. -/
theorem terminalParserTakesNoByte : Obligations.TerminalParserTakesNoByte := by
  constructor
  · intro s b hidle hterm
    have hnone : processByte s.cfg.shortLen s.parser b = none := processByte_eq_none.2 hterm
    simp only [exec_eq_run hidle, plan, processBytePlan, hnone, Plan.run]
  · intro s a r h hop hrec
    obtain ⟨i, hi⟩ := Option.ne_none_iff_exists'.1 hop
    obtain ⟨k, hrun⟩ := running_of_inv h hi
    obtain ⟨t, evs, ht, -⟩ := receive_received hrun a
    rw [ht] at hrec
    cases hrec

/-! ### The history grows, by whole frames -/

/-- The event, if it transmits, transmits a whole frame (R48). -/
def Event.whole : Event → Bool
  | .tx f => wholeFrame f
  | .rx _ => true
  | .found _ => true
  | .missing _ => true
  | .result _ => true

theorem sentOk_iff {s : State} : s.sentOk = true ↔ ∀ e ∈ s.history, e.whole = true := by
  rw [State.sentOk, List.all_eq_true]
  exact forall₂_congr fun e _ => by cases e <;> rfl

/-- The parameters are unchanged and the history has grown by events that transmit whole frames only. -/
structure Grows (s t : State) : Prop where
  cfg : t.cfg = s.cfg
  program : t.program = s.program
  history : ∃ evs, t.history = s.history ++ evs ∧ ∀ e ∈ evs, e.whole = true

theorem Grows.refl (s : State) : Grows s s := ⟨rfl, rfl, [], by simp, by simp⟩

theorem Grows.trans {s t u : State} (h : Grows s t) (h' : Grows t u) : Grows s u := by
  obtain ⟨evs, he, hw⟩ := h.history
  obtain ⟨evs', he', hw'⟩ := h'.history
  refine ⟨h'.cfg.trans h.cfg, h'.program.trans h.program, evs ++ evs', by rw [he', he, List.append_assoc], ?_⟩
  exact fun e hm => (List.mem_append.1 hm).elim (hw e) (hw' e)

/-- Growth is about the history. -/
theorem Grows.of_history {s t u : State} (h : Grows s t) (hc : u.cfg = t.cfg) (hp : u.program = t.program)
    (hh : u.history = t.history) : Grows s u :=
  ⟨hc.trans h.cfg, hp.trans h.program, hh ▸ h.history⟩

theorem settled_grows {k : Reply} {v : Verdict} {p : Parser} {s t : State} (h : Settled k v p s t) :
    Grows s t ∧ t.rx = s.rx := by
  rcases h with ⟨r, pk, rfl, -, -⟩ | ⟨-, ev, f, hev, ⟨-, hcur, rfl⟩ | ⟨-, rfl⟩⟩
  · exact ⟨⟨rfl, rfl, [.result r], rfl, by simp [Event.whole]⟩, rfl⟩
  · have hping := wholeFrame_frame (id := BitVec.ofNat 8 (s.cur + 1)) (c := s.cfg.codes.ping) (ps := [])
      (by simp; omega) (by simp)
    refine ⟨⟨rfl, rfl, [ev, .tx _], List.append_assoc _ _ _, ?_⟩, rfl⟩
    rcases hev with ⟨rfl, -⟩ | ⟨rfl, -⟩ <;> simpa [Event.whole] using hping
  · refine ⟨⟨rfl, rfl, [ev, .result _], List.append_assoc _ _ _, ?_⟩, rfl⟩
    rcases hev with ⟨rfl, -⟩ | ⟨rfl, -⟩ <;> simp [Event.whole]

theorem endReceive_grows {v : Verdict} {s t : State} (h : endReceive v s = .next t) : Grows s t ∧ t.rx = s.rx := by
  cases hop : s.op with
  | none => simp [endReceive, hop] at h
  | some i =>
    cases hk : replyOf i with
    | none => simp [endReceive, hop, hk] at h
    | some k =>
      rw [endReceive_eq v hop hk] at h
      rcases settle_cases k v s.rxParser { s with rxParser := s.rxParser.reset } with ⟨-, hx⟩ | ⟨u, hu, hs⟩
      · rw [hx] at h
        cases h
      · rw [hu] at h
        cases h
        obtain ⟨hg, hrx⟩ := settled_grows hs
        exact ⟨⟨hg.cfg, hg.program, hg.history⟩, hrx⟩

/-- A receive event from any state records its answer, whatever else it does. -/
theorem receive_grows {a : RxAnswer} {s t : State} (h : receive a s = .next t) : Grows s t ∧ t.rx = s.rx := by
  have hrec (p : Parser) : Grows s { s.record (.rx a) with rxParser := p } :=
    ⟨rfl, rfl, [.rx a], rfl, by simp [Event.whole]⟩
  have hend {v : Verdict} {p : Parser} (he : endReceive v { s.record (.rx a) with rxParser := p } = .next t) :
      Grows s t ∧ t.rx = s.rx :=
    ⟨(hrec p).trans (endReceive_grows he).1, (endReceive_grows he).2⟩
  rcases receive_cases a s with ⟨b, p, -, -, hx⟩ | ⟨b, p, -, -, hx⟩ | ⟨b, p, -, -, hx⟩ | ⟨-, hx⟩ | ⟨-, hx⟩
  · rw [hx] at h
    cases h
    exact ⟨hrec p, rfl⟩
  · exact hend (hx ▸ h)
  · exact hend (hx ▸ h)
  · exact hend (p := s.rxParser) (hx ▸ h)
  · rw [hx] at h
    cases h

/-- The receive loop from any state leaves an end part of its queue. -/
theorem drainQueue_grows (q : List RxAnswer) : ∀ {s t : State}, drainQueue q s = .next t → Grows s t ∧ t.rx <:+ q := by
  induction q with
  | nil =>
    intro s t h
    cases h
    exact ⟨(Grows.refl s).of_history rfl rfl rfl, List.suffix_rfl⟩
  | cons a q ih =>
    intro s t h
    cases hop : s.op with
    | none =>
      rw [drainQueue_ended hop] at h
      cases h
      exact ⟨(Grows.refl s).of_history rfl rfl rfl, List.suffix_rfl⟩
    | some i =>
      rw [drainQueue_cons hop] at h
      obtain ⟨u, hu, ht⟩ := andThen_eq_next.1 h
      obtain ⟨hg, hs⟩ := ih ht
      exact ⟨(receive_grows hu).1.trans hg, hs.trans (List.suffix_cons a q)⟩

theorem sentWhole_whole {sent : List Event} (h : SentWhole sent) : ∀ e ∈ sent, e.whole = true := by
  rcases h with rfl | ⟨f, rfl, hf⟩
  · simp
  · simpa [Event.whole] using hf

/-- Every instruction transmits whole frames only, and takes answers from the front. -/
theorem exec_grows {i : Instr} {s t : State} (h : exec i s = .next t) : Grows s t ∧ t.rx <:+ s.rx := by
  obtain ⟨-, hissued⟩ := exec_next h
  cases hissued with
  | parsed hi hp ht =>
    subst ht
    exact ⟨⟨rfl, rfl, _, rfl, by simp [Event.whole]⟩, List.suffix_rfl⟩
  | @finished sent r hsent ha hp hbus ht =>
    subst ht
    refine ⟨⟨rfl, rfl, sent ++ [.result r], List.append_assoc _ _ _, fun e he => ?_⟩, List.suffix_rfl⟩
    rcases List.mem_append.1 he with he | he
    · exact sentWhole_whole hsent e he
    · rw [List.mem_singleton.1 he]
      rfl
  | emptyScan hi ht =>
    subst ht
    exact ⟨⟨rfl, rfl, _, rfl, by simp [Event.whole]⟩, List.suffix_rfl⟩
  | @received k sent u answers evs ho hr hq hleft =>
    refine ⟨⟨hr.cfg.trans ho.cfg, hr.program.trans ho.program, sent ++ evs, ?_, fun e he => ?_⟩, answers, hq.symm⟩
    · rw [hr.history, ho.history, List.append_assoc]
    · rcases List.mem_append.1 he with he | he
      · exact sentWhole_whole ho.sent e he
      · cases e with
        | tx f =>
          obtain ⟨-, n, hn, rfl⟩ := hr.sent f he
          exact wholeFrame_frame (by simp; omega) (by simp)
        | _ => rfl

/-- What a step makes of the history, the parameters and its two inputs. -/
structure Steps (s t : State) : Prop where
  history : ∃ evs, t.history = s.history ++ evs ∧ ∀ e ∈ evs, e.whole = true
  cfg : t.cfg = s.cfg
  program : t.program <:+ s.program
  rx : t.rx <:+ s.rx

theorem Grows.steps {s t : State} (h : Grows s t) (hrx : t.rx <:+ s.rx) : Steps s t :=
  ⟨h.history, h.cfg, ⟨[], h.program⟩, hrx⟩

/-- A step from any state grows the history and consumes its inputs from the front. -/
theorem step_steps {s t : State} (h : step s = .next t) : Steps s t := by
  cases hop : s.op with
  | some i =>
    by_cases hphase : s.phase = .rx
    · cases hrx : s.rx with
      | nil =>
        rw [step_free hop hphase hrx] at h
        obtain ⟨⟨hcfg, hprog, hhist⟩, hq⟩ := receive_grows h
        exact ⟨hhist, hcfg, ⟨[], hprog⟩, ⟨[], hq⟩⟩
      | cons a q =>
        rw [step_drain hop hphase hrx] at h
        obtain ⟨hg, hq⟩ := drainQueue_grows _ h
        exact hg.steps hq
    · simp [step, hop, resume, hphase] at h
  | none =>
    by_cases hphase : s.phase = .idle
    · rcases step_idle_cases ⟨hphase, hop⟩ with hx | ⟨r, rest, i, hprog, hx⟩ | ⟨e, hx⟩ | ⟨rest, hprog, hx⟩ <;> rw [hx] at h
      · cases h
        exact (Grows.refl s).steps List.suffix_rfl
      · obtain ⟨hg, hrx⟩ := exec_grows h
        exact ⟨hg.history, hg.cfg, ⟨[r], by rw [hg.program, hprog]; rfl⟩, hrx⟩
      · cases h
      · cases h
        exact ⟨⟨[], by simp, by simp⟩, rfl, ⟨[.newParser], hprog.symm⟩, List.suffix_rfl⟩
    · simp [step, hop, hphase] at h

/-- Settles O51: what a step adds to the history transmits whole frames only. -/
theorem onlyWholeFramesAreSent : Obligations.OnlyWholeFramesAreSent := by
  intro s t h hstep
  obtain ⟨⟨evs, hevs, hw⟩, -, -, -⟩ := step_steps hstep
  rw [sentOk_iff] at h ⊢
  intro e he
  rw [hevs] at he
  exact (List.mem_append.1 he).elim (h e) (hw e)

/-- Settles O52: the same growth, whatever it transmits. -/
theorem stepOnlyAppendsToTheHistory : Obligations.StepOnlyAppendsToTheHistory := by
  intro s t hstep
  obtain ⟨⟨evs, hevs, -⟩, hcfg, hprog, hrx⟩ := step_steps hstep
  exact ⟨⟨evs, hevs.symm⟩, hcfg, hprog, hrx⟩

end Sys2Proof.Machine
end

section
/-! PROOFS. When the plan of an instruction runs and when it is refused (spec/60_exceptions.md R205 to R216), and the statements
made of every instruction: its events, its results, and what it leaves alone. -/

namespace Sys2Proof.Machine

open Sys2Proof

/-! ### Plans of lawful arguments -/

section Lawful
variable (codes : CmdCodes) {id : Byte} (c : CommandArg) {ps : List Byte}

theorem withFrame_ok (hid : id.toNat ≤ 254) (hps : ps.length ≤ 253) (k : List Byte → Plan) :
    withFrame codes id c ps k = k (frame id (commandByte codes c) ps) := by
  rw [withFrame, buildFrame_ok codes c hid hps]

/-- The builder refuses the ID 255 first (R123). -/
theorem withFrame_id (hid : id = 255#8) (k : List Byte → Plan) :
    withFrame codes id c ps k = .refuse .buildIdOutOfRange := by
  subst hid
  rfl

/-- The builder refuses more than 253 parameters (R123). -/
theorem withFrame_long (hid : id.toNat ≤ 254) (hps : 253 < ps.length) (k : List Byte → Plan) :
    withFrame codes id c ps k = .refuse .buildTooManyParams := by
  have hbuild : buildFrame codes id c ps = .error .buildTooManyParams := by
    rw [buildFrame, if_pos (by simpa [builderId] using hid), if_neg (Nat.not_le.2 hps)]
  rw [withFrame, hbuild]

theorem sendPlan_ok (hid : id.toNat ≤ 254) (hps : ps.length ≤ 253) :
    sendPlan codes id c ps = .finish [.tx (frame id (commandByte codes c) ps)] (.returned .unit) :=
  withFrame_ok codes c hid hps _

theorem exchangePlan_ok (hid : id.toNat ≤ 254) (hps : ps.length ≤ 253) :
    exchangePlan codes id c ps = .await [.tx (frame id (commandByte codes c) ps)] :=
  withFrame_ok codes c hid hps _

/-- The ID of a device is not the broadcast ID (R146). -/
theorem ne_broadcastId (hid : id.toNat ≤ 253) : id ≠ broadcastId := by
  rintro rfl
  exact absurd hid (by decide)

theorem pingPlan_ok (hid : id.toNat ≤ 253) : pingPlan codes id = .await [.tx (frame id codes.ping [])] := by
  rw [pingPlan, if_neg (ne_broadcastId hid)]
  exact exchangePlan_ok codes (.cmd .ping) (by omega) (by simp)

theorem readPlan_ok (hid : id.toNat ≤ 253) (offset length : Byte) :
    readPlan codes id offset length = .await [.tx (frame id codes.read [offset, length])] := by
  rw [readPlan, if_neg (ne_broadcastId hid)]
  exact exchangePlan_ok codes (.cmd .read) (by omega) (by simp [readParams])

theorem answeredPlan_device (hid : id.toNat ≤ 253) (hps : ps.length ≤ 253) :
    answeredPlan codes id c ps = .await [.tx (frame id (commandByte codes c) ps)] := by
  rw [answeredPlan, if_neg (ne_broadcastId hid)]
  exact exchangePlan_ok codes c (by omega) hps

theorem answeredPlan_broadcast (hps : ps.length ≤ 253) :
    answeredPlan codes broadcastId c ps =
      .finish [.tx (frame broadcastId (commandByte codes c) ps)] (.returned .unit) := by
  rw [answeredPlan, if_pos rfl]
  exact sendPlan_ok codes c (by decide) hps

theorem answeredPlan_long (hid : id.toNat ≤ 254) (hps : 253 < ps.length) :
    answeredPlan codes id c ps = .refuse .buildTooManyParams := by
  unfold answeredPlan
  split_ifs
  · exact withFrame_long codes c hid hps _
  · exact withFrame_long codes c hid hps _

end Lawful

/-! ### SYNC_WRITE -/

theorem lengthsAgree_iff {ids : List Byte} {values : List (List Byte)} :
    lengthsAgree ids values = true ↔ values.length = ids.length ∧ ∀ v ∈ values, v.length = (values.headD []).length := by
  rw [lengthsAgree, Bool.and_eq_true, beq_iff_eq, sameLengths_iff]

/-- The lengths agree where all value lists have one length. -/
theorem lengthsAgree_of_forall {ids : List Byte} {values : List (List Byte)} {L : Nat} (hn : values.length = ids.length)
    (h : ∀ v ∈ values, v.length = L) : lengthsAgree ids values = true := by
  refine lengthsAgree_iff.2 ⟨hn, fun v hv => ?_⟩
  rw [h v hv, headD_length (List.ne_nil_of_mem hv) h]

/-- The device parts, paired (R171). -/
theorem syncBody_eq_flatMap : ∀ (ids : List Byte) (values : List (List Byte)),
    syncBody ids values = (ids.zip values).flatMap fun x => x.1 :: x.2
  | [], _ => by simp [syncBody]
  | _ :: _, [] => by simp [syncBody]
  | id :: ids, v :: values => by simp [syncBody, syncBody_eq_flatMap ids values]

/-- The device parts of blocks (R67). -/
theorem syncBody_blocks (blocks : List DeviceBlock) :
    syncBody (blocks.map (·.id)) (blocks.map (·.values)) = blocks.flatMap fun b => b.id :: b.values := by
  induction blocks with
  | nil => rfl
  | cons b bs ih => simp [syncBody, ih]

/-- A SYNC_WRITE transmits the parameters its blocks are encoded as (R67). -/
theorem syncParams_blocks (offset : Byte) (blocks : List DeviceBlock) :
    syncParams (blocks.map (·.id)) offset (blocks.map (·.values)) = encodeBlocks offset blocks := by
  rw [syncParams, syncBody_blocks, encodeBlocks]
  cases blocks <;> rfl

theorem syncParams_length (offset : Byte) : ∀ {ids : List Byte} {values : List (List Byte)},
    values.length = ids.length → (syncParams ids offset values).length = syncParamCount values
  | [], [], _ => rfl
  | id :: ids, v :: values, h => by
    have ih := syncParams_length offset (Nat.succ.inj h)
    simp only [syncParams, syncParamCount, syncBody, List.length_append, List.length_cons, List.length_nil, List.map_cons,
      List.sum_cons] at ih ⊢
    omega

theorem syncWritePlan_ok (codes : CmdCodes) {ids : List Byte} (offset : Byte) {values : List (List Byte)}
    (ha : lengthsAgree ids values = true) (hne : ids ≠ []) (hc : syncParamCount values ≤ 253) :
    syncWritePlan codes ids offset values =
      .finish [.tx (frame broadcastId codes.syncWrite (syncParams ids offset values))] (.returned .unit) := by
  rw [syncWritePlan, if_pos ha, if_neg hne]
  exact sendPlan_ok codes (.cmd .syncWrite) (by decide) (by rwa [syncParams_length offset (lengthsAgree_iff.1 ha).1])

/-! ### Which plans are refused -/

def Plan.refuses : Plan → Bool
  | .refuse _ => true
  | .parse _ _ => false
  | .finish _ _ => false
  | .await _ => false
  | .scan _ _ => false

theorem refuses_iff {p : Plan} : p.refuses = true ↔ ∃ r, p = .refuse r := by
  cases p <;> simp [Plan.refuses]

section Refuses
variable (codes : CmdCodes) (id : Byte) (c : CommandArg) (ps : List Byte)

theorem withFrame_refuses {k : List Byte → Plan} (hk : ∀ f, (k f).refuses = false) :
    (withFrame codes id c ps k).refuses = !(builderId id && decide (ps.length ≤ maxParams)) := by
  unfold withFrame buildFrame
  cases builderId id
  · rfl
  · by_cases h : ps.length ≤ maxParams
    · simp [h, hk]
    · simp [h, Plan.refuses]

theorem sendPlan_refuses : (sendPlan codes id c ps).refuses = !(builderId id && decide (ps.length ≤ maxParams)) :=
  withFrame_refuses codes id c ps fun _ => rfl

theorem exchangePlan_refuses :
    (exchangePlan codes id c ps).refuses = !(builderId id && decide (ps.length ≤ maxParams)) :=
  withFrame_refuses codes id c ps fun _ => rfl

/-- The IDs of the builder but 254 are those of the devices (R146). -/
theorem deviceId_eq (h : id ≠ broadcastId) : deviceId id = builderId id := by
  have hne : id.toNat ≠ 254 := fun e => h (BitVec.eq_of_toNat_eq e)
  simp only [deviceId, builderId, decide_eq_decide]
  omega

theorem pingPlan_refuses : (pingPlan codes id).refuses = !deviceId id := by
  unfold pingPlan
  split_ifs with h
  · subst h
    rfl
  · rw [exchangePlan_refuses, deviceId_eq id h]
    simp

theorem readPlan_refuses (offset length : Byte) : (readPlan codes id offset length).refuses = !deviceId id := by
  unfold readPlan
  split_ifs with h
  · subst h
    rfl
  · rw [exchangePlan_refuses, deviceId_eq id h]
    simp [readParams]

theorem answeredPlan_refuses :
    (answeredPlan codes id c ps).refuses = !(builderId id && decide (ps.length ≤ maxParams)) := by
  unfold answeredPlan
  split_ifs
  · exact sendPlan_refuses codes id c ps
  · exact exchangePlan_refuses codes id c ps

theorem syncWritePlan_refuses (ids : List Byte) (offset : Byte) (values : List (List Byte)) :
    (syncWritePlan codes ids offset values).refuses =
      !(!lengthsAgree ids values || (!ids.isEmpty && decide (syncParamCount values ≤ maxParams))) := by
  unfold syncWritePlan
  split_ifs with ha hids
  · subst hids
    simp [ha, Plan.refuses]
  · rw [sendPlan_refuses, syncParams_length offset (lengthsAgree_iff.1 ha).1]
    simp [ha, hids, builderId]
  · simp [ha, Plan.refuses]

end Refuses

/-- The offset before the data makes a bound of 252 the builder's bound (R156). -/
theorem writeParams_fit (offset : Byte) (data : List Byte) :
    decide ((writeParams offset data).length ≤ maxParams) = decide (data.length ≤ 252) :=
  decide_eq_decide.2 Nat.succ_le_succ_iff

/-- An operation of the builder or the controller is refused exactly where the spec gives its arguments no meaning (R207). -/
theorem plan_refuses (s : State) {i : Instr} (hi : onParser i = false)
    (hsync : ∀ offset blocks, i ≠ .wireSyncWrite offset blocks) :
    (plan s i).refuses = !i.wellFormed := by
  cases i with
  | wirePing id => exact pingPlan_refuses _ id
  | wireRead id offset length => exact readPlan_refuses _ id offset length
  | wireWrite id offset data => rw [plan, answeredPlan_refuses, writeParams_fit]; rfl
  | wireRegWrite id offset data => rw [plan, answeredPlan_refuses, writeParams_fit]; rfl
  | wireAction => rfl
  | wireReset id => rw [plan, answeredPlan_refuses]; simp [Instr.wellFormed]
  | wireSyncWrite offset blocks => exact absurd rfl (hsync offset blocks)
  | build id c ps => exact withFrame_refuses _ id c ps fun _ => rfl
  | fillAndWritePacket id c data => exact sendPlan_refuses _ id c data
  | readStatusPacket => rfl
  | ping id => exact pingPlan_refuses _ id
  | read id offset length => exact readPlan_refuses _ id offset length
  | write id offset data deferred => rw [plan, answeredPlan_refuses, writeParams_fit]; rfl
  | reset id => rw [plan, answeredPlan_refuses]; simp [Instr.wellFormed]
  | action => rfl
  | syncWrite ids offset values => exact syncWritePlan_refuses _ ids offset values
  | sendPing id => rw [plan, sendPlan_refuses]; simp [Instr.wellFormed]
  | sendRead id offset length => rw [plan, sendPlan_refuses]; simp [Instr.wellFormed, readParams]
  | sendWrite id offset data deferred => rw [plan, sendPlan_refuses, writeParams_fit]; rfl
  | sendReset id => rw [plan, sendPlan_refuses]; simp [Instr.wellFormed]
  | scan startId numIds =>
    by_cases h : 254 < startId + numIds
    · simp [plan, h, Plan.refuses, Instr.wellFormed]
    · simp [plan, h, Plan.refuses, Instr.wellFormed, Nat.not_lt.1 h]
  | _ => cases hi

/-- A well-formed wire instruction transmits its encoding and either ends or awaits its status packet (R50, R67). -/
theorem plan_wire (s : State) {i : Instr} {f : List Byte} (hwf : i.wellFormed = true) (henc : encode s.cfg i = some f) :
    plan s i = .await [.tx f] ∨ plan s i = .finish [.tx f] (.returned .unit) := by
  have answered {id : Byte} (hid : builderId id = true) (c : Command) {ps : List Byte} (hps : ps.length ≤ 253) :
      answeredPlan s.cfg.codes id (.cmd c) ps = .await [.tx (frame id (s.cfg.codes.code c) ps)] ∨
        answeredPlan s.cfg.codes id (.cmd c) ps = .finish [.tx (frame id (s.cfg.codes.code c) ps)] (.returned .unit) := by
    by_cases hb : id = broadcastId
    · subst hb
      exact .inr (answeredPlan_broadcast _ (.cmd c) hps)
    · have hdev : deviceId id = true := (deviceId_eq id hb).trans hid
      exact .inl (answeredPlan_device _ (.cmd c) (of_decide_eq_true hdev) hps)
  have written {id : Byte} {data : List Byte} (h : (builderId id && decide (data.length ≤ 252)) = true) :
      builderId id = true ∧ data.length + 1 ≤ 253 :=
    (Bool.and_eq_true_iff.1 h).imp_right fun h => Nat.succ_le_succ (of_decide_eq_true h)
  cases i with
  | wirePing id =>
    cases henc
    exact .inl (pingPlan_ok _ (of_decide_eq_true hwf))
  | wireRead id offset length =>
    cases henc
    exact .inl (readPlan_ok _ (of_decide_eq_true hwf) offset length)
  | wireWrite id offset data =>
    cases henc
    obtain ⟨hid, hdata⟩ := written hwf
    exact answered hid .write hdata
  | wireRegWrite id offset data =>
    cases henc
    obtain ⟨hid, hdata⟩ := written hwf
    exact answered hid .regWrite hdata
  | wireAction =>
    cases henc
    exact .inr (sendPlan_ok _ (.cmd .action) (by decide) (by simp))
  | wireReset id =>
    cases henc
    exact answered hwf .reset (by simp)
  | wireSyncWrite offset blocks =>
    cases henc
    simp only [Instr.wellFormed, Bool.and_eq_true, decide_eq_true_eq, sameLengths_iff] at hwf
    obtain ⟨⟨hne, hsame⟩, hcount⟩ := hwf
    have hids : blocks.map (·.id) ≠ [] := by
      intro h
      rw [List.map_eq_nil_iff.1 h] at hne
      cases hne
    have hagree : lengthsAgree (blocks.map (·.id)) (blocks.map (·.values)) = true :=
      lengthsAgree_iff.2 ⟨by simp, hsame⟩
    rw [← syncParams_blocks]
    exact .inr (syncWritePlan_ok _ offset hagree hids hcount)
  | _ => cases henc

/-- Settles O37: every instruction is issued in the frame of R140, which a busy controller refuses. -/
theorem busyControllerRefusesEveryOperation : Obligations.BusyControllerRefusesEveryOperation := by
  intro s i h
  rw [exec_eq_issue]
  exact issue_busy i (by tauto) _

/-- Settles O38: the plan is refused exactly for ill-formed arguments, and a plan that is not refused answers a next state. -/
theorem commandsRunExactlyOnMeaningfulArguments : Obligations.CommandsRunExactlyOnMeaningfulArguments := by
  intro s i hidle hi
  constructor
  · intro hwf
    rcases exec_cases hidle i with ⟨r, hr, -⟩ | ⟨t, ht, -⟩
    · exfalso
      by_cases hsync : ∀ offset blocks, i ≠ .wireSyncWrite offset blocks
      · have := plan_refuses s hi hsync
        simp [hr, hwf, Plan.refuses] at this
      · push Not at hsync
        obtain ⟨offset, blocks, rfl⟩ := hsync
        rcases plan_wire s hwf rfl with h | h <;> simp [h] at hr
    · exact ⟨t, ht⟩
  · intro hwf hsync
    have hrefuses : (plan s i).refuses = true := by rw [plan_refuses s hi hsync, hwf]; rfl
    obtain ⟨r, hr⟩ := refuses_iff.1 hrefuses
    exact ⟨r, by rw [exec_eq_run hidle, hr]; rfl⟩

/-! ### Events and results -/

theorem sentWhole_noResult {sent : List Event} (h : SentWhole sent) : ∀ e ∈ sent, noResult e = true := by
  rcases h with rfl | ⟨f, rfl, -⟩ <;> simp [noResult]

theorem received_noResult (l : List RxAnswer) : ∀ e ∈ received l, noResult e = true := by
  simp [received, noResult]

/-- An instruction that answers a next state has ended with its one result as its last event, or is still running with no result
(R205). -/
theorem exec_events {i : Instr} {s t : State} (h : exec i s = .next t) :
    (∃ evs r, t.history = s.history ++ (evs ++ [.result r]) ∧ (∀ e ∈ evs, noResult e = true) ∧ allowedResult i r = true ∧
      t.op = none ∧ t.phase = .idle) ∨
    (∃ evs, t.history = s.history ++ evs ∧ (∀ e ∈ evs, noResult e = true) ∧ t.op = some i ∧ t.phase = .rx ∧ t.rx = []) := by
  obtain ⟨⟨hphase, hop⟩, hissued⟩ := exec_next h
  cases hissued with
  | parsed hi hp ht =>
    subst hi ht
    exact .inl ⟨[], _, rfl, by simp, rfl, hop, hphase⟩
  | finished hsent ha hp hbus ht =>
    subst ht
    exact .inl ⟨_, _, List.append_assoc _ _ _, sentWhole_noResult hsent, ha, hop, hphase⟩
  | emptyScan hi ht =>
    subst hi ht
    exact .inl ⟨[], _, rfl, by simp, rfl, hop, hphase⟩
  | @received k sent u answers evs ho hr hq hleft =>
    have happend {l : List Event} (hl : ∀ e ∈ l, noResult e = true) : ∀ e ∈ sent ++ l, noResult e = true :=
      fun e he => (List.mem_append.1 he).elim (sentWhole_noResult ho.sent e) (hl e)
    rcases hr.ending with ⟨hrun, hno⟩ | ⟨hop', hphase', -, r, evs', rfl, hres, hno, -⟩
    · refine .inr ⟨sent ++ evs, ?_, happend hno, hrun.op, hrun.phase, hleft (by simp [hrun.op])⟩
      rw [hr.history, ho.history, List.append_assoc]
    · refine .inl ⟨sent ++ evs', r, ?_, happend hno, ho.allowed r hres, hop', hphase'⟩
      rw [hr.history, ho.history, List.append_assoc, List.append_assoc]

/-- Settles O39: `exec_events`; the one result of an ended operation is its last event, and a running one has none. -/
theorem outcomesFollowTheTable : Obligations.OutcomesFollowTheTable := by
  intro s t i h
  rcases exec_events h with ⟨evs, r, hevs, hno, ha, hop, -⟩ | ⟨evs, hevs, hno, hop, -, -⟩
  · refine ⟨_, hevs, fun x hx => ?_, by simp [hop]⟩
    rcases List.mem_append.1 hx with hx | hx
    · cases hno _ hx
    · cases List.mem_singleton.1 hx
      exact ha
  · refine ⟨evs, hevs, fun x hx => ?_, by simp [hop], fun ⟨r, hr⟩ => ?_⟩
    · cases hno _ hx
    · cases hno _ (List.mem_of_getLast? hr)

/-- Settles O40: of a receive phase that is no scan's, the events are the answers taken, and a result exactly at its end. -/
theorem eventsAreTransmitReceiveResult : Obligations.EventsAreTransmitReceiveResult := by
  intro s t i hscan h
  obtain ⟨⟨hphase, hop⟩, hissued⟩ := exec_next h
  cases hissued with
  | @parsed b p r hi hp ht =>
    subst ht
    exact ⟨[], [], [.result (.returned (.parse r))], by simp, rfl, .inl rfl, .inr ⟨_, rfl, hop, hphase⟩⟩
  | @finished sent r hsent ha hp hbus ht =>
    subst ht
    exact ⟨sent, [], [.result r], by simp, rfl, hsent.imp id fun ⟨f, hf, _⟩ => ⟨f, hf⟩, .inr ⟨r, rfl, hop, hphase⟩⟩
  | emptyScan hi ht => exact absurd hi (hscan _ _)
  | @received k sent u answers evs ho hr hq hleft =>
    have hsent : sent = [] ∨ ∃ f, sent = [.tx f] := ho.sent.imp id fun ⟨f, hf, _⟩ => ⟨f, hf⟩
    obtain ⟨hk, -⟩ := ho.others hscan
    obtain ⟨-, -, hevs⟩ := hr.others hk
    rcases hr.ending with ⟨hrun, hno⟩ | ⟨hop', hphase', -, r, evs', he, -, -⟩
    · obtain rfl : evs = Machine.received answers := hevs.resolve_right fun ⟨r, hx⟩ => by
        cases hno (.result r) (by simp [hx])
      exact ⟨sent, answers, [], by rw [hr.history, ho.history]; simp, hq, hsent,
        .inl ⟨rfl, hrun.op, hrun.phase, hleft (by simp [hrun.op])⟩⟩
    · obtain ⟨x, hx⟩ : ∃ x, evs = Machine.received answers ++ [.result x] := hevs.resolve_left fun hx => by
        cases received_noResult answers (.result r) (by rw [← hx, he]; simp)
      exact ⟨sent, answers, [.result x], by rw [hr.history, ho.history, hx]; simp, hq, hsent, .inr ⟨x, rfl, hop', hphase'⟩⟩

/-- The operation that awaits the Packet itself is `read_status_packet` (R142). -/
theorem eq_readStatusPacket {i : Instr} (h : replyOf i = some .packet) : i = .readStatusPacket := by
  cases i <;> simp [replyOf] at h ⊢

/-- A result that gives the host a Packet ends a receive phase for the Packet itself. -/
theorem reply_of_packet {k : Reply} {r : OpResult} {p : Packet} (h : replyResult k r = true) (hp : r.packet = some p) :
    k = .packet ∧ r = .returned (.packet p) := by
  cases r with
  | raised e => cases hp
  | returned v =>
    cases v <;> simp only [OpResult.packet, Option.some.injEq, reduceCtorEq] at hp
    subst hp
    cases k <;> simp_all [replyResult, kindOf]

/-- Settles O41, one clause at a time for each of the next states an instruction can answer. -/
theorem instructionsLeaveTheRestAlone : Obligations.InstructionsLeaveTheRestAlone := by
  intro s t i h
  obtain ⟨hg, hrxs⟩ := exec_grows h
  obtain ⟨⟨hphase, hop⟩, hissued⟩ := exec_next h
  obtain ⟨evs₀, hevs₀, -⟩ := hg.history
  have hgrown : s.history <+: t.history := ⟨evs₀, hevs₀.symm⟩
  cases hissued with
  | @parsed b p r hi hp ht =>
    subst hi ht
    exact ⟨rfl, rfl, rfl, hgrown, hrxs, fun _ => ⟨rfl, rfl, rfl⟩, fun h => absurd rfl (h b), fun _ => ⟨rfl, rfl⟩,
      fun _ => .inl rfl, fun _ h => absurd rfl (h b), .inr (.inl rfl), .inl ⟨hphase, hop⟩, by simp⟩
  | finished hsent ha hp hbus ht =>
    subst ht
    exact ⟨rfl, rfl, rfl, hgrown, hrxs, fun _ => ⟨rfl, rfl, rfl⟩, fun _ => rfl, fun _ => ⟨rfl, rfl⟩,
      fun _ => .inl rfl, fun _ _ => rfl, .inl rfl, .inl ⟨hphase, hop⟩, fun e he => absurd (by simpa using he) (hbus e)⟩
  | @emptyScan a hi ht =>
    subst hi ht
    exact ⟨rfl, rfl, rfl, hgrown, hrxs, fun h => absurd rfl (h a 0), fun _ => rfl, fun _ => ⟨rfl, rfl⟩,
      fun _ => .inl rfl, fun _ _ => rfl, .inl rfl, .inl ⟨hphase, hop⟩, by simp⟩
  | @received k sent u answers evs ho hr hq hleft =>
    have hreply : replyOf i ≠ none := by simp [ho.running.reply]
    have hscan (hi : ∀ a n, i ≠ .scan a n) : t.cur = s.cur ∧ t.stop = s.stop ∧ t.found = s.found := by
      obtain ⟨hk, hcur, hstop, hfound⟩ := ho.others hi
      obtain ⟨hcur', hfound', -⟩ := hr.others hk
      exact ⟨hcur'.trans hcur, hr.stop.trans hstop, hfound'.trans hfound⟩
    refine ⟨hg.cfg, hg.program, hr.draws.trans ho.draws, hgrown, hrxs, hscan, fun _ => hr.parser.trans ho.parser,
      fun h => absurd h hreply, ?_, fun h => absurd h hreply, ?_⟩
    all_goals rcases hr.ending with ⟨hrun, hno⟩ | ⟨hop', hphase', hfresh, r, evs', he, hres, -, hpk, -⟩
    · simp [hrun.op]
    · exact fun _ => .inr (fresh_iff.1 hfresh)
    · refine ⟨.inr (.inl hrun.packet), .inr ⟨hrun.phase, hrun.op, hleft (by simp [hrun.op])⟩, fun e hlast hne => ?_⟩
      have hhist : t.history = s.history ++ (sent ++ evs) := by rw [hr.history, ho.history, List.append_assoc]
      have hnew : sent ++ evs ≠ [] := fun h0 => hne (by rw [hhist, h0, List.append_nil])
      rw [hhist, List.getLast?_append_of_ne_nil _ hnew] at hlast
      rcases List.mem_append.1 (List.mem_of_getLast? hlast) with hm | hm
      · cases sentWhole_noResult ho.sent _ hm
      · cases hno _ hm
    · refine ⟨?_, .inl ⟨hphase', hop'⟩, fun _ _ _ => fresh_iff.1 hfresh⟩
      cases hp : r.packet with
      | none => exact .inr (.inl (hpk.trans hp))
      | some p =>
        obtain ⟨rfl, rfl⟩ := reply_of_packet hres hp
        exact .inr (.inr ⟨eq_readStatusPacket ho.running.reply, p, hpk.trans hp, by rw [hr.history, he]; simp⟩)

end Sys2Proof.Machine
end

section
/-! PROOFS. What an operation depends on (spec/10_state.md R32, R34, spec/42_bus_primitives.md R140, R142): its own frame on the
wire, answers in parts, and no register of an earlier operation. -/

namespace Sys2Proof.Machine

open Sys2Proof

/-- Settles O36: the plan of a well-formed wire instruction starts with its encoding, and its receive phase, which is no scan's,
transmits nothing. -/
theorem wireInstructionTransmitsItsEncoding : Obligations.WireInstructionTransmitsItsEncoding := by
  intro s t i f hwf henc h
  obtain ⟨hidle, -⟩ := exec_eq_next.1 h
  have hfits := plan_fits s i
  rw [exec_eq_run hidle] at h
  rcases plan_wire s hwf henc with hplan | hplan <;> rw [hplan] at h hfits
  · obtain ⟨hsent, k, hk, hne, ha⟩ := hfits
    have ho := awaiting_opened s hsent hk hne ha
    obtain ⟨u, answers, evs, hu, hr, -⟩ := drainQueue_received (s.awaiting i [.tx f]).rx ho.running
    obtain rfl : u = t := Host.Outcome.next.inj (hu.symm.trans h)
    exact ⟨evs, by rw [hr.history, ho.history]; simp, fun g hg => hne (hr.sent g hg).1⟩
  · cases h
    exact ⟨[.result (.returned .unit)], by simp, by simp⟩

/-! ### Answers in parts -/

/-- The receive loop on two parts of a queue is the loop on the first, then on what it left and the second (R142). -/
theorem drainQueue_parts (a b : List RxAnswer) (s : State) :
    drainQueue (a ++ b) s = andThen (drainQueue a s) fun t => drain { t with rx := t.rx ++ b } := by
  rw [drainQueue_append]
  congr 1
  funext t
  exact (drainQueue_rx _ _ t).symm

theorem plan_rx (x : List RxAnswer) (s : State) (i : Instr) : plan { s with rx := x } i = plan s i := by
  cases i <;> rfl

/-- A receive phase starts the same with any queue. -/
theorem run_await_rx (x : List RxAnswer) (i : Instr) (s : State) (sent : List Event) :
    (Plan.await sent).run i { s with rx := x } = drainQueue x (s.awaiting i sent) :=
  drainQueue_rx x x (s.awaiting i sent)

/-- A scan starts the same with any queue. -/
theorem run_scan_rx (x : List RxAnswer) (i : Instr) (s : State) (a n : Nat) :
    (Plan.scan a n).run i { s with rx := x } = andThen (scanNext (s.scanning i a n)) (drainQueue x) := by
  show andThen (scanNext { s.scanning i a n with rx := x }) drain = _
  rw [scanNext_rx, withRx, andThen_assoc]
  congr 1
  funext t
  exact drainQueue_rx x x t

/-- Settles O43: an operation with no receive phase leaves the queue; one with a receive phase runs the receive loop on it, which
takes it in parts (`drainQueue_parts`). -/
theorem answersMayArriveInParts : Obligations.AnswersMayArriveInParts := by
  intro s i a b
  by_cases hidle : s.Idle
  · have hleft (t : State) (ht : t.op = none) (x : List RxAnswer) : drain { t with rx := x } = .next { t with rx := x } :=
      drainQueue_ended (by exact ht) x
    rw [exec_eq_run (s := { s with rx := a ++ b }) hidle, exec_eq_run (s := { s with rx := a }) hidle,
      plan_rx (a ++ b), plan_rx a]
    cases plan s i with
    | refuse r => rfl
    | parse p r =>
      exact (hleft { s with parser := p, packet := none, history := s.history ++ [.result (.returned (.parse r))] }
        hidle.2 (a ++ b)).symm
    | finish sent r =>
      exact (hleft { s with history := s.history ++ sent ++ [.result r] } hidle.2 (a ++ b)).symm
    | await sent =>
      rw [run_await_rx, run_await_rx, drainQueue_parts]
    | scan c n =>
      rw [run_scan_rx, run_scan_rx, andThen_assoc]
      congr 1
      funext t
      exact drainQueue_parts a b t
  · rw [exec_eq_issue, exec_eq_issue, issue_busy i (by exact hidle), issue_busy i (by exact hidle)]
    rfl

/-! ### Two runs from different leftovers -/

/-- Seen from outside, `s` and `t` have gone the same way from the histories `h₁` and `h₂`. -/
structure SameSoFar (h₁ h₂ : List Event) (s t : State) : Prop where
  cfg : s.cfg = t.cfg
  phase : s.phase = t.phase
  op : s.op = t.op
  rx : s.rx = t.rx
  history : ∃ evs, s.history = h₁ ++ evs ∧ t.history = h₂ ++ evs

/-- And they will go on the same way: a running operation has alike registers in `C.P`, a running scan the same registers. -/
structure Twin (h₁ h₂ : List Event) (s t : State) : Prop extends SameSoFar h₁ h₂ s t where
  rxParser : s.op ≠ none → s.rxParser.Alike t.rxParser
  scan : ∀ i, s.op = some i → replyOf i = some .scan → s.cur = t.cur ∧ s.stop = t.stop ∧ s.found = t.found

/-- Two outcomes that go on the same way. -/
inductive Matched (h₁ h₂ : List Event) : Result → Result → Prop
  | next {s t : State} (h : Twin h₁ h₂ s t) : Matched h₁ h₂ (.next s) (.next t)
  | fault (r : Fault) : Matched h₁ h₂ (.fault r) (.fault r)
  | refused (r : Refusal) : Matched h₁ h₂ (.refused r) (.refused r)

theorem Matched.sameOutcome {s t : State} {o p : Result} (h : Matched s.history t.history o p) : sameOutcome s t o p := by
  cases h with
  | next h => exact ⟨h.history, h.rx, h.phase, h.op⟩
  | fault r => rfl
  | refused r => rfl

section
variable {h₁ h₂ : List Event} {s t : State}

theorem Matched.andThen {o p : Result} {f g : State → Result} (h : Matched h₁ h₂ o p)
    (hfg : ∀ s t, Twin h₁ h₂ s t → Matched h₁ h₂ (f s) (g t)) : Matched h₁ h₂ (andThen o f) (andThen p g) := by
  cases h with
  | next h => exact hfg _ _ h
  | fault r => exact .fault r
  | refused r => exact .refused r

/-- States that have ended an operation go on the same way. -/
theorem SameSoFar.twin (h : SameSoFar h₁ h₂ s t) (hop : s.op = none) : Twin h₁ h₂ s t :=
  { h with
    rxParser := fun hne => absurd hop hne
    scan := fun i hi => by rw [hop] at hi; cases hi }

theorem SameSoFar.history_append (h : SameSoFar h₁ h₂ s t) (l : List Event) :
    ∃ evs, s.history ++ l = h₁ ++ evs ∧ t.history ++ l = h₂ ++ evs := by
  obtain ⟨evs, hs, ht⟩ := h.history
  exact ⟨evs ++ l, by rw [hs, List.append_assoc], by rw [ht, List.append_assoc]⟩

theorem complete_matched (h : SameSoFar h₁ h₂ s t) (v : Value) : Matched h₁ h₂ (complete v s) (complete v t) :=
  .next (SameSoFar.twin ⟨h.cfg, rfl, rfl, h.rx, h.history_append _⟩ rfl)

theorem raiseError_matched (h : SameSoFar h₁ h₂ s t) (e : OpError) : Matched h₁ h₂ (raiseError e s) (raiseError e t) :=
  .next (SameSoFar.twin ⟨h.cfg, rfl, rfl, h.rx, h.history_append _⟩ rfl)

/-- The head of scan's loop reads its own three registers only (R174). -/
theorem scanNext_matched (h : SameSoFar h₁ h₂ s t) (hcur : s.cur = t.cur) (hstop : s.stop = t.stop)
    (hfound : s.found = t.found) : Matched h₁ h₂ (scanNext s) (scanNext t) := by
  unfold scanNext
  rw [← hcur, ← hstop, ← hfound]
  split_ifs with hlt hbeyond
  · exact .refused _
  · have hid : (BitVec.ofNat 8 s.cur).toNat ≤ 254 := by
      simp
      omega
    rw [transmit_ok _ s hid (by simp), transmit_ok _ t hid (by simp)]
    refine .next ⟨⟨h.cfg, rfl, h.op, h.rx, ?_⟩, fun _ => alike_reset _ _, fun _ _ _ => ⟨hcur, hstop, hfound⟩⟩
    simp only [startReceive_history, h.cfg]
    exact h.history_append _
  · exact complete_matched h _

/-- A command makes the same of alike packets (R143). -/
theorem checked_matched (h : SameSoFar h₁ h₂ s t) {p q : Parser} (hpq : p.packet = q.packet) {o o' : Result}
    (ho : Matched h₁ h₂ o o') :
    Matched h₁ h₂ (if isDeviceError p.err then raiseError (deviceError p.err) s else o)
      (if isDeviceError q.err then raiseError (deviceError q.err) t else o') := by
  have herr : p.err = q.err := congrArg Packet.error hpq
  rw [← herr]
  split_ifs
  · exact raiseError_matched h _
  · exact ho

/-- The end of a receive phase reads the Packet of `C.P` and scan's registers only. -/
theorem settle_matched (h : SameSoFar h₁ h₂ s t) {k : Reply}
    (hscan : k = .scan → s.cur = t.cur ∧ s.stop = t.stop ∧ s.found = t.found) (v : Verdict) {p q : Parser}
    (hpq : v = .good → p.packet = q.packet) : Matched h₁ h₂ (settle k v p s) (settle k v q t) := by
  cases v with
  | checksum => exact raiseError_matched h _
  | timeout =>
    cases k with
    | packet => exact raiseError_matched h _
    | presence => exact complete_matched h _
    | data => exact raiseError_matched h _
    | ack => exact raiseError_matched h _
    | scan =>
      obtain ⟨hcur, hstop, hfound⟩ := hscan rfl
      simp only [settle, settleTimeout, scanMissing]
      rw [← hcur]
      exact scanNext_matched ⟨h.cfg, rfl, h.op, h.rx, h.history_append _⟩ rfl hstop hfound
  | good =>
    have hpacket := hpq rfl
    have hbuf : p.buf = q.buf := congrArg Packet.params hpacket
    cases k with
    | packet =>
      simp only [settle, settleGood, hpacket]
      refine complete_matched ?_ _
      exact ⟨h.cfg, h.phase, h.op, h.rx, h.history⟩
    | presence => exact checked_matched h hpacket (complete_matched h _)
    | data =>
      simp only [settle, settleGood, ← hbuf]
      exact checked_matched h hpacket (complete_matched h _)
    | ack => exact checked_matched h hpacket (complete_matched h _)
    | scan =>
      obtain ⟨hcur, hstop, hfound⟩ := hscan rfl
      simp only [settle, settleGood, scanFound]
      rw [← hcur]
      exact checked_matched h hpacket
        (scanNext_matched ⟨h.cfg, rfl, h.op, h.rx, h.history_append _⟩ rfl hstop rfl)

theorem endReceive_matched (h : Twin h₁ h₂ s t) (v : Verdict)
    (hv : v = .good → s.rxParser.packet = t.rxParser.packet) : Matched h₁ h₂ (endReceive v s) (endReceive v t) := by
  unfold endReceive
  rw [← h.op]
  cases hop : s.op with
  | none => exact .fault _
  | some i =>
    cases hk : replyOf i with
    | none => simpa only [hk] using Matched.fault _
    | some k =>
      simp only [hk]
      refine settle_matched ?same ?scan v hv
      case same => exact ⟨h.cfg, h.phase, rfl, h.rx, h.history⟩
      case scan => exact fun hs => h.scan i hop (hs ▸ hk)

/-- One receive event of twin states. -/
theorem receive_matched (h : Twin h₁ h₂ s t) (hop : s.op ≠ none) (a : RxAnswer) :
    Matched h₁ h₂ (receive a s) (receive a t) := by
  have hnext {p q : Parser} (hpq : p.Alike q) :
      Twin h₁ h₂ { s.record (.rx a) with rxParser := p } { t.record (.rx a) with rxParser := q } :=
    ⟨⟨h.cfg, h.phase, h.op, h.rx, h.history_append _⟩, fun _ => hpq, h.scan⟩
  cases a with
  | timeout => exact endReceive_matched (hnext (h.rxParser hop)) .timeout nofun
  | byte b =>
    rcases processByte_alike s.cfg.shortLen (h.rxParser hop) b with ⟨hs, ht⟩ | ⟨p, q, r, hs, ht, hpq⟩
    · rw [h.cfg] at ht
      simp only [receive, hs, ht]
      exact .refused _
    · have hdone := processByte_result hs
      rw [h.cfg] at ht
      cases r with
      | notDone =>
        rw [receive_notDone hs, receive_notDone ht]
        exact .next (hnext hpq)
      | none =>
        rw [receive_good hs, receive_good ht]
        exact endReceive_matched (hnext hpq) .good fun _ => hpq.packet (by simpa using hdone)
      | checksum =>
        rw [receive_checksum hs, receive_checksum ht]
        exact endReceive_matched (hnext hpq) .checksum nofun

/-- The receive loop of twin states on one queue. -/
theorem drainQueue_matched (q : List RxAnswer) : ∀ {s t : State}, Twin h₁ h₂ s t →
    Matched h₁ h₂ (drainQueue q s) (drainQueue q t) := by
  have hleft {s t : State} (h : Twin h₁ h₂ s t) (x : List RxAnswer) :
      Matched h₁ h₂ (.next { s with rx := x }) (.next { t with rx := x }) :=
    .next ⟨⟨h.cfg, h.phase, h.op, rfl, h.history⟩, h.rxParser, h.scan⟩
  induction q with
  | nil => exact fun h => hleft h []
  | cons a q ih =>
    intro s t h
    cases hop : s.op with
    | none =>
      rw [drainQueue_ended hop, drainQueue_ended (h.op ▸ hop)]
      exact hleft h _
    | some i =>
      rw [drainQueue_cons hop, drainQueue_cons (h.op ▸ hop)]
      exact (receive_matched h (by simp [hop]) a).andThen fun _ _ => ih

theorem drain_matched (h : Twin h₁ h₂ s t) : Matched h₁ h₂ (drain s) (drain t) := by
  unfold drain
  rw [← h.rx]
  exact drainQueue_matched s.rx h

end

/-- The plan of an operation of the builder or the controller depends on its arguments and the parameters (R140). -/
theorem plan_congr_cfg {s t : State} {i : Instr} (hi : onParser i = false) (hcfg : s.cfg = t.cfg) : plan s i = plan t i := by
  cases i with
  | processByte b => cases hi
  | devId => cases hi
  | paramLen => cases hi
  | paramByte k => cases hi
  | params => cases hi
  | errorCode => cases hi
  | errorCodeStr => cases hi
  | _ => simp only [plan, hcfg]

/-- Settles O42: one plan, run from two idle states: `C.P` is reset and scan's registers are written before they are read. -/
theorem outcomeDependsOnlyOnArgumentsAndAnswers : Obligations.OutcomeDependsOnlyOnArgumentsAndAnswers := by
  intro s t i hs ht hi hcfg hrx
  apply Matched.sameOutcome
  have hsame : SameSoFar s.history t.history s t :=
    ⟨hcfg, hs.1.trans ht.1.symm, hs.2.trans ht.2.symm, hrx, [], by simp, by simp⟩
  have hfits := plan_fits s i
  rw [exec_eq_run hs, exec_eq_run ht, ← plan_congr_cfg hi hcfg]
  cases hplan : plan s i with
  | refuse r => exact .refused r
  | parse p r =>
    rw [hplan] at hfits
    obtain ⟨b, rfl, -⟩ := hfits
    cases hi
  | finish sent r =>
    refine .next (SameSoFar.twin ⟨hcfg, hsame.phase, hsame.op, hrx, ?_⟩ hs.2)
    simpa only [List.append_assoc] using hsame.history_append (sent ++ [.result r])
  | await sent =>
    rw [hplan] at hfits
    obtain ⟨-, k, hk, hne, -⟩ := hfits
    refine drain_matched ⟨⟨hcfg, rfl, rfl, hrx, hsame.history_append _⟩, fun _ => alike_reset _ _, fun j hj hreply => ?_⟩
    cases hj
    exact absurd (Option.some.inj (hk.symm.trans hreply)) hne
  | scan a n =>
    have hstart : SameSoFar s.history t.history (s.scanning i a n) (t.scanning i a n) :=
      ⟨hcfg, hsame.phase, rfl, hrx, hsame.history⟩
    exact (scanNext_matched hstart rfl rfl rfl).andThen fun _ _ => drain_matched

/-! ### Nothing of an exchange is visible after it -/

/-- `process_byte` and the accessors read the parameters, the host's parser and the Packet it holds, and nothing else. -/
theorem plan_congr_parser {s t : State} {j : Instr} (hj : onParser j = true) (hcfg : s.cfg = t.cfg)
    (hparser : s.parser = t.parser) (hpacket : s.packet = t.packet) : plan s j = plan t j := by
  cases j with
  | processByte b => simp only [plan, processBytePlan, hcfg, hparser]
  | devId => simp only [plan, State.readable, hparser, hpacket]
  | paramLen => simp only [plan, State.readable, hparser, hpacket]
  | paramByte k => simp only [plan, State.readable, hparser, hpacket]
  | params => simp only [plan, State.readable, hparser, hpacket]
  | errorCode => simp only [plan, State.readable, hparser, hpacket]
  | errorCodeStr => simp only [plan, State.readable, hcfg, hparser, hpacket]
  | _ => cases hj

/-- The accessors end at once with a value, `process_byte` with its parse result, or they are refused. -/
theorem accessorPlan_cases (k : Option Packet) (v : Packet → Option Value) :
    (∃ r, accessorPlan k v = .refuse r) ∨ ∃ x, accessorPlan k v = .finish [] (.returned x) := by
  unfold accessorPlan
  cases k with
  | none => exact .inl ⟨_, rfl⟩
  | some p =>
    cases hv : v p with
    | none => exact .inl ⟨.paramByteRange, by simp only [hv]⟩
    | some x => exact .inr ⟨x, by simp only [hv]⟩

theorem plan_onParser (s : State) {j : Instr} (hj : onParser j = true) :
    (∃ r, plan s j = .refuse r) ∨ (∃ p r, plan s j = .parse p r) ∨ ∃ x, plan s j = .finish [] (.returned x) := by
  cases j with
  | processByte b =>
    simp only [plan, processBytePlan]
    cases processByte s.cfg.shortLen s.parser b with
    | none => exact .inl ⟨_, rfl⟩
    | some pr => exact .inr (.inl ⟨_, _, rfl⟩)
  | devId => exact (accessorPlan_cases s.readable fun k => some (.byte k.id)).imp_right .inr
  | paramLen => exact (accessorPlan_cases s.readable fun k => some (.count k.params.length)).imp_right .inr
  | paramByte i => exact (accessorPlan_cases s.readable fun k => k.params[i]?.map .byte).imp_right .inr
  | params => exact (accessorPlan_cases s.readable fun k => some (.bytes k.params)).imp_right .inr
  | errorCode => exact (accessorPlan_cases s.readable fun k => some (.byte k.error)).imp_right .inr
  | errorCodeStr => exact (accessorPlan_cases s.readable fun k => some (.text (errorText s.cfg.bits k.error))).imp_right .inr
  | _ => cases hj

/-- `process_byte` and the accessors are refused alike in two idle states that agree on what they read, or return alike. -/
theorem exec_onParser_alike {s t : State} {j : Instr} (hs : s.Idle) (ht : t.Idle) (hj : onParser j = true)
    (hcfg : s.cfg = t.cfg) (hparser : s.parser = t.parser) (hpacket : s.packet = t.packet) :
    (∃ r, exec j s = .refused r ∧ exec j t = .refused r) ∨
    ∃ r u v, exec j s = .next u ∧ exec j t = .next v ∧
      u.history = s.history ++ [.result r] ∧ v.history = t.history ++ [.result r] := by
  rw [exec_eq_run hs, exec_eq_run ht, ← plan_congr_parser hj hcfg hparser hpacket]
  rcases plan_onParser s hj with ⟨r, hplan⟩ | ⟨p, r, hplan⟩ | ⟨x, hplan⟩ <;> rw [hplan]
  · exact .inl ⟨r, rfl, rfl⟩
  · exact .inr ⟨_, _, _, rfl, rfl, rfl, rfl⟩
  · exact .inr ⟨.returned x, _, _, rfl, rfl, by simp, by simp⟩

/-- Settles O59: what `process_byte` and the accessors read is as it was before the operation
(`instructionsLeaveTheRestAlone`). -/
theorem nothingOfAnExchangeIsVisibleAfterIt : Obligations.NothingOfAnExchangeIsVisibleAfterIt := by
  intro s t i j hi hread hj hnone h hop
  obtain ⟨hidle, -⟩ := exec_eq_next.1 h
  obtain ⟨hcfg, -, -, -, -, -, hparser, -, -, -, hpacket, hends, -⟩ := instructionsLeaveTheRestAlone s t i h
  have hi' (b : Byte) : i ≠ .processByte b := by
    rintro rfl
    cases hi
  have htidle : t.Idle := by
    rcases hends with hidle' | ⟨-, hop', -⟩
    · exact hidle'
    · rw [hop] at hop'
      cases hop'
  have hpacket' : t.packet = none := by
    rcases hpacket with he | he | ⟨he, -⟩
    · exact he.trans hnone
    · exact he
    · exact absurd he hread
  rcases exec_onParser_alike hidle htidle hj hcfg.symm (hparser hi').symm (hnone.trans hpacket'.symm) with
    ⟨r, hr, hr'⟩ | ⟨r, u, v, hu, hv, hhu, hhv⟩
  · simp [hr, hr']
  · simp [hu, hv, hhu, hhv]

end Sys2Proof.Machine
end

section
/-! PROOFS. The operations with no receive phase (spec/40_parser.md R106 to R113, spec/41_builder.md R120,
spec/42_bus_primitives.md R141, R146, spec/43_bus_broadcast_scan.md R170 to R176): each statement reads a plan and runs it. -/

namespace Sys2Proof.Machine

open Sys2Proof

section Run
variable {s : State} {i : Instr} (h : s.Idle)
include h

theorem exec_refuse {r : Refusal} (hplan : plan s i = .refuse r) : exec i s = .refused r := by
  rw [exec_eq_run h, hplan, Plan.run]

theorem exec_finish {sent : List Event} {r : OpResult} (hplan : plan s i = .finish sent r) :
    exec i s = .next { s with history := s.history ++ (sent ++ [.result r]) } := by
  rw [exec_eq_run h, hplan, Plan.run, List.append_assoc]

end Run

/-! ### The accessors -/

section Accessors
variable {s : State} {k : Packet}

/-- `param_byte` of a parameter that is there (R109). -/
theorem exec_paramByte (h : s.Idle) (hk : s.readable = some k) {i : Nat} (hi : i < k.params.length) :
    exec (.paramByte i) s = .next { s with history := s.history ++ [.result (.returned (.byte k.params[i]))] } := by
  have hplan : plan s (.paramByte i) = .finish [] (.returned (.byte k.params[i])) := by
    simp only [plan, accessorPlan, hk, List.getElem?_eq_getElem hi, Option.map_some]
  exact exec_finish h hplan

/-- `param_byte` beyond the last parameter (R109, D10). -/
theorem exec_paramByte_range (h : s.Idle) (hk : s.readable = some k) {i : Nat} (hi : k.params.length ≤ i) :
    exec (.paramByte i) s = .refused .paramByteRange := by
  refine exec_refuse h ?_
  simp only [plan, accessorPlan, hk, List.getElem?_eq_none hi, Option.map_none]

/-- With nothing to read every accessor is refused (R106, D10). -/
theorem plan_unreadable {i : Instr} (hk : s.readable = none) (hi : onParser i = true) (hne : ∀ b, i ≠ .processByte b) :
    plan s i = .refuse .accessorNotDone := by
  cases i with
  | processByte b => exact absurd rfl (hne b)
  | devId => simp only [plan, accessorPlan, hk]
  | paramLen => simp only [plan, accessorPlan, hk]
  | paramByte k => simp only [plan, accessorPlan, hk]
  | params => simp only [plan, accessorPlan, hk]
  | errorCode => simp only [plan, accessorPlan, hk]
  | errorCodeStr => simp only [plan, accessorPlan, hk]
  | _ => cases hi

/-- `error_code_str` is the text of the mask (R113). -/
theorem exec_errorCodeStr (h : s.Idle) (hk : s.readable = some k) :
    exec .errorCodeStr s = .next { s with
      history := s.history ++ [.result (.returned (.text (errorText s.cfg.bits k.error)))] } :=
  exec_finish h (sent := []) (by simp only [plan, accessorPlan, hk])

end Accessors

/-- Settles O13: the packet read is that of the parser's registers. -/
theorem idCountAndParameterAreReturned : Obligations.IdCountAndParameterAreReturned := by
  intro s hidle hk hd
  have hread : s.readable = some s.parser.packet := readable_done hk hd
  refine ⟨?id, ?count, ?inRange, ?beyond⟩
  case id => exact exec_accessor hidle (v := fun k => .byte k.id) (fun _ => rfl) hread
  case count => exact exec_accessor hidle (v := fun k => .count k.params.length) (fun _ => rfl) hread
  case inRange => exact fun i hi => exec_paramByte hidle hread hi
  case beyond => exact fun i hi => exec_paramByte_range hidle hread hi

/-- Settles O57: the packet read is the one the host holds. -/
theorem accessorsReadTheReturnedPacket : Obligations.AccessorsReadTheReturnedPacket := by
  intro s k hidle hk
  have hread : s.readable = some k := readable_held hk
  refine ⟨?id, ?count, ?inRange, ?beyond, ?params, ?mask, ?text⟩
  case id => exact exec_accessor hidle (v := fun k => .byte k.id) (fun _ => rfl) hread
  case count => exact exec_accessor hidle (v := fun k => .count k.params.length) (fun _ => rfl) hread
  case inRange => exact fun i hi => exec_paramByte hidle hread hi
  case beyond => exact fun i hi => exec_paramByte_range hidle hread hi
  case params => exact exec_accessor hidle (v := fun k => .bytes k.params) (fun _ => rfl) hread
  case mask => exact exec_accessor hidle (v := fun k => .byte k.error) (fun _ => rfl) hread
  case text => exact exec_errorCodeStr hidle hread

/-- Settles O14: an accessor's plan is refused or returns, and it is the same plan where only the history has changed. -/
theorem accessorsNeedDoneAndWriteNothing : Obligations.AccessorsNeedDoneAndWriteNothing := by
  intro s i hidle hi hne
  constructor
  · intro hk hd
    have hread : s.readable = none := by rw [readable_parser hk, if_neg hd]
    exact exec_refuse hidle (plan_unreadable hread hi hne)
  · intro t ht
    rcases plan_onParser s hi with ⟨r, hplan⟩ | ⟨p, r, hplan⟩ | ⟨x, hplan⟩
    · rw [exec_refuse hidle hplan] at ht
      cases ht
    · have hfits := plan_fits s i
      rw [hplan] at hfits
      obtain ⟨b, hb, -⟩ := hfits
      exact absurd hb (hne b)
    · rw [exec_finish hidle hplan] at ht
      obtain rfl := Host.Outcome.next.inj ht
      refine ⟨.returned x, rfl, exec_finish (by exact hidle) (sent := []) ?_⟩
      exact (plan_congr_parser hi rfl rfl rfl).trans hplan

/-! ### The text of the mask -/

theorem mem_allFlags (f : DeviceFlag) : f ∈ allFlags := by
  cases f <;> decide

/-- A lawful `errBit` is injective (R70). -/
theorem bit_inj {bits : ErrBits} (h : bits.toList.Nodup) {f g : DeviceFlag} (hfg : bits.bit f = bits.bit g) : f = g :=
  List.inj_on_of_nodup_map (f := bits.bit) (l := allFlags) h (mem_allFlags f) (mem_allFlags g) hfg

/-- With an injective `errBit` the flag of a flag's bit is the flag (R70). -/
theorem flagAt_bit {bits : ErrBits} (h : bits.toList.Nodup) (f : DeviceFlag) : flagAt bits (bits.bit f) = some f := by
  cases hf : flagAt bits (bits.bit f) with
  | none => exact absurd (List.find?_eq_none.1 hf f (mem_allFlags f)) (by simp)
  | some g =>
    have hg : (bits.bit g == bits.bit f) = true := List.find?_some (p := fun f' => bits.bit f' == bits.bit f) hf
    rw [bit_inj h (beq_iff_eq.1 hg)]

/-- A bit of no flag has none (R113). -/
theorem flagAt_none {bits : ErrBits} {k : Fin 8} (h : ∀ f, bits.bit f ≠ k) : flagAt bits k = none :=
  List.find?_eq_none.2 fun f _ => by simpa using h f

theorem bitName_eq (k : Fin 8) : bitName k = "BIT" ++ toString k.val := by
  revert k
  decide

/-- Settles O15: `maskBitName` names every bit, by its flag where it has one (`flagAt_bit`), else by its number. -/
theorem errorTextNamesTheSetBits : Obligations.ErrorTextNamesTheSetBits := by
  intro s hidle hk hd hbits
  have hexec := exec_errorCodeStr hidle (readable_done hk hd)
  refine ⟨maskBitName s.cfg.bits, ?flags, ?others, ?none, ?some⟩
  case flags => exact fun f => by simp only [maskBitName, flagAt_bit hbits f]
  case others => exact fun k h => by simp only [maskBitName, flagAt_none h, bitName_eq]
  case none =>
    intro h
    rw [hexec, packet_error, h]
    rfl
  case some =>
    intro h
    have hfin : List.finRange 8 = [0, 1, 2, 3, 4, 5, 6, 7] := by decide
    rw [hexec, packet_error, errorText, if_neg h, setBits, hfin]

/-! ### The builder and the operations that only transmit -/

/-- A plan that builds a frame of more than 253 parameters is refused (R123). -/
theorem exec_tooMany {s : State} (hidle : s.Idle) {i : Instr} {id : Byte} {c : CommandArg} {ps : List Byte}
    {k : List Byte → Plan} (hi : plan s i = withFrame s.cfg.codes id c ps k) (hid : id.toNat ≤ 254) (hps : 253 < ps.length) :
    exec i s = .refused .buildTooManyParams :=
  exec_refuse hidle (hi.trans (withFrame_long _ _ hid hps _))

/-- Settles O16: the plan of `build` returns the builder's frame. -/
theorem buildReturnsTheFrame : Obligations.BuildReturnsTheFrame := by
  intro s id cmd ps hidle
  refine ⟨fun hid hps => ?_, fun hid => ?_, fun hid hps => exec_tooMany hidle rfl hid hps⟩
  · refine ⟨lengthByte ps, commandByte s.cfg.codes cmd, lengthByte_toNat hps, ?_, ?_⟩
    · cases cmd <;> rfl
    · exact exec_finish hidle (i := .build id cmd ps) (sent := []) (withFrame_ok _ cmd hid hps _)
  · exact exec_refuse hidle (withFrame_id _ cmd hid _)

/-- Settles O19: `transmit_ok`, and the plan of `fill_and_write_packet`. -/
theorem fillAndWriteTransmitsOneFrame : Obligations.FillAndWriteTransmitsOneFrame := by
  intro s id cmd data hidle
  refine ⟨fun hid hdata => ⟨transmit_ok cmd s hid hdata, exec_sendOnly hidle (fun _ => rfl) hid hdata⟩, fun hid => ?_,
    fun hid hdata => exec_tooMany hidle rfl hid hdata⟩
  exact exec_refuse hidle (withFrame_id _ cmd hid _)

/-- A broadcast command does not wait (R146, D12). -/
theorem exchangeUnlessBroadcast_broadcast (c : CommandArg) (ps : List Byte) (t : State) :
    exchangeUnlessBroadcast broadcastId c ps t = sendOnly broadcastId c ps t := if_pos rfl

/-- Settles O26: to the broadcast ID the body of each of these commands is `sendOnly` (`exec_sendOnly`). -/
theorem broadcastWriteAndResetReturnAtOnce : Obligations.BroadcastWriteAndResetReturnAtOnce := by
  intro s offset data deferred hidle hdata
  have hps : (writeParams offset data).length ≤ 253 := Nat.succ_le_succ hdata
  refine ⟨?write, ?reset, ?wireWrite, ?wireRegWrite, ?wireReset⟩
  case write =>
    rw [← code_writeCommand]
    exact exec_sendOnly hidle (c := .cmd (writeCommand deferred)) (exchangeUnlessBroadcast_broadcast _ _) (by decide) hps
  case reset =>
    exact exec_sendOnly hidle (c := .cmd .reset) (exchangeUnlessBroadcast_broadcast (.cmd .reset) []) (by decide) (by simp)
  case wireWrite => exact exec_sendOnly hidle (c := .cmd .write) (exchangeUnlessBroadcast_broadcast _ _) (by decide) hps
  case wireRegWrite => exact exec_sendOnly hidle (c := .cmd .regWrite) (exchangeUnlessBroadcast_broadcast _ _) (by decide) hps
  case wireReset =>
    exact exec_sendOnly hidle (c := .cmd .reset) (exchangeUnlessBroadcast_broadcast (.cmd .reset) []) (by decide) (by simp)

/-- With one length L, at least one device and room for the parameters, the plan transmits one broadcast frame (R171). -/
theorem syncWritePlan_common (codes : CmdCodes) {ids : List Byte} (offset : Byte) {values : List (List Byte)} {L : Nat}
    (hn : values.length = ids.length) (hL : ∀ v ∈ values, v.length = L) (hne : ids ≠ [])
    (hc : 2 + ids.length * (L + 1) ≤ 253) :
    syncWritePlan codes ids offset values =
      .finish [.tx (frame broadcastId codes.syncWrite
        ([offset, BitVec.ofNat 8 L] ++ (ids.zip values).flatMap fun x => x.1 :: x.2))] (.returned .unit) := by
  have hvalues : values ≠ [] := by
    rintro rfl
    exact hne (List.length_eq_zero_iff.1 hn.symm)
  rw [syncWritePlan_ok codes offset (lengthsAgree_of_forall hn hL) hne (by rwa [syncParamCount_eq hL, hn]),
    syncParams, headD_length hvalues hL, syncBody_eq_flatMap]

/-- Settles O29: the branches of `syncWritePlan`. -/
theorem syncWriteValidatesThenBroadcastsOnce : Obligations.SyncWriteValidatesThenBroadcastsOnce := by
  intro s ids offset values hidle
  constructor
  · intro h
    have hagree : ¬ lengthsAgree ids values = true := by
      rw [lengthsAgree_iff]
      rintro ⟨hn, hsame⟩
      rcases h with h | ⟨v, hv, w, hw, h⟩
      · exact h hn
      · exact h ((hsame v hv).trans (hsame w hw).symm)
    exact exec_finish hidle (i := .syncWrite ids offset values) (sent := []) (if_neg hagree)
  · intro L hn hL
    have hagree : lengthsAgree ids values = true := lengthsAgree_of_forall hn hL
    refine ⟨fun hids => ?none, fun hids hlong => ?long, fun hids hc => ?sent⟩
    case none => exact exec_refuse hidle ((if_pos hagree).trans (if_pos hids))
    case long =>
      refine exec_tooMany hidle ((if_pos hagree).trans (if_neg hids)) (by decide) ?_
      rwa [syncParams_length offset hn, syncParamCount_eq hL, hn]
    case sent => exact exec_finish hidle (i := .syncWrite ids offset values) (syncWritePlan_common _ offset hn hL hids hc)

/-- Settles O35: ACTION is `exec_sendOnly`; SYNC_WRITE has the plan of `sync_write`, its parameters laid out block by block. -/
theorem wireActionAndSyncWriteBroadcast : Obligations.WireActionAndSyncWriteBroadcast := by
  constructor
  · intro s hidle
    exact exec_sendOnly hidle (c := .cmd .action) (fun _ => rfl) (by decide) (by simp)
  · intro s offset blocks L hidle hne hL hc
    have hvalues : ∀ v ∈ blocks.map (·.values), v.length = L := by simpa using hL
    have hplan := syncWritePlan_common s.cfg.codes offset (ids := blocks.map (·.id)) (by simp) hvalues (by simpa using hne)
      (by simpa using hc)
    rw [← syncBody_eq_flatMap, syncBody_blocks] at hplan
    exact exec_finish hidle (i := .wireSyncWrite offset blocks) hplan

/-- Settles O32: a scan of nothing returns at once, and the range is checked before anything else. -/
theorem scanOfNothingAndScanBeyondTheIds : Obligations.ScanOfNothingAndScanBeyondTheIds := by
  intro s startId num hidle
  constructor
  · intro hstart
    have hplan : plan s (.scan startId 0) = .scan startId 0 := if_neg (by omega)
    rw [exec_eq_run hidle, hplan, run_scan_zero hidle]
  · exact fun h => exec_refuse hidle (if_pos h)

end Sys2Proof.Machine
end

section
/-! PROOFS. The operations with one receive phase on every stream of answers (spec/42_bus_primitives.md R142 to R159): what the
end of a receive phase of each kind makes of it, then the four cases of `AnswersGive` for a plan that awaits a packet, then the
statements. -/

namespace Sys2Proof.Machine

open Sys2Proof

/-! ### The end of a receive phase -/

/-- `u`, in which a receive phase has ended, after the operation's result, which may give the host a Packet. -/
def State.resulted (u : State) (r : OpResult) : State :=
  { u with phase := .idle, op := none, packet := r.packet, history := u.history ++ [.result r] }

section
variable {u : State} (h : u.packet = none)
include h

theorem complete_resulted {v : Value} (hv : (OpResult.returned v).packet = none) :
    complete v u = .next (u.resulted (.returned v)) := by
  rw [complete, State.resulted, hv, ← h]

theorem raiseError_resulted (e : OpError) : raiseError e u = .next (u.resulted (.raised e)) := by
  rw [raiseError, State.resulted]
  simp only [OpResult.packet, ← h]

/-- The verdict of a command on a good packet (R143). -/
theorem checkStatus_resulted (p : Parser) {v : Value} (hv : (OpResult.returned v).packet = none) :
    (if isDeviceError p.err then raiseError (deviceError p.err) u else complete v u) = .next (u.resulted (checkStatus p v)) := by
  by_cases he : p.err = 0#8
  · rw [if_neg (by simp [isDeviceError, he]), checkStatus, if_pos he, complete_resulted h hv]
  · rw [if_pos (by simpa [isDeviceError] using he), checkStatus, if_neg he, raiseError_resulted h]

end

/-- An operation of kind `k` that is no scan ends with `good p` on a good packet and with `late` on a timeout. -/
structure SettlesAs (k : Reply) (good : Parser → OpResult) (late : OpResult) : Prop where
  good : ∀ (p : Parser) (u : State), u.packet = none → settle k .good p u = .next (u.resulted (good p))
  late : ∀ (p : Parser) (u : State), u.packet = none → settle k .timeout p u = .next (u.resulted late)

theorem packet_settlesAs : SettlesAs .packet (fun p => .returned (.packet p.packet)) (.raised timeoutError) :=
  ⟨fun _ _ _ => rfl, fun _ _ h => raiseError_resulted h _⟩

theorem presence_settlesAs : SettlesAs .presence (fun p => checkStatus p (.bool true)) (.returned (.bool false)) :=
  ⟨fun p _ h => checkStatus_resulted h p rfl, fun _ _ h => complete_resulted h rfl⟩

theorem data_settlesAs : SettlesAs .data (fun p => checkStatus p (.bytes p.buf)) (.raised timeoutError) :=
  ⟨fun p _ h => checkStatus_resulted h p rfl, fun _ _ h => raiseError_resulted h _⟩

theorem ack_settlesAs : SettlesAs .ack (fun p => checkStatus p .unit) (.raised timeoutError) :=
  ⟨fun p _ h => checkStatus_resulted h p rfl, fun _ _ h => raiseError_resulted h _⟩

/-! ### The four cases of a stream -/

/-- The receive phase that ends in `r` after the answers `l` leaves the state `State.ended` and the queue. -/
theorem endReceive_ended {s : State} (hidle : s.Idle) {i : Instr} {k : Reply} (hk : replyOf i = some k) {sent evs : List Event}
    {v : Verdict} {p : Parser} {r : OpResult}
    (hv : ∀ u : State, u.packet = none → settle k v p u = .next (u.resulted r)) (q : List RxAnswer) :
    andThen (endReceive v { s.awaiting i sent with rxParser := p, history := (s.awaiting i sent).history ++ evs })
      (drainQueue q) = .next (s.ended (sent ++ evs) r p q) := by
  have hend : endReceive v { s.awaiting i sent with rxParser := p, history := (s.awaiting i sent).history ++ evs } =
      .next ({ s.awaiting i sent with rxParser := p.reset, history := (s.awaiting i sent).history ++ evs }.resulted r) := by
    rw [endReceive_eq v (i := i) rfl hk]
    exact hv _ rfl
  rw [hend, andThen_next, drainQueue_ended rfl]
  obtain ⟨hphase, hop⟩ := hidle
  simp only [State.ended, State.resulted, State.awaiting, List.append_assoc, ← hphase, ← hop]

/-- What an operation that awaits a packet makes of every stream (R142, R143, R201, R204, R232). -/
theorem answersGive_await {s : State} (hidle : s.Idle) {i : Instr} {k : Reply} {sent : List Event}
    {good : Parser → OpResult} {late : OpResult} (hplan : plan s i = .await sent) (hk : replyOf i = some k)
    (hs : SettlesAs k good late) : AnswersGive i s sent good late := by
  have hexec (l : List RxAnswer) (hrx : s.rx = l) : exec i s = drainQueue l (s.awaiting i sent) := by
    rw [exec_eq_run hidle, hplan, ← hrx]
    rfl
  refine ⟨?good, ?checksum, ?late, ?running⟩
  case good =>
    intro l p q hfeed hrx
    rw [hexec _ hrx, drainQueue_good q rfl hfeed]
    exact endReceive_ended hidle hk (hs.good p) q
  case checksum =>
    intro l p q hfeed hrx
    rw [hexec _ hrx, drainQueue_checksum q rfl hfeed]
    exact endReceive_ended hidle hk (v := .checksum) (fun u hu => raiseError_resulted hu checksumError) q
  case late =>
    intro l p q hfeed hrx
    rw [hexec _ hrx, drainQueue_timeout q rfl hfeed]
    exact endReceive_ended hidle hk (hs.late p) q
  case running =>
    intro l p hfeed hrx
    rw [hexec (answerBytes l ++ []) (by rw [hrx, List.append_nil]), drainQueue_unfinished [] rfl hfeed, drainQueue_nil]
    simp only [State.waiting, State.awaiting, List.append_assoc]

/-! ### The statements -/

/-- Settles O20: `read_status_packet` awaits the Packet itself, with no transmit event. -/
theorem readStatusPacketOnEveryStream : Obligations.ReadStatusPacketOnEveryStream :=
  fun _ hidle => answersGive_await hidle rfl rfl packet_settlesAs

/-- Settles O21: neither stream ends the parse, so `read_status_packet` is still running (`readStatusPacketOnEveryStream`). -/
theorem receiveLoopHasNoByteLimit : Obligations.ReceiveLoopHasNoByteLimit := by
  constructor
  · intro s n hidle hrx
    obtain ⟨-, -, -, hrunning⟩ := readStatusPacketOnEveryStream s hidle
    refine hrunning _ _ ?_ hrx
    clear hrx hrunning
    induction n with
    | zero => rfl
    | succ n ih =>
      rw [List.replicate_succ, feed_cons_notDone (p' := s.rxParser.reset) _ (by rw [processByte_waitStart1 _ rfl]; rfl), ih]
  · intro s id n e l hidle hpol hn hrx
    obtain ⟨-, -, -, hrunning⟩ := readStatusPacketOnEveryStream s hidle
    refine hrunning _ _ ?_ hrx
    rw [hpol]
    simp only [List.cons_append, List.nil_append]
    rw [feed_head _ (reset_state _), feed_cons_notDone _ (processByte_waitError_short .absorb rfl hn),
      feed_waitParam_short .absorb rfl (Nat.lt_succ_of_lt hn)]
    rfl

/-- Settles O22: the plan of a device's PING, and the refusal of 254. -/
theorem pingOnEveryStream : Obligations.PingOnEveryStream := by
  constructor
  · exact fun s id hidle hid => answersGive_await hidle (pingPlan_ok _ hid) rfl presence_settlesAs
  · exact fun s hidle => exec_refuse hidle rfl

/-- Settles O23: the plan of a device's READ, and the refusal of 254. -/
theorem readOnEveryStream : Obligations.ReadOnEveryStream := by
  constructor
  · exact fun s id offset length hidle hid => answersGive_await hidle (readPlan_ok _ hid offset length) rfl data_settlesAs
  · exact fun s offset length hidle => exec_refuse hidle rfl

/-- Settles O24: the plan of a device's WRITE or REG_WRITE, and the builder's refusal. -/
theorem writeOnEveryStream : Obligations.WriteOnEveryStream := by
  constructor
  · intro s id offset data deferred hidle hid hdata
    rw [← code_writeCommand]
    exact answersGive_await hidle (answeredPlan_device _ (.cmd (writeCommand deferred)) hid (Nat.succ_le_succ hdata)) rfl
      ack_settlesAs
  · intro s id offset data deferred hidle hid hdata
    exact exec_refuse hidle (i := .write id offset data deferred)
      (answeredPlan_long _ (.cmd (writeCommand deferred)) hid (Nat.succ_lt_succ hdata))

/-- Settles O25: the plan of a device's RESET. -/
theorem resetOnEveryStream : Obligations.ResetOnEveryStream :=
  fun _ _ hidle hid => answersGive_await hidle (answeredPlan_device _ (.cmd .reset) hid (by simp)) rfl ack_settlesAs

/-- Settles O33: the wire instructions have the plans of `ping` and `read`. -/
theorem wirePingAndReadOnEveryStream : Obligations.WirePingAndReadOnEveryStream := by
  refine ⟨?ping, ?read, ?broadcast⟩
  case ping => exact fun s id hidle hid => answersGive_await hidle (pingPlan_ok _ hid) rfl presence_settlesAs
  case read =>
    exact fun s id offset length hidle hid => answersGive_await hidle (readPlan_ok _ hid offset length) rfl data_settlesAs
  case broadcast => exact fun s offset length hidle => ⟨exec_refuse hidle rfl, exec_refuse hidle rfl⟩

/-- Settles O34: the wire instructions have the plans of `write`, its deferred form and `reset`. -/
theorem wireWriteAndResetOnEveryStream : Obligations.WireWriteAndResetOnEveryStream := by
  intro s id offset data hidle hid hdata
  have hps : (writeParams offset data).length ≤ 253 := Nat.succ_le_succ hdata
  refine ⟨?write, ?regWrite, ?reset⟩
  case write => exact answersGive_await hidle (answeredPlan_device _ (.cmd .write) hid hps) rfl ack_settlesAs
  case regWrite => exact answersGive_await hidle (answeredPlan_device _ (.cmd .regWrite) hid hps) rfl ack_settlesAs
  case reset => exact answersGive_await hidle (answeredPlan_device _ (.cmd .reset) hid (by simp)) rfl ack_settlesAs

end Sys2Proof.Machine
end

section
/-! PROOFS. Scans (spec/43_bus_broadcast_scan.md R174 to R177): what one reply does at the head of the loop's receive phase, then
any number of lawful replies by induction, then how the scan goes on after them. -/

namespace Sys2Proof.Machine

open Sys2Proof

/-- The event that a reply emits for an ID (R175). -/
def PingReply.event (r : PingReply) (id : Nat) : Event :=
  if r.present then .found (BitVec.ofNat 8 id) else .missing (BitVec.ofNat 8 id)

/-- `u`, in which a scan awaits the reply to its ping, after the reply `r` has been taken, `C.P` then holding `p`. -/
def State.replied (u : State) (r : PingReply) (p : Parser) : State :=
  { u with
    phase := .idle
    rxParser := p
    cur := u.cur + 1
    found := u.found || r.present
    history := u.history ++ received r.answers ++ [r.event u.cur] }

/-- `u`, in which a scan pings its next ID (R174). -/
def State.pinged (u : State) : State :=
  { u with
    phase := .rx
    rxParser := u.rxParser.reset
    packet := none
    history := u.history ++ [.tx (frame (BitVec.ofNat 8 u.cur) u.cfg.codes.ping [])] }

theorem scanNext_pinged {u : State} (hlt : u.cur < u.stop) (hstop : u.stop ≤ 254) : scanNext u = .next u.pinged := by
  rcases scanNext_cases u with ⟨-, -, h⟩ | ⟨-, h, -⟩ | ⟨h, -⟩
  · exact h
  · omega
  · exact absurd hlt h

/-- What the answers do to a parser that was reset, they do to every other one (R35). -/
theorem feed_reset {pol : ShortLenPolicy} {l : List Byte} {p : Parser} {r : ParseResult} {rest : List Byte}
    (h : feed pol Parser.initial l = some (p, r, rest)) (q : Parser) :
    ∃ p', feed pol q.reset l = some (p', r, rest) ∧ p.Alike p' := by
  rw [← initial_reset] at h
  exact feed_alike (alike_reset _ _) h

theorem feed_none_done {pol : ShortLenPolicy} {l : List Byte} : ∀ {p q : Parser} {rest : List Byte},
    feed pol p l = some (q, .none, rest) → q.state = .done := by
  induction l with
  | nil =>
    intro p q rest h
    cases h
  | cons b bs ih =>
    intro p q rest h
    match hb : processByte pol p b with
    | none => rw [feed, hb] at h; cases h
    | some (p', .notDone) => exact ih (by rwa [feed_cons_notDone _ hb] at h)
    | some (p', .none) =>
      rw [feed_cons_end _ hb (by simp)] at h
      cases h
      simpa using processByte_result hb
    | some (p', .checksum) => rw [feed_cons_end _ hb (by simp)] at h; cases h

/-- A parser that was reset ends a good packet with the mask that a fresh parser has. -/
theorem feed_reset_good {pol : ShortLenPolicy} {l : List Byte} {p : Parser}
    (h : feed pol Parser.initial l = some (p, .none, [])) (q : Parser) :
    ∃ p', feed pol q.reset l = some (p', .none, []) ∧ p'.err = p.err := by
  obtain ⟨p', h', halike⟩ := feed_reset h q
  exact ⟨p', h', (congrArg Packet.error (halike.packet (feed_none_done h))).symm⟩

section Lawful
variable {pol : ShortLenPolicy} {l : List Byte}

theorem lawful_status (h : (PingReply.status l).lawful pol = true) :
    ∃ p, feed pol Parser.initial l = some (p, .none, []) ∧ p.err = 0#8 := by
  simp only [PingReply.lawful] at h
  split at h
  · next p hfeed => exact ⟨p, hfeed, beq_iff_eq.1 h⟩
  · cases h

theorem lawful_cut (h : (PingReply.cut l).lawful pol = true) : ∃ p, feed pol Parser.initial l = some (p, .notDone, []) := by
  simp only [PingReply.lawful] at h
  split at h
  · next p hfeed => exact ⟨p, hfeed⟩
  · cases h

end Lawful

section Reply
variable {u : State} {i : Instr} (hop : u.op = some i) (hi : replyOf i = some .scan)
include hop hi

/-- A lawful reply ends the receive phase of a scan's ping, and the scan goes on to its next ID (R174). -/
theorem drainQueue_reply {r : PingReply} (hr : r.lawful u.cfg.shortLen = true) (q : List RxAnswer) :
    ∃ p : Parser, drainQueue (r.answers ++ q) u.pinged = andThen (scanNext (u.pinged.replied r p.reset)) (drainQueue q) := by
  cases r with
  | status l =>
    obtain ⟨p₁, hfeed, hmask⟩ := lawful_status hr
    obtain ⟨p, hfeed', herr⟩ := feed_reset_good hfeed u.rxParser
    have hgood : isDeviceError p.err = false := by simp [isDeviceError, herr, hmask]
    refine ⟨p, ?_⟩
    rw [PingReply.answers, drainQueue_good (s := u.pinged) q hop hfeed', endReceive_eq (i := i) .good (by exact hop) hi]
    simp only [settle, settleGood, hgood, Bool.false_eq_true, if_false, scanFound, State.replied, PingReply.event,
      PingReply.present, PingReply.answers, Bool.or_true, if_true]
  | cut l =>
    obtain ⟨p₁, hfeed⟩ := lawful_cut hr
    obtain ⟨p, hfeed', -⟩ := feed_reset hfeed u.rxParser
    refine ⟨p, ?_⟩
    rw [PingReply.answers, List.append_assoc, List.singleton_append, drainQueue_timeout (s := u.pinged) q hop hfeed',
      endReceive_eq (i := i) .timeout (by exact hop) hi]
    simp only [settle, settleTimeout, scanMissing, State.replied, PingReply.event, PingReply.present, PingReply.answers,
      Bool.or_false, Bool.false_eq_true, if_false]

end Reply

/-- `u`, at the head of scan's loop, after the replies `rs` to as many pings, `C.P` then holding `p` (R174, R177). -/
def State.visited (u : State) (rs : List PingReply) (p : Parser) : State :=
  { u with
    rxParser := p
    packet := if rs = [] then u.packet else none
    cur := u.cur + rs.length
    found := u.found || rs.any PingReply.present
    history := u.history ++ scanEvents u.cfg.codes u.cur rs }

/-- Lawful replies take a scan from the head of its loop to the head of its loop, an ID further for each (R174, R177). -/
theorem scanNext_replies {i : Instr} (hi : replyOf i = some .scan) (q : List RxAnswer) (rs : List PingReply) :
    ∀ {u : State}, u.op = some i → u.phase = .idle → u.stop ≤ 254 → u.cur + rs.length ≤ u.stop →
      (∀ r ∈ rs, r.lawful u.cfg.shortLen = true) →
      ∃ p : Parser, (rs = [] → p = u.rxParser) ∧ (rs ≠ [] → p.state = .waitStart1 ∧ p.buf = []) ∧
        andThen (scanNext u) (drainQueue (rs.flatMap PingReply.answers ++ q)) =
          andThen (scanNext (u.visited rs p)) (drainQueue q) := by
  induction rs with
  | nil =>
    intro u _ _ _ _ _
    refine ⟨u.rxParser, fun _ => rfl, fun h => absurd rfl h, ?_⟩
    simp only [State.visited, scanEvents, List.append_nil, if_true, List.any_nil, Bool.or_false]
    rfl
  | cons r rs ih =>
    intro u hop hphase hstop hlen hlawful
    rw [List.length_cons] at hlen
    obtain ⟨p₁, hreply⟩ := drainQueue_reply hop hi (hlawful r (by simp)) (rs.flatMap PingReply.answers ++ q)
    obtain ⟨p, hnil, hcons, hrest⟩ := ih (u := u.pinged.replied r p₁.reset) hop rfl hstop
      (show u.cur + 1 + rs.length ≤ u.stop by omega) fun x hx => hlawful x (by simp [hx])
    have hfresh : p.state = .waitStart1 ∧ p.buf = [] := by
      by_cases h : rs = []
      · rw [hnil h]
        exact ⟨rfl, rfl⟩
      · exact hcons h
    have hvisited : (u.pinged.replied r p₁.reset).visited rs p = u.visited (r :: rs) p := by
      simp only [State.visited, State.replied, State.pinged, PingReply.event, scanEvents, hphase, ite_self, List.cons_ne_nil,
        reduceIte, List.length_cons, List.any_cons, Bool.or_assoc, List.append_assoc, List.cons_append, List.nil_append,
         Nat.add_assoc, Nat.add_comm 1]
    refine ⟨p, nofun, fun _ => hfresh, ?_⟩
    rw [List.flatMap_cons, List.append_assoc, scanNext_pinged (by omega) hstop, andThen_next, hreply, hrest, hvisited]

/-- A scan of a lawful range whose first answers are lawful replies is at the head of its loop after them (R174). -/
theorem exec_scan {s : State} (hidle : s.Idle) {a n : Nat} (han : a + n ≤ 254) {rs : List PingReply} (hlen : rs.length ≤ n)
    (hlawful : ∀ r ∈ rs, r.lawful s.cfg.shortLen = true) {q : List RxAnswer}
    (hrx : s.rx = rs.flatMap PingReply.answers ++ q) :
    ∃ p : Parser, (rs = [] → p = s.rxParser) ∧ (rs ≠ [] → p.state = .waitStart1 ∧ p.buf = []) ∧
      exec (.scan a n) s = andThen (scanNext ((s.scanning (.scan a n) a n).visited rs p)) (drainQueue q) := by
  have hplan : plan s (.scan a n) = .scan a n := if_neg (by omega)
  have hexec : exec (.scan a n) s = andThen (scanNext (s.scanning (.scan a n) a n)) (drainQueue s.rx) := by
    rw [exec_eq_run hidle, hplan]
    exact run_scan_rx s.rx (.scan a n) s a n
  obtain ⟨p, hnil, hcons, hrest⟩ := scanNext_replies (i := .scan a n) rfl q rs (u := s.scanning (.scan a n) a n) rfl hidle.1
    han (show a + rs.length ≤ a + n by omega) hlawful
  exact ⟨p, hnil, hcons, by rw [hexec, hrx, hrest]⟩

/-- Settles O30: with a reply for each ID the loop's head ends the scan; with fewer it pings the next ID, and bytes that end
nothing leave that ping's receive phase running. -/
theorem scanVisitsEveryIdInOrder : Obligations.ScanVisitsEveryIdInOrder := by
  intro s a n rs hidle han hlawful
  constructor
  · intro q hlen hrx
    subst hlen
    obtain ⟨p, hnil, hcons, hexec⟩ := exec_scan hidle han le_rfl hlawful hrx
    refine ⟨p, hnil, hcons, ?_⟩
    rcases scanNext_cases ((s.scanning (.scan a rs.length) a rs.length).visited rs p) with ⟨hlt, -⟩ | ⟨hlt, -⟩ | ⟨-, hend⟩
    · exact absurd hlt (Nat.lt_irrefl _)
    · exact absurd hlt (Nat.lt_irrefl _)
    · rw [hexec, hend, andThen_next, drainQueue_ended rfl]
      obtain ⟨hphase, hop⟩ := hidle
      simp only [State.visited, State.scanning, Bool.false_or, ← hphase, ← hop]
  · intro l p hlt hfeed hrx
    obtain ⟨p₁, -, -, hexec⟩ := exec_scan hidle han hlt.le hlawful hrx
    obtain ⟨p', hfeed', halike⟩ := feed_reset hfeed p₁
    refine ⟨p', halike.state.symm, halike.buf.symm, ?_⟩
    rw [hexec, scanNext_pinged (show a + rs.length < a + n by omega) han, andThen_next, ← List.append_nil (answerBytes l),
      drainQueue_unfinished (i := .scan a n) [] rfl hfeed', drainQueue_nil]
    simp [State.pinged, State.visited, State.scanning]

/-- `u`, in which a scan awaits the reply to its ping, after the answers to `l` have ended it with the error `e`. -/
def State.scanRaised (u : State) (l : List Byte) (e : OpError) (p : Parser) (q : List RxAnswer) : State :=
  { u with
    phase := .idle
    op := none
    rxParser := p.reset
    rx := q
    history := u.history ++ received (answerBytes l) ++ [.result (.raised e)] }

section Raise
variable {u : State} {i : Instr} (hop : u.op = some i) (hi : replyOf i = some .scan) {l : List Byte} {p : Parser}
include hop hi

/-- A good packet with a non-zero mask ends a scan (R143, R174). -/
theorem drainQueue_scan_device (hfeed : feed u.cfg.shortLen u.rxParser l = some (p, .none, [])) (herr : p.err ≠ 0#8)
    (q : List RxAnswer) : drainQueue (answerBytes l ++ q) u = .next (u.scanRaised l (deviceError p.err) p q) := by
  have hdevice : isDeviceError p.err = true := by simpa [isDeviceError] using herr
  rw [drainQueue_good q hop hfeed, endReceive_eq (i := i) .good (by exact hop) hi, settle, settleGood, if_pos hdevice,
    raiseError, andThen_next, drainQueue_ended rfl]
  rfl

/-- A checksum mismatch ends a scan (R174, R204). -/
theorem drainQueue_scan_checksum (hfeed : feed u.cfg.shortLen u.rxParser l = some (p, .checksum, [])) (q : List RxAnswer) :
    drainQueue (answerBytes l ++ q) u = .next (u.scanRaised l checksumError p q) := by
  rw [drainQueue_checksum q hop hfeed, endReceive_eq (i := i) .checksum (by exact hop) hi, settle, raiseError, andThen_next,
    drainQueue_ended rfl]
  rfl

end Raise

/-- Settles O31: after the replies the loop's head pings the next ID, and the end of that ping's receive phase raises. -/
theorem scanEndsAtTheFirstBusError : Obligations.ScanEndsAtTheFirstBusError := by
  intro s a n rs l p q hidle han hlt hlawful hrx
  rw [List.append_assoc] at hrx
  obtain ⟨p₁, -, -, hexec⟩ := exec_scan hidle han hlt.le hlawful hrx
  rw [scanNext_pinged (show a + rs.length < a + n by omega) han, andThen_next] at hexec
  by_cases h : ∃ r, feed s.cfg.shortLen Parser.initial l = some (p, r, [])
  · obtain ⟨r, hr⟩ := h
    obtain ⟨p₂, hfeed, halike⟩ := feed_reset hr p₁
    refine ⟨p₂.reset, rfl, rfl, fun e he => ?_⟩
    have hend : exec (.scan a n) s =
        .next (((s.scanning (.scan a n) a n).visited rs p₁).pinged.scanRaised l (.bus e) p₂ q) := by
      rw [hexec]
      rcases he with ⟨hgood, herr, rfl⟩ | ⟨hbad, rfl⟩
      · obtain rfl : r = .none := by simpa [hr] using hgood
        have hmask : p.err = p₂.err := congrArg Packet.error (halike.packet (feed_none_done hr))
        rw [hmask] at herr ⊢
        exact drainQueue_scan_device (i := .scan a n) rfl rfl hfeed herr q
      · obtain rfl : r = .checksum := by simpa [hr] using hbad
        exact drainQueue_scan_checksum (i := .scan a n) rfl rfl hfeed q
    obtain ⟨hphase, hop⟩ := hidle
    rw [hend]
    simp [State.scanRaised, State.pinged, State.visited, State.scanning, hphase, hop]
  · refine ⟨Parser.initial, rfl, rfl, fun e he => absurd ?_ h⟩
    rcases he with ⟨hgood, -⟩ | ⟨hbad, -⟩
    · exact ⟨_, hgood⟩
    · exact ⟨_, hbad⟩

end Sys2Proof.Machine
end
